-- ==== Sys2Proof/Word.lean ====
section
/-! DEFINITION. The block's data: bytes and bits (00_scope.md R6, 20_memory.md R55). No wider word exists. -/

namespace Sys2Proof

/-- One byte, bits numbered 7 down to 0 (00_scope.md R6). -/
abbrev Byte := BitVec 8

/-- One bit: `true` is 1, `false` is 0. Used for line levels, Busy samples, pixels and RESULT. -/
abbrev Bit := Bool

/-- The level opposite to a given one (10_state.md R21, R22: "its complement"). -/
def Bit.complement (b : Bit) : Bit := !b

/-- A bit in the low place of a byte (45_pixel_buffer.md R191: the `bit` of `bit << k`). -/
def Bit.toByte (b : Bit) : Byte := if b then 1 else 0

end Sys2Proof
end

