-- ==== Sys2Proof/Config.lean ====
section
/-! DEFINITION. The parameters of construction (00_scope.md R5, 10_state.md R30) and the free values: what the
environment answers once its scripted answers are used up. -/

namespace Sys2Proof

/-- The two plane memories of the controller (00_scope.md R10, 30_encoding.md R82: 0 = BW, 1 = RED). -/
inductive Plane where
  | bw
  | red
  deriving DecidableEq, Repr

/-- A limit that is a natural at least 1, or INF: the type of `POLL_BOUND` and `CHUNK` (R5). -/
inductive Bound where
  | count (n : Nat) (positive : 0 < n)
  | inf
  deriving DecidableEq, Repr

/-- The parameters that construction takes beside the seven required ones (R5), with R5's defaults. The four that R5
leaves OPEN (the limit of polls and the three durations, 92_eei_decisions.md D8, D22) have no default here either: whoever
constructs gives them. Durations carry no unit (70_reset_and_hazards.md R250). `refuseMisuse` is the MODEL's own (log 8). -/
structure Options where
  csActiveLevel : Bit := false
  dcCommandLevel : Bit := false
  pollBound : Bound
  chunk : Bound := .inf
  triggerBw : List Byte := []
  triggerRed : List Byte := []
  constructPulsesReset : Bool := true
  tResetLow : Nat
  tResetSettle : Nat
  tPoll : Nat
  refuseMisuse : Bool := false
  deriving DecidableEq, Repr

/-- What the host supplies to construction (70_reset_and_hazards.md R231). The seven required parameters have no default
and may be missing; identifiers and the link handle are naturals (log 21). -/
structure Construction extends Options where
  link : Option Nat
  pinDc : Option Nat
  pinCs : Option Nat
  pinRst : Option Nat
  pinBusy : Option Nat
  width : Option Nat
  height : Option Nat
  deriving DecidableEq, Repr

/-- The configuration registers (10_state.md R30), written once by construction. -/
structure Parameters extends Options where
  link : Nat
  pinDc : Nat
  pinCs : Nat
  pinRst : Nat
  pinBusy : Nat
  width : Nat
  height : Nat
  pages : Nat
  bufLen : Nat
  deriving DecidableEq, Repr

namespace Parameters

/-- DESIGN CHOICE (log 3): the registers before construction, where R36 says "unspecified until construction writes it".
The naturals, the three durations among them, are 0 (so that no buffer index exists), POLL_BOUND is its least value, the
rest are R5's defaults. -/
def unset : Parameters where
  pollBound := .count 1 (by decide)
  tResetLow := 0
  tResetSettle := 0
  tPoll := 0
  link := 0
  pinDc := 0
  pinCs := 0
  pinRst := 0
  pinBusy := 0
  width := 0
  height := 0
  pages := 0
  bufLen := 0

/-- DESIGN CHOICE (log 2): the smallest legal geometry (95_test_vectors.md V45), with the least POLL_BOUND, durations of
0 and R5's defaults. Only `State.withFetchWord` uses it, on a block that has not been constructed. -/
def smallest : Parameters where
  pollBound := .count 1 (by decide)
  tResetLow := 0
  tResetSettle := 0
  tPoll := 0
  link := 0
  pinDc := 0
  pinCs := 1
  pinRst := 2
  pinBusy := 3
  width := 1
  height := 8
  pages := 1
  bufLen := 1

end Parameters

/-- FREE VALUE (log 5): the Busy line's value at the n-th sample of a run, once the scripted answers are used up
(10_state.md R24, 93_implementation_defined.md U15: any value, each sample independent). -/
opaque Config.busySample : Nat → Bit

/-- FREE VALUE (log 6): whether the link accepts the n-th byte handed to it, once the scripted answers are used up
(10_state.md R25, 93_implementation_defined.md U16: any value, each byte independent). -/
opaque Config.linkAnswer : Nat → Bool

end Sys2Proof
end

