-- ==== Sys2Proof/Syntax.lean ====
section
/-! DEFINITION. The instructions: the 16 requests of 30_encoding.md R86 and the 17 command bytes of R85, one constructor
per row of opcode_table.json; their encoded forms; the textual form of R92 and the aliases of R93. -/

namespace Sys2Proof

/-- The 17 command bytes by symbol, in the row order of 30_encoding.md R85. -/
inductive Command where
  | softReset
  | driverCtrl
  | dataEntryMode
  | setDummyPeriod
  | setGateWidth
  | setWaveCtrl
  | ramXAddress
  | ramYAddress
  | setRamCounterX
  | setRamCounterY
  | setAnalogueCtrl
  | setDigitalCtrl
  | writeRamBw
  | writeRamRed
  | dispUpdate1
  | dispUpdate2
  | masterActivation
  deriving DecidableEq, Repr

/-- The payload a command byte is issued with (43_commands.md R157): the one its rule documents, or one the host gives
(30_encoding.md R85: "a host may send any payload through SEND_COMMAND"). Log 9. -/
inductive Payload where
  | documented
  | given (data : List Byte)
  deriving DecidableEq, Repr

/-- Everything the host can ask the block to perform: 16 requests, then the 17 commands of R85. `data` of SEND_COMMAND
may be empty, which is also how an absent operand is written (41_framer.md R122). DISP_UPDATE_2 takes the plane its
documented payload depends on (43_commands.md R155). -/
inductive Instr where
  | setCommandMode
  | setDataMode
  | assertSelect
  | releaseSelect
  | write (data : List Byte)
  | pulseReset
  | readBusy
  | sendCommand (opcode : Byte) (data : List Byte)
  | sendData (data : List Byte)
  | waitIdle
  | init
  | writePlane (plane : Plane)
  | refresh (plane : Plane)
  | pbClear (value : Byte)
  | pbSet (x y : Int) (bit : Bit)
  | pbGet (x y : Int)
  | softReset (payload : Payload)
  | driverCtrl (payload : Payload)
  | dataEntryMode (payload : Payload)
  | setDummyPeriod (payload : Payload)
  | setGateWidth (payload : Payload)
  | setWaveCtrl (payload : Payload)
  | ramXAddress (payload : Payload)
  | ramYAddress (payload : Payload)
  | setRamCounterX (payload : Payload)
  | setRamCounterY (payload : Payload)
  | setAnalogueCtrl (payload : Payload)
  | setDigitalCtrl (payload : Payload)
  | writeRamBw (payload : Payload)
  | writeRamRed (payload : Payload)
  | dispUpdate1 (payload : Payload)
  | dispUpdate2 (plane : Plane) (payload : Payload)
  | masterActivation (payload : Payload)
  deriving DecidableEq, Repr

/-- The operand ports of 30_encoding.md R82. The absent operand and the zero operand are the defaults. -/
structure Ports where
  opcode : Byte := 0
  data : List Byte := []
  plane : Plane := .bw
  x : Int := 0
  y : Int := 0
  bit : Bit := false
  value : Byte := 0
  deriving DecidableEq, Repr

/-- The encoded form of an instruction, in one of the two spaces of 30_encoding.md R80: a request selector with its
operand ports (R81, R82), or a command byte with its payload (R83, 43_commands.md R157; log 9). -/
inductive Code where
  | req (sel : Byte) (ports : Ports)
  | cmd (byte : Byte) (payload : Payload) (plane : Plane)
  deriving DecidableEq, Repr

/-- The mnemonic of 30_encoding.md R85 and R86. -/
def Instr.mnemonic : Instr → String
  | .setCommandMode => "SET_COMMAND_MODE"
  | .setDataMode => "SET_DATA_MODE"
  | .assertSelect => "ASSERT_SELECT"
  | .releaseSelect => "RELEASE_SELECT"
  | .write _ => "WRITE"
  | .pulseReset => "PULSE_RESET"
  | .readBusy => "READ_BUSY"
  | .sendCommand _ _ => "SEND_COMMAND"
  | .sendData _ => "SEND_DATA"
  | .waitIdle => "WAIT_IDLE"
  | .init => "INIT"
  | .writePlane _ => "WRITE_PLANE"
  | .refresh _ => "REFRESH"
  | .pbClear _ => "PB_CLEAR"
  | .pbSet _ _ _ => "PB_SET"
  | .pbGet _ _ => "PB_GET"
  | .softReset _ => "SOFT_RESET"
  | .driverCtrl _ => "DRIVER_CTRL"
  | .dataEntryMode _ => "DATA_ENTRY_MODE"
  | .setDummyPeriod _ => "SET_DUMMY_PERIOD"
  | .setGateWidth _ => "SET_GATE_WIDTH"
  | .setWaveCtrl _ => "SET_WAVE_CTRL"
  | .ramXAddress _ => "RAM_X_ADDRESS"
  | .ramYAddress _ => "RAM_Y_ADDRESS"
  | .setRamCounterX _ => "SET_RAM_COUNTER_X"
  | .setRamCounterY _ => "SET_RAM_COUNTER_Y"
  | .setAnalogueCtrl _ => "SET_ANALOGUE_CTRL"
  | .setDigitalCtrl _ => "SET_DIGITAL_CTRL"
  | .writeRamBw _ => "WRITE_RAM_BW"
  | .writeRamRed _ => "WRITE_RAM_RED"
  | .dispUpdate1 _ => "DISP_UPDATE_1"
  | .dispUpdate2 _ _ => "DISP_UPDATE_2"
  | .masterActivation _ => "MASTER_ACTIVATION"

/-- One hexadecimal digit, capital letters (30_encoding.md R92). -/
def hexDigit (n : Nat) : Char := if n < 10 then Char.ofNat (48 + n) else Char.ofNat (55 + n)

/-- A byte as R92 writes it: the 0x form, two digits. -/
def byteText (b : Byte) : String :=
  "0x" ++ String.singleton (hexDigit (b.toNat / 16)) ++ String.singleton (hexDigit (b.toNat % 16))

/-- A byte sequence as R92 writes it: in square brackets, separated by commas. -/
def bytesText (bs : List Byte) : String := "[" ++ ", ".intercalate (bs.map byteText) ++ "]"

/-- A plane by name (R92). -/
def planeText : Plane → String
  | .bw => "BW"
  | .red => "RED"

/-- A bit in decimal (R92). -/
def bitText (b : Bit) : String := if b then "1" else "0"

/-- The operands of an instruction as R92 writes them; an empty SEND_COMMAND payload is absent (R122), a documented
payload is not written. -/
def Instr.operandTexts : Instr → List String
  | .setCommandMode => []
  | .setDataMode => []
  | .assertSelect => []
  | .releaseSelect => []
  | .write data => [bytesText data]
  | .pulseReset => []
  | .readBusy => []
  | .sendCommand opcode data => byteText opcode :: (if data.isEmpty then [] else [bytesText data])
  | .sendData data => [bytesText data]
  | .waitIdle => []
  | .init => []
  | .writePlane plane => [planeText plane]
  | .refresh plane => [planeText plane]
  | .pbClear value => [byteText value]
  | .pbSet x y bit => [toString x, toString y, bitText bit]
  | .pbGet x y => [toString x, toString y]
  | .softReset p => payloadText p
  | .driverCtrl p => payloadText p
  | .dataEntryMode p => payloadText p
  | .setDummyPeriod p => payloadText p
  | .setGateWidth p => payloadText p
  | .setWaveCtrl p => payloadText p
  | .ramXAddress p => payloadText p
  | .ramYAddress p => payloadText p
  | .setRamCounterX p => payloadText p
  | .setRamCounterY p => payloadText p
  | .setAnalogueCtrl p => payloadText p
  | .setDigitalCtrl p => payloadText p
  | .writeRamBw p => payloadText p
  | .writeRamRed p => payloadText p
  | .dispUpdate1 p => payloadText p
  | .dispUpdate2 plane p => planeText plane :: payloadText p
  | .masterActivation p => payloadText p
where
  payloadText : Payload → List String
    | .documented => []
    | .given data => [bytesText data]

/-- A request as R92 writes it: the mnemonic, then its operands separated by commas. -/
def Instr.text (i : Instr) : String :=
  if i.operandTexts.isEmpty then i.mnemonic else i.mnemonic ++ " " ++ ", ".intercalate i.operandTexts

/-- `reset()` of the source: the hardware pulse, never the software reset (30_encoding.md R93, 90_conflicts.md C10). -/
abbrev Alias.reset : Instr := .pulseReset

/-- `reinit()` of the source (R93). -/
abbrev Alias.reinit : Instr := .init

/-- `sendCommand(op)` without data (R93). -/
abbrev Alias.sendCommand (opcode : Byte) : Instr := .sendCommand opcode []

/-- `write` of the original BW and RED subclasses (R93). -/
abbrev Alias.write (plane : Plane) : Instr := .writePlane plane

/-- `show` of the original BW and RED subclasses (R93). -/
abbrev Alias.show (plane : Plane) : Instr := .refresh plane

end Sys2Proof
end

