-- ==== Sys2Proof/Decode.lean ====
section
/-! DEFINITION. The two encodings of 30_encoding.md (request selectors R81, R86; command bytes R85), decoded and encoded,
and what the receiver makes of a byte on the wire (R83). -/

namespace Sys2Proof

/-- The name under which a code that is no instruction is rejected. -/
inductive DecodeError where
  /-- A selector R87 reserves. -/
  | reservedSelector (sel : Byte)
  /-- A command byte outside R85, presented as a command row. SEND_COMMAND sends any byte (R88). -/
  | unlistedCommand (byte : Byte)
  deriving DecidableEq, Repr

/-- What decoding answers. -/
inductive Decoded where
  | instr (i : Instr)
  | rejected (e : DecodeError)
  deriving DecidableEq, Repr

/-- The value of a command byte (30_encoding.md R85). -/
def Command.value : Command → Byte
  | .softReset => 0x12
  | .driverCtrl => 0x01
  | .dataEntryMode => 0x11
  | .setDummyPeriod => 0x3A
  | .setGateWidth => 0x3B
  | .setWaveCtrl => 0x3C
  | .ramXAddress => 0x44
  | .ramYAddress => 0x45
  | .setRamCounterX => 0x4E
  | .setRamCounterY => 0x4F
  | .setAnalogueCtrl => 0x74
  | .setDigitalCtrl => 0x7E
  | .writeRamBw => 0x24
  | .writeRamRed => 0x26
  | .dispUpdate1 => 0x21
  | .dispUpdate2 => 0x22
  | .masterActivation => 0x20

/-- The 17 commands in the row order of R85. -/
def Command.all : List Command :=
  [.softReset, .driverCtrl, .dataEntryMode, .setDummyPeriod, .setGateWidth, .setWaveCtrl, .ramXAddress, .ramYAddress,
   .setRamCounterX, .setRamCounterY, .setAnalogueCtrl, .setDigitalCtrl, .writeRamBw, .writeRamRed, .dispUpdate1,
   .dispUpdate2, .masterActivation]

/-- Whether a byte is one of the 17 of R85. -/
def opcodeListed (b : Byte) : Bool := Command.all.any fun c => c.value == b

/-- The command a byte stands for (R85: all 8 bits select), if it is one of the 17. -/
def Command.ofByte (b : Byte) : Option Command := Command.all.find? fun c => c.value == b

/-- The instruction that issues a command byte. Only DISP_UPDATE_2 uses the plane. -/
def Instr.ofCommand (plane : Plane) (payload : Payload) : Command → Instr
  | .softReset => .softReset payload
  | .driverCtrl => .driverCtrl payload
  | .dataEntryMode => .dataEntryMode payload
  | .setDummyPeriod => .setDummyPeriod payload
  | .setGateWidth => .setGateWidth payload
  | .setWaveCtrl => .setWaveCtrl payload
  | .ramXAddress => .ramXAddress payload
  | .ramYAddress => .ramYAddress payload
  | .setRamCounterX => .setRamCounterX payload
  | .setRamCounterY => .setRamCounterY payload
  | .setAnalogueCtrl => .setAnalogueCtrl payload
  | .setDigitalCtrl => .setDigitalCtrl payload
  | .writeRamBw => .writeRamBw payload
  | .writeRamRed => .writeRamRed payload
  | .dispUpdate1 => .dispUpdate1 payload
  | .dispUpdate2 => .dispUpdate2 plane payload
  | .masterActivation => .masterActivation payload

/-- Selector bit 7, always 1 in a request (R81). -/
def selOne (sel : Byte) : Bool := sel.getLsbD 7

/-- Selector bits 6:4, the group (R81). -/
def selGroup (sel : Byte) : Nat := (sel.extractLsb' 4 3).toNat

/-- Selector bits 3:0, the operation inside the group (R81). -/
def selIndex (sel : Byte) : Nat := (sel.extractLsb' 0 4).toNat

/-- The transport group, group 0 of R86. -/
def decodeTransport (idx : Nat) (p : Ports) : Option Instr :=
  match idx with
  | 1 => some .setCommandMode
  | 2 => some .setDataMode
  | 3 => some .assertSelect
  | 4 => some .releaseSelect
  | 5 => some (.write p.data)
  | 6 => some .pulseReset
  | 7 => some .readBusy
  | _ => none

/-- The framer group, group 1 of R86. -/
def decodeFramer (idx : Nat) (p : Ports) : Option Instr :=
  match idx with
  | 0 => some (.sendCommand p.opcode p.data)
  | 1 => some (.sendData p.data)
  | _ => none

/-- The synchroniser group, group 2 of R86. -/
def decodeSynchroniser (idx : Nat) : Option Instr :=
  match idx with
  | 0 => some .waitIdle
  | _ => none

/-- The sequencer group, group 3 of R86. -/
def decodeSequencer (idx : Nat) (p : Ports) : Option Instr :=
  match idx with
  | 0 => some .init
  | 1 => some (.writePlane p.plane)
  | 2 => some (.refresh p.plane)
  | _ => none

/-- The pixel buffer group, group 4 of R86. -/
def decodePixelBuffer (idx : Nat) (p : Ports) : Option Instr :=
  match idx with
  | 0 => some (.pbClear p.value)
  | 1 => some (.pbSet p.x p.y p.bit)
  | 2 => some (.pbGet p.x p.y)
  | _ => none

/-- The request a selector and its ports stand for; none for every selector R87 reserves. -/
def decodeReq (sel : Byte) (p : Ports) : Option Instr :=
  if selOne sel then
    match selGroup sel with
    | 0 => decodeTransport (selIndex sel) p
    | 1 => decodeFramer (selIndex sel) p
    | 2 => decodeSynchroniser (selIndex sel)
    | 3 => decodeSequencer (selIndex sel) p
    | 4 => decodePixelBuffer (selIndex sel) p
    | _ => none
  else none

/-- The instruction a code stands for, or the name it is rejected under. -/
def decode : Code → Decoded
  | .req sel ports =>
    match decodeReq sel ports with
    | some i => .instr i
    | none => .rejected (.reservedSelector sel)
  | .cmd byte payload plane =>
    match Command.ofByte byte with
    | some c => .instr (Instr.ofCommand plane payload c)
    | none => .rejected (.unlistedCommand byte)

/-- The selector of a group and an index (R81). -/
def selector (grp idx : Nat) : Byte := 0x80 ||| BitVec.ofNat 8 (grp * 16) ||| BitVec.ofNat 8 idx

/-- The code of a command byte. Only DISP_UPDATE_2 has a plane to carry. -/
def encodeCommand (c : Command) (payload : Payload) (plane : Plane := .bw) : Code := .cmd c.value payload plane

/-- The code of an instruction: the selector of R86 with the operands on their ports, the other ports at their zero, or
the command byte of R85 with its payload. -/
def encode : Instr → Code
  | .setCommandMode => .req (selector 0 1) {}
  | .setDataMode => .req (selector 0 2) {}
  | .assertSelect => .req (selector 0 3) {}
  | .releaseSelect => .req (selector 0 4) {}
  | .write data => .req (selector 0 5) { data := data }
  | .pulseReset => .req (selector 0 6) {}
  | .readBusy => .req (selector 0 7) {}
  | .sendCommand opcode data => .req (selector 1 0) { opcode := opcode, data := data }
  | .sendData data => .req (selector 1 1) { data := data }
  | .waitIdle => .req (selector 2 0) {}
  | .init => .req (selector 3 0) {}
  | .writePlane plane => .req (selector 3 1) { plane := plane }
  | .refresh plane => .req (selector 3 2) { plane := plane }
  | .pbClear value => .req (selector 4 0) { value := value }
  | .pbSet x y bit => .req (selector 4 1) { x := x, y := y, bit := bit }
  | .pbGet x y => .req (selector 4 2) { x := x, y := y }
  | .softReset p => encodeCommand .softReset p
  | .driverCtrl p => encodeCommand .driverCtrl p
  | .dataEntryMode p => encodeCommand .dataEntryMode p
  | .setDummyPeriod p => encodeCommand .setDummyPeriod p
  | .setGateWidth p => encodeCommand .setGateWidth p
  | .setWaveCtrl p => encodeCommand .setWaveCtrl p
  | .ramXAddress p => encodeCommand .ramXAddress p
  | .ramYAddress p => encodeCommand .ramYAddress p
  | .setRamCounterX p => encodeCommand .setRamCounterX p
  | .setRamCounterY p => encodeCommand .setRamCounterY p
  | .setAnalogueCtrl p => encodeCommand .setAnalogueCtrl p
  | .setDigitalCtrl p => encodeCommand .setDigitalCtrl p
  | .writeRamBw p => encodeCommand .writeRamBw p
  | .writeRamRed p => encodeCommand .writeRamRed p
  | .dispUpdate1 p => encodeCommand .dispUpdate1 p
  | .dispUpdate2 plane p => encodeCommand .dispUpdate2 p plane
  | .masterActivation p => encodeCommand .masterActivation p

/-- The encoded byte of a code: the selector, or the command byte. -/
def Code.byte : Code → Byte
  | .req sel _ => sel
  | .cmd byte _ _ => byte

/-- The code of a word of opcode_table.json, its operands zero: bit 7 tells a selector from a command byte (30_encoding.md
R81), whose payload is then the documented one. Every row is one byte; bits above `nbits` are zero. -/
def tableCode (nbits w : Nat) : Code :=
  let b : Byte := BitVec.ofNat 8 (w % 2 ^ nbits)
  if selOne b then .req b {} else .cmd b .documented .bw

/-- The instruction the decoder reads from a table word. -/
def decodeTableWord (nbits w : Nat) : Option Instr :=
  match decode (tableCode nbits w) with
  | .instr i => some i
  | .rejected _ => none

/-- The Data/Command line's mode (10_state.md R21). -/
inductive DcMode where
  /-- C, command mode. -/
  | command
  /-- D, data mode. -/
  | data
  deriving DecidableEq, Repr

/-- What a byte on the wire is to the receiver: only the mode line tells (30_encoding.md R83). -/
inductive WireByte where
  | command (c : Command)
  | unlisted (byte : Byte)
  | payload (byte : Byte)
  deriving DecidableEq, Repr

/-- Reading a byte sent with the mode line in a given mode (R83, R85). -/
def readWire : DcMode → Byte → WireByte
  | .data, b => .payload b
  | .command, b =>
    match Command.ofByte b with
    | some c => .command c
    | none => .unlisted b

end Sys2Proof
end

