-- ==== Sys2Proof/Machine/State.lean ====
section
/-! DEFINITION. The machine's state (10_state.md), its faults and refusals, and the state after power-on reset (R36). -/

namespace Sys2Proof.Machine

/-- The Chip-Select latch: A asserted, R released (10_state.md R22). -/
inductive Select where
  | asserted
  | released
  deriving DecidableEq, Repr

/-- The refresh-cycle state (10_state.md R26, 42_sync.md R132). -/
inductive Cycle where
  | idle
  | planeLoaded
  | busy
  deriving DecidableEq, Repr

/-- The sub-causes of ConfigurationError (60_exceptions.md R201). -/
inductive ConfigurationCause where
  | zeroDimension
  | heightNotMultipleOf8
  | missingParameter
  deriving DecidableEq, Repr

/-- The sub-causes of HardwareTimeout with what they record (R203). -/
inductive TimeoutCause where
  | pollBoundExceeded (polls : Nat)
  | triggerWhileBusy
  deriving DecidableEq, Repr

/-- The sub-causes of TransportFailure with what they record (R204). -/
inductive TransportCause where
  | linkWrite (index : Nat)
  | dead
  deriving DecidableEq, Repr

/-- The four failure classes (60_exceptions.md R200). OutOfBounds has the one sub-cause COORDINATE and records the
offending coordinates (R202). -/
inductive Failure where
  | configurationError (cause : ConfigurationCause)
  | outOfBounds (x y : Int)
  | hardwareTimeout (cause : TimeoutCause)
  | transportFailure (cause : TransportCause)
  deriving DecidableEq, Repr

/-- STATUS: the outcome of the last operation that finished (10_state.md R27). -/
inductive Status where
  | ok
  | failed (f : Failure)
  deriving DecidableEq, Repr

/-- An event of the trace (00_scope.md R8). -/
inductive Event where
  | dc (m : DcMode)
  | cs (s : Select)
  | rst (level : Bit)
  | tx (byte : Byte)
  | busyq (value : Bit)
  deriving DecidableEq, Repr

/-- What the host does next: cut power, construct, or present a code (log 1, log 12). -/
inductive HostInput where
  | powerOn
  | construct (c : Construction)
  | issue (code : Code)
  deriving DecidableEq, Repr

/-- Which operation a suspended WAIT_IDLE belongs to (log 7). -/
inductive Resume where
  | waitIdle
  | init
  | refresh
  deriving DecidableEq, Repr

/-- The environment's side of the link and of the Busy line: the answers scripted in advance, and how many have been
given (10_state.md R24, R25; log 5, log 6). -/
structure Environment where
  linkReady : Bool
  busyIn : List Bit
  samples : Nat
  linkIn : List Bool
  sends : Nat
  deriving DecidableEq, Repr

/-- The whole machine. The first twelve fields are the spec's (10_state.md R20, R27, R30, R32, R35); `env` is the
environment; the last three are the model's own (log 1, log 16, log 7). -/
structure State where
  dc : DcMode
  cs : Select
  rst : Bit
  cycle : Cycle
  status : Status
  result : Bit
  dead : Bool
  ready : Bool
  polls : Nat
  config : Parameters
  buf : List Host.Cell
  trace : List Event
  env : Environment
  host : List HostInput
  stopAtFailure : Bool
  wait : Option Resume
  deriving DecidableEq, Repr

/-- Why the machine stops with a fault. -/
inductive Fault where
  /-- Raised by PB_SET and PB_GET when the index is not below BUFLEN: 20_memory.md R58 maps nothing else. Safe: the spec
  gives such an access no effect, and no state that construction reaches makes one (45_pixel_buffer.md R193). -/
  | noSuchIndex (index : Nat)
  deriving DecidableEq, Repr

/-- Why the machine refuses. -/
inductive Refusal where
  /-- Raised by `exec` for an instruction without a meaning. Safe: nothing can be proved of it. No arm uses it. -/
  | notModelled (mnemonic : String)
  /-- Raised by every instruction while READY is false (10_state.md R29: "No operation may be issued while it is false").
  Safe. -/
  | notReady
  /-- Raised by `step` for a selector that 30_encoding.md R87 reserves. Safe. -/
  | reservedSelector (sel : Byte)
  /-- Raised by `step` for a command row whose byte is outside R85 (log 20). Safe. -/
  | unlistedCommand (byte : Byte)
  /-- Raised by `step` for a construction when READY is already true (R231: "it runs once per power-on reset"). Safe. -/
  | alreadyConstructed
  /-- Raised by WRITE with `CS` = R, only when `refuseMisuse` is set (70_reset_and_hazards.md R244). Safe. -/
  | selectReleased
  /-- Raised by WRITE, SEND_COMMAND, SEND_DATA, the command rows and WRITE_PLANE while `CYCLE` = BUSY, only when
  `refuseMisuse` is set (R237, R238). Safe. -/
  | refreshInFlight
  /-- Raised by SEND_COMMAND with a byte outside the 17, only when `refuseMisuse` is set (30_encoding.md R88). Safe. -/
  | unlistedOpcode (byte : Byte)
  deriving DecidableEq, Repr

/-- How a run of steps inside one operation ends. -/
inductive Flow where
  /-- The operation finished. -/
  | done (s : State)
  /-- A failure was raised: STATUS holds it and every enclosing operation stops (60_exceptions.md R208). -/
  | raised (s : State)
  /-- An unbounded WAIT_IDLE stands at its `delay(T_POLL)` (42_sync.md R136, log 7). -/
  | waiting (s : State)
  deriving DecidableEq, Repr

/-- An outcome of a step. -/
abbrev Result := Host.Outcome State Fault Refusal

/-- The machine right after power-on reset (10_state.md R36). R36 gives DC, CS, RST, CYCLE, STATUS, DEAD, READY, POLLS, the
empty trace and the missing buffer; the other values are DESIGN CHOICE (log 1, 3, 4, 5, 6, 7, 16). -/
def State.reset : State where
  dc := .command
  cs := .released
  rst := true
  cycle := .idle
  status := .ok
  result := false
  dead := false
  ready := false
  polls := 0
  config := Parameters.unset
  buf := []
  trace := []
  env := { linkReady := true, busyIn := [], samples := 0, linkIn := [], sends := 0 }
  host := []
  stopAtFailure := true
  wait := none

end Sys2Proof.Machine
end

