-- ==== Sys2Proof/Machine/Ops.lean ====
section
/-! DEFINITION. The named operations over lines, link, Busy, buffer and trace (00_scope.md R7), raising a failure
(60_exceptions.md R208), and how steps follow one another. -/

namespace Sys2Proof.Machine

/-! ## The trace and the latches -/

/-- `emit(e)`: append an event to the trace (00_scope.md R7). -/
def State.emit (e : Event) (s : State) : State := { s with trace := s.trace ++ [e] }

/-- `DC <- m; emit(DC(m))`. A latch assignment cannot fail and is recorded even when nothing changes (R8, R108). -/
def State.assignDc (m : DcMode) (s : State) : State := State.emit (.dc m) { s with dc := m }

/-- `CS <- v; emit(CS(v))`. -/
def State.assignCs (v : Select) (s : State) : State := State.emit (.cs v) { s with cs := v }

/-- `RST <- l; emit(RST(l))`. -/
def State.assignRst (level : Bit) (s : State) : State := State.emit (.rst level) { s with rst := level }

/-- `STATUS <- OK`. -/
def State.setOk (s : State) : State := { s with status := .ok }

/-- `CYCLE <- c`. -/
def State.setCycle (c : Cycle) (s : State) : State := { s with cycle := c }

/-- `RESULT <- v`, the result port (10_state.md R27). -/
def State.setResult (v : Bit) (s : State) : State := { s with result := v }

/-- `POLLS <- n`. -/
def State.setPolls (n : Nat) (s : State) : State := { s with polls := n }

/-- `delay(D)`: "an untimed model treats it as a step that does nothing" (70_reset_and_hazards.md R250, log 11). -/
def State.delay (_duration : Nat) (s : State) : State := s

/-! ## Failures -/

/-- The state after `raise F(sub)`: STATUS holds the failure with what it records; nothing else is written, saved or
restored (60_exceptions.md R208). There is no return from it (R210). -/
def State.raised (f : Failure) (s : State) : State := { s with status := .failed f }

/-- `raise F(sub)`: the failure, and the stop of the operation and of every operation that called it (R208). -/
def State.raise (f : Failure) (s : State) : Flow := .raised (s.raised f)

/-- Performing one step after another: a raised failure or a suspended wait skips what follows (44_sequences.md R173). -/
def Flow.andThen (fl : Flow) (next : State → Flow) : Flow :=
  match fl with
  | .done s => next s
  | .raised s => .raised s
  | .waiting s => .waiting s

/-- The state in which a flow leaves the machine. -/
def Flow.final : Flow → State
  | .done s => s
  | .raised s => s
  | .waiting s => s

/-! ## The environment -/

/-- The value of the Busy line at the k-th sample from now: scripted, else free (10_state.md R24, log 5). -/
def Environment.busyAt (e : Environment) (k : Nat) : Bit :=
  match e.busyIn[k]? with
  | some v => v
  | none => Config.busySample (e.samples + k)

/-- The environment after n more Busy samples. -/
def Environment.sampled (e : Environment) (n : Nat) : Environment :=
  { e with busyIn := e.busyIn.drop n, samples := e.samples + n }

/-- The link's answer to the k-th byte from now: `fail` whenever LINK_READY is false, else scripted, else free
(10_state.md R25, log 6). -/
def Environment.linkAt (e : Environment) (k : Nat) : Bool :=
  e.linkReady &&
    match e.linkIn[k]? with
    | some ok => ok
    | none => Config.linkAnswer (e.sends + k)

/-- The environment after n more bytes handed to the link. -/
def Environment.sent (e : Environment) (n : Nat) : Environment :=
  { e with linkIn := e.linkIn.drop n, sends := e.sends + n }

/-- `v <- sample_busy()`, the value (R24). -/
def State.busyNow (s : State) : Bit := s.env.busyAt 0

/-- The state after one sample with its event `BUSYQ(v)`. A sample has no other effect (20_memory.md R57). -/
def State.sampleBusy (s : State) : State :=
  State.emit (.busyq s.busyNow) { s with env := s.env.sampled 1 }

/-- One `link_tx(b)` at position `index` of a WRITE: the byte is accepted and recorded, or refused, which latches DEAD and
raises LINK_WRITE with the index (40_transport.md R104, R109; 60_exceptions.md R204). -/
def State.transmit (index : Nat) (b : Byte) (s : State) : Flow :=
  let t := { s with env := s.env.sent 1 }
  if s.env.linkAt 0 then .done (t.emit (.tx b))
  else State.raise (.transportFailure (.linkWrite index)) { t with dead := true }

/-! ## The pixel buffer as memory

A list of (index, byte) pairs, indices strictly rising, no byte equal to 0x00, which is what an unlisted index reads as:
construction creates the buffer "all 0x00" (10_state.md R32, 70_reset_and_hazards.md R231; log 10). -/

/-- What an index that is not listed reads as. -/
def Memory.unlisted : Byte := 0

/-- The byte at an index. -/
def Memory.read : List Host.Cell → Nat → Byte
  | [], _ => Memory.unlisted
  | (i, b) :: rest, a => if i = a then b else Memory.read rest a

/-- Writing one byte, keeping the canonical form. -/
def Memory.write (a : Nat) (v : Byte) : List Host.Cell → List Host.Cell
  | [] => if v = Memory.unlisted then [] else [(a, v)]
  | (i, b) :: rest =>
    if a < i then (if v = Memory.unlisted then (i, b) :: rest else (a, v) :: (i, b) :: rest)
    else if a = i then (if v = Memory.unlisted then rest else (a, v) :: rest)
    else (i, b) :: Memory.write a v rest

/-- Writing the same byte to the indices 0 to n-1 (45_pixel_buffer.md R190's loop). -/
def Memory.fill : Nat → Byte → List Host.Cell → List Host.Cell
  | 0, _, m => m
  | n + 1, v, m => Memory.write n v (Memory.fill n v m)

/-- The bytes at the indices 0 to n-1, in order. -/
def Memory.bytes (n : Nat) (m : List Host.Cell) : List Byte := (List.range n).map (Memory.read m)

/-- The canonical form: indices strictly rising from at least `low`, no listed byte at the unlisted value. -/
def Memory.wfFrom : Nat → List Host.Cell → Bool
  | _, [] => true
  | low, (i, b) :: rest => decide (low ≤ i) && decide (b ≠ Memory.unlisted) && Memory.wfFrom (i + 1) rest

/-- The canonical form of a memory. -/
def Memory.wf (m : List Host.Cell) : Bool := Memory.wfFrom 0 m

/-- Every listed index is below n. -/
def Memory.within (n : Nat) (m : List Host.Cell) : Bool := m.all fun c => decide (c.1 < n)

/-- `MemRead(i, 1)`: `BUF[i]`, or nothing where no such index exists (20_memory.md R58). -/
def State.bufRead (i : Nat) (s : State) : Option Byte :=
  if i < s.config.bufLen then some (Memory.read s.buf i) else none

/-- `MemWrite(i, 1, v)`. -/
def State.bufWrite (i : Nat) (v : Byte) (s : State) : State := { s with buf := Memory.write i v s.buf }

/-- The whole of `BUF`, in index order (44_sequences.md R171). -/
def State.bufBytes (s : State) : List Byte := Memory.bytes s.config.bufLen s.buf

end Sys2Proof.Machine
end

