-- ==== Sys2Proof/Machine/Operands.lean ====
section
/-! DEFINITION. How operands become what an operation works on: the plane's command byte, payloads, pixel addresses, the
windows of a chunked plane write, and limits. -/

namespace Sys2Proof.Machine

/-- A pixel's place: byte index and bit inside the byte (20_memory.md R51). -/
structure PixelPlace where
  index : Nat
  bit : Nat
  deriving DecidableEq, Repr

/-- The address computation of 45_pixel_buffer.md R193, shared by PB_SET and PB_GET; none is out of bounds. -/
def pixelPlace (c : Parameters) (x y : Int) : Option PixelPlace :=
  if x < 0 ∨ (c.width : Int) ≤ x ∨ y < 0 ∨ (c.height : Int) ≤ y then none
  else some { index := (y.toNat / 8) * c.width + x.toNat, bit := y.toNat % 8 }

/-- `(old & ~(1 << k)) | (bit << k)` on 8 bits (R191). -/
def withPixel (old : Byte) (k : Nat) (bit : Bit) : Byte :=
  (old &&& ~~~((1 : Byte) <<< k)) ||| (Bit.toByte bit <<< k)

/-- `(byte >> k) & 1` (R192). -/
def pixelOf (byte : Byte) (k : Nat) : Bit := byte.getLsbD k

/-- The command that loads a plane: 0x24 for BW, 0x26 for RED (30_encoding.md R82, 44_sequences.md R171). -/
def planeCommand : Plane → Command
  | .bw => .writeRamBw
  | .red => .writeRamRed

/-- `TRIGGER_PAYLOAD(plane)` (00_scope.md R5, 43_commands.md R155). -/
def triggerPayload (c : Parameters) : Plane → List Byte
  | .bw => c.triggerBw
  | .red => c.triggerRed

/-- Whether a count has reached a limit; INF is never reached (42_sync.md R130). -/
def boundReached (b : Bound) (n : Nat) : Bool :=
  match b with
  | .count k _ => n == k
  | .inf => false

/-- How many Busy samples one step may take for a WAIT_IDLE: POLL_BOUND of them, or, with no bound, one, after which the
wait stands suspended at its `delay(T_POLL)`, the source's "only suspension point" (42_sync.md R136, log 7). -/
def pollBudget (c : Parameters) : Nat :=
  match c.pollBound with
  | .count k _ => k
  | .inf => 1

/-- The data windows of the chunked form: `BUF[j .. min(j+k, BUFLEN) - 1]` for j = 0, k, 2k, ... below BUFLEN, which are
`ceil(BUFLEN / k)` windows (44_sequences.md R175). -/
def windows (k : Nat) (bytes : List Byte) : List (List Byte) :=
  (List.range ((bytes.length + k - 1) / k)).map fun t => (bytes.drop (t * k)).take k

/-- The window size when a plane write is chunked; none is the bulk form (44_sequences.md R171: "CHUNK = INF or
BUFLEN <= CHUNK"). -/
def chunkSize (c : Parameters) : Option Nat :=
  match c.chunk with
  | .inf => none
  | .count k _ => if c.bufLen ≤ k then none else some k

/-- The seven required parameters, or the failure construction raises: a missing one, then a zero dimension, then a height
that is no multiple of 8 (70_reset_and_hazards.md R231, in that order). PAGES and BUFLEN are derived exactly. -/
def checkConstruction (c : Construction) : Except ConfigurationCause Parameters :=
  match c.link, c.pinDc, c.pinCs, c.pinRst, c.pinBusy, c.width, c.height with
  | some link, some pinDc, some pinCs, some pinRst, some pinBusy, some width, some height =>
    if width = 0 ∨ height = 0 then .error .zeroDimension
    else if height % 8 ≠ 0 then .error .heightNotMultipleOf8
    else .ok { toOptions := c.toOptions, link, pinDc, pinCs, pinRst, pinBusy, width, height,
               pages := height / 8, bufLen := height / 8 * width }
  | _, _, _, _, _, _, _ => .error .missingParameter

end Sys2Proof.Machine
end

