-- ==== Sys2Proof/WellFormed.lean ====
section
/-! DEFINITION. Which instructions stay inside the source. Every operand of R82 is exact by its type (a byte, a bit, a
plane, an integer, a byte sequence of any length, R89), so one check is left: the command byte of SEND_COMMAND (R88). -/

namespace Sys2Proof

/-- Inside the source (30_encoding.md R88): SEND_COMMAND names one of the 17 command bytes. The block itself performs
SEND_COMMAND with any byte; this check is used only where `refuseMisuse` is set (log 8, log 20). -/
def Instr.wellFormed : Instr → Bool
  | .setCommandMode => true
  | .setDataMode => true
  | .assertSelect => true
  | .releaseSelect => true
  | .write _ => true
  | .pulseReset => true
  | .readBusy => true
  | .sendCommand opcode _ => opcodeListed opcode
  | .sendData _ => true
  | .waitIdle => true
  | .init => true
  | .writePlane _ => true
  | .refresh _ => true
  | .pbClear _ => true
  | .pbSet _ _ _ => true
  | .pbGet _ _ => true
  | .softReset _ => true
  | .driverCtrl _ => true
  | .dataEntryMode _ => true
  | .setDummyPeriod _ => true
  | .setGateWidth _ => true
  | .setWaveCtrl _ => true
  | .ramXAddress _ => true
  | .ramYAddress _ => true
  | .setRamCounterX _ => true
  | .setRamCounterY _ => true
  | .setAnalogueCtrl _ => true
  | .setDigitalCtrl _ => true
  | .writeRamBw _ => true
  | .writeRamRed _ => true
  | .dispUpdate1 _ => true
  | .dispUpdate2 _ _ => true
  | .masterActivation _ => true

end Sys2Proof
end

