-- ==== Sys2Proof/Machine/Flags.lean ====
section
/-! DEFINITION. The internal control elements: the codes of STATUS (60_exceptions.md R205), the transitions of CYCLE
(42_sync.md R132), and the checks every operation makes at entry (R209). -/

namespace Sys2Proof.Machine

/-- The sub-cause codes of ConfigurationError (R205). -/
def ConfigurationCause.code : ConfigurationCause → Nat
  | .zeroDimension => 1
  | .heightNotMultipleOf8 => 2
  | .missingParameter => 3

/-- The class code of a failure (R205). -/
def Failure.classCode : Failure → Nat
  | .configurationError _ => 1
  | .outOfBounds _ _ => 2
  | .hardwareTimeout _ => 3
  | .transportFailure _ => 4

/-- The sub-cause code of a failure (R205). -/
def Failure.subCode : Failure → Nat
  | .configurationError cause => cause.code
  | .outOfBounds _ _ => 1
  | .hardwareTimeout (.pollBoundExceeded _) => 1
  | .hardwareTimeout .triggerWhileBusy => 2
  | .transportFailure (.linkWrite _) => 1
  | .transportFailure .dead => 2

/-- The code of STATUS: class and sub-cause, 0 and none for OK (R205). -/
def Status.code : Status → Nat × Option Nat
  | .ok => (0, none)
  | .failed f => (f.classCode, some f.subCode)

/-- CYCLE after a plane write that succeeded (R132, R171: only IDLE moves). -/
def Cycle.afterPlaneWrite : Cycle → Cycle
  | .idle => .planeLoaded
  | .planeLoaded => .planeLoaded
  | .busy => .busy

/-- CYCLE after a Busy sample that read 0, in a WAIT_IDLE or in the pre-check of REFRESH (R132: only BUSY moves). -/
def Cycle.afterIdleSample : Cycle → Cycle
  | .idle => .idle
  | .planeLoaded => .planeLoaded
  | .busy => .idle

/-- The DEAD check at the entry of every operation of the transport, framer, synchroniser and sequencer groups (10_state.md
R28): "fails at once with TransportFailure sub-cause DEAD and does nothing else". -/
def State.unlessDead (op : State → Flow) (s : State) : Flow :=
  if s.dead then s.raise (.transportFailure .dead) else op s

/-- The misuse for which the model refuses a request: none unless `refuseMisuse` is set, and none while DEAD, since the
operation then does nothing (log 8, log 13). -/
def State.refusalFor (misuse : Option Refusal) (s : State) : Option Refusal :=
  if s.config.refuseMisuse && !s.dead then misuse else none

/-- A host's request that reaches the lines, the link or Busy, with the entry checks in the order of R209: READY (refused),
DEAD (TransportFailure), then the steps. -/
def busRequest (misuse : Option Refusal) (op : State → Flow) (s : State) : Result :=
  if s.ready then
    match s.refusalFor misuse with
    | some r => .refused r
    | none => .next (s.unlessDead op).final
  else .refused .notReady

/-- A host's request to the pixel buffer: READY is checked, DEAD is not (45_pixel_buffer.md, 10_state.md R28). -/
def bufferRequest (op : State → Result) (s : State) : Result :=
  if s.ready then op s else .refused .notReady

/-- Sending anything while a refresh is in flight (70_reset_and_hazards.md R237, R238). -/
def sendMisuse (s : State) : Option Refusal :=
  if s.cycle = .busy then some .refreshInFlight else none

/-- The misuse of WRITE: Select is released (R244), or a refresh is in flight (R237). -/
def writeMisuse (s : State) : Option Refusal :=
  if s.cs = .released then some .selectReleased else sendMisuse s

/-- The misuse of SEND_COMMAND: a byte outside the source (30_encoding.md R88), or a refresh in flight (R237). -/
def commandMisuse (opcode : Byte) (data : List Byte) (s : State) : Option Refusal :=
  if (Instr.sendCommand opcode data).wellFormed then sendMisuse s else some (.unlistedOpcode opcode)

end Sys2Proof.Machine
end

