-- ==== Sys2Proof/Machine/Transport.lean ====
section
/-! DEFINITION. The Bus Transport (40_transport.md): seven operations. The op… definitions are the pseudocode, which the
framer and the sequencers call; the exec… definitions are the host's requests. -/

namespace Sys2Proof.Machine

/-- The byte loop of WRITE from position `index` on (R104), ascending (20_memory.md R52), up to the first refused byte. -/
def transmitFrom : Nat → List Byte → State → Flow
  | _, [], s => .done s
  | index, b :: rest, s => (s.transmit index b).andThen (transmitFrom (index + 1) rest)

/-- WRITE (R104): the bytes, then OK. It assigns no latch (90_conflicts.md C8). -/
def opWrite (data : List Byte) (s : State) : Flow :=
  (transmitFrom 0 data s).andThen fun s => .done s.setOk

/-- PULSE_RESET (R105). DEAD is not cleared, DC and CS are not touched. -/
def opPulseReset (s : State) : Flow :=
  let s := (s.assignRst false).delay s.config.tResetLow
  let s := (s.assignRst true).delay s.config.tResetSettle
  .done (s.setCycle .idle).setOk

/-- R100. -/
def execSetCommandMode (s : State) : Result :=
  busRequest none (fun s => .done (s.assignDc .command).setOk) s

/-- R101. -/
def execSetDataMode (s : State) : Result :=
  busRequest none (fun s => .done (s.assignDc .data).setOk) s

/-- R102. -/
def execAssertSelect (s : State) : Result :=
  busRequest none (fun s => .done (s.assignCs .asserted).setOk) s

/-- R103. -/
def execReleaseSelect (s : State) : Result :=
  busRequest none (fun s => .done (s.assignCs .released).setOk) s

/-- R104. Issued with Select released the block clocks the bytes out all the same (93_implementation_defined.md U23); with
`refuseMisuse` the model refuses (R244). -/
def execWrite (data : List Byte) (s : State) : Result :=
  busRequest (writeMisuse s) (opWrite data) s

/-- R105. -/
def execPulseReset (s : State) : Result :=
  busRequest none opPulseReset s

/-- R106: one sample, returned on RESULT. CYCLE and POLLS are unchanged. -/
def execReadBusy (s : State) : Result :=
  busRequest none (fun s => .done (s.sampleBusy.setResult s.busyNow).setOk) s

end Sys2Proof.Machine
end

