-- ==== Sys2Proof/Machine/Framer.lean ====
section
/-! DEFINITION. The Command/Data Framer (41_framer.md): the mode is set before Select is asserted (R123, 90_conflicts.md
C1) and a frame with data has two Select windows (R124, 90_conflicts.md C2). -/

namespace Sys2Proof.Machine

/-- One Select window: the mode, Select asserted, the bytes, Select released (R123). A refused byte leaves Select asserted
(40_transport.md R109). -/
def opWindow (m : DcMode) (bytes : List Byte) (s : State) : Flow :=
  (opWrite bytes ((s.assignDc m).assignCs .asserted)).andThen fun s => .done (s.assignCs .released)

/-- SEND_DATA (R121): a data window, then command mode again, also when there is no byte. -/
def opSendData (data : List Byte) (s : State) : Flow :=
  (opWindow .data data s).andThen fun s => .done (s.assignDc .command).setOk

/-- SEND_COMMAND (R120): the command window, then the data phase if and only if there are data bytes (R122). -/
def opSendCommand (opcode : Byte) (data : List Byte) (s : State) : Flow :=
  (opWindow .command [opcode] s).andThen fun s =>
    (if data.isEmpty then Flow.done s else opSendData data s).andThen fun s => .done s.setOk

/-- R120. The framer sends any byte (30_encoding.md R88) and does not look at Busy or CYCLE (70_reset_and_hazards.md
R237). -/
def execSendCommand (opcode : Byte) (data : List Byte) (s : State) : Result :=
  busRequest (commandMisuse opcode data s) (opSendCommand opcode data) s

/-- R121. -/
def execSendData (data : List Byte) (s : State) : Result :=
  busRequest (sendMisuse s) (opSendData data) s

end Sys2Proof.Machine
end

