-- ==== Sys2Proof/Machine/Synchroniser.lean ====
section
/-! DEFINITION. The busy-wait synchroniser (42_sync.md R130, R131). -/

namespace Sys2Proof.Machine

/-- The poll loop of R130. `budget` is how many samples this step may still take: POLL_BOUND stops the loop before the
budget of a bounded wait does, so only an unbounded wait is left `waiting` (log 7). -/
def pollLoop : Nat → State → Flow
  | 0, s =>
    if boundReached s.config.pollBound s.polls then
      s.raise (.hardwareTimeout (.pollBoundExceeded s.polls))
    else .waiting s
  | budget + 1, s =>
    if boundReached s.config.pollBound s.polls then
      s.raise (.hardwareTimeout (.pollBoundExceeded s.polls))
    else
      let t := s.sampleBusy.setPolls (s.polls + 1)
      if s.busyNow then pollLoop budget (t.delay t.config.tPoll)
      else .done (t.setCycle t.cycle.afterIdleSample).setOk

/-- Polling on behalf of an operation; an unbounded wait that this step does not end is left suspended for it. -/
def opPoll (k : Resume) (s : State) : Flow :=
  match pollLoop (pollBudget s.config) s with
  | .waiting t => .waiting { t with wait := some k }
  | fl => fl

/-- WAIT_IDLE (R130) on behalf of an operation: POLLS starts at 0. -/
def opWaitIdle (k : Resume) (s : State) : Flow := opPoll k (s.setPolls 0)

/-- R130. -/
def execWaitIdle (s : State) : Result :=
  busRequest none (opWaitIdle .waitIdle) s

end Sys2Proof.Machine
end

