-- ==== Sys2Proof/Machine/Sequencer.lean ====
section
/-! DEFINITION. The sequencer layer (44_sequences.md): INIT, WRITE_PLANE, REFRESH. Each stops at its first failure
(R173). -/

namespace Sys2Proof.Machine

/-- Sending commands one after another. -/
def sendScript : List (Command × List Byte) → State → Flow
  | [], s => .done s
  | (c, data) :: rest, s => (opSendCommand c.value data s).andThen (sendScript rest)

/-- Steps 2 to 5 of the initialization script (R170), with the two payloads the source gives (43_commands.md R150,
R151) and no other (R157). -/
def initScript : List (Command × List Byte) :=
  [(.setAnalogueCtrl, [0x54]), (.setDigitalCtrl, [0x3B]),
   (.driverCtrl, []),
   (.setDummyPeriod, []), (.setGateWidth, []), (.setWaveCtrl, []),
   (.ramXAddress, []), (.ramYAddress, []), (.setRamCounterX, []), (.setRamCounterY, [])]

/-- INIT from the end of its WAIT_IDLE on: CYCLE is IDLE, then steps 2 to 5 (R170). -/
def initAfterWait (s : State) : Flow :=
  (sendScript initScript (s.setCycle .idle)).andThen fun s => .done s.setOk

/-- INIT (R170). -/
def opInit (s : State) : Flow :=
  (opSendCommand Command.softReset.value [] s).andThen fun s =>
    (opWaitIdle .init s).andThen initAfterWait

/-- The data windows of the chunked form (R175). -/
def sendWindows : List (List Byte) → State → Flow
  | [], s => .done s
  | w :: rest, s => (opSendData w s).andThen (sendWindows rest)

/-- A plane's command with the whole of BUF, bulk or chunked by CHUNK (R171, R175). -/
def opSendPlane (c : Command) (s : State) : Flow :=
  match chunkSize s.config with
  | none => opSendCommand c.value s.bufBytes s
  | some k => (opSendCommand c.value [] s).andThen (sendWindows (windows k s.bufBytes))

/-- WRITE_PLANE (R171). Issued while CYCLE = BUSY the block performs the transfer and CYCLE stays BUSY (log 15). -/
def opWritePlane (plane : Plane) (s : State) : Flow :=
  (opSendPlane (planeCommand plane) s).andThen fun s => .done (s.setCycle s.cycle.afterPlaneWrite).setOk

/-- REFRESH after its pre-check read 0 (R172): DISP_UPDATE_2, MASTER_ACTIVATION, CYCLE BUSY, then the wait. -/
def opTrigger (plane : Plane) (s : State) : Flow :=
  (opSendCommand Command.dispUpdate2.value (triggerPayload s.config plane) s).andThen fun s =>
    (opSendCommand Command.masterActivation.value [] s).andThen fun s =>
      (opWaitIdle .refresh (s.setCycle .busy)).andThen fun s => .done s.setOk

/-- REFRESH (R172): one Busy sample first; a 1 rejects the trigger and nothing is sent (42_sync.md R133). -/
def opRefresh (plane : Plane) (s : State) : Flow :=
  let t := s.sampleBusy
  if s.busyNow then t.raise (.hardwareTimeout .triggerWhileBusy)
  else opTrigger plane (t.setCycle t.cycle.afterIdleSample)

/-- What an operation does after a wait of its own that was suspended (R130, R170, R172; log 7). -/
def afterWait : Resume → State → Flow
  | .waitIdle, s => .done s
  | .init, s => initAfterWait s
  | .refresh, s => .done s.setOk

/-- Going on with a suspended wait: the next samples, then the rest of its operation. -/
def opResume (k : Resume) (s : State) : Flow :=
  (opPoll k { s with wait := none }).andThen (afterWait k)

/-- R170. -/
def execInit (s : State) : Result :=
  busRequest none opInit s

/-- R171. With `refuseMisuse` it is refused while CYCLE = BUSY (70_reset_and_hazards.md R238). -/
def execWritePlane (plane : Plane) (s : State) : Result :=
  busRequest (sendMisuse s) (opWritePlane plane) s

/-- R172. -/
def execRefresh (plane : Plane) (s : State) : Result :=
  busRequest none (opRefresh plane) s

end Sys2Proof.Machine
end

