-- ==== Sys2Proof/Machine/Commands.lean ====
section
/-! DEFINITION. The 17 command bytes (43_commands.md). Issuing one is `SEND_COMMAND value, payload` and "the trace of that
operation is the whole effect on the block" (R157): CYCLE, POLLS and Busy are left alone. -/

namespace Sys2Proof.Machine

/-- Issuing a command byte with its documented payload: the fixed byte of R150 and R151, the whole of BUF for the plane
loads (R152, R153), `TRIGGER_PAYLOAD` for DISP_UPDATE_2 (R155), and for every other command none (R157). -/
def opDocumented (plane : Plane) (c : Command) (s : State) : Flow :=
  match c with
  | .setAnalogueCtrl => opSendCommand c.value [0x54] s
  | .setDigitalCtrl => opSendCommand c.value [0x3B] s
  | .writeRamBw => opSendPlane c s
  | .writeRamRed => opSendPlane c s
  | .dispUpdate2 => opSendCommand c.value (triggerPayload s.config plane) s
  | .softReset | .driverCtrl | .dataEntryMode | .setDummyPeriod | .setGateWidth | .setWaveCtrl
  | .ramXAddress | .ramYAddress | .setRamCounterX | .setRamCounterY | .dispUpdate1 | .masterActivation =>
    opSendCommand c.value [] s

/-- Issuing a command byte (R157), with its documented payload or with the host's. -/
def opCommand (plane : Plane) (c : Command) (payload : Payload) (s : State) : Flow :=
  match payload with
  | .documented => opDocumented plane c s
  | .given data => opSendCommand c.value data s

/-- A command row issued by the host, with the misuse check of a host's SEND_COMMAND (70_reset_and_hazards.md R237). -/
def commandRequest (plane : Plane) (c : Command) (payload : Payload) (s : State) : Result :=
  busRequest (sendMisuse s) (opCommand plane c payload) s

/-- SOFT_RESET (R140): no payload; INIT, not this, waits for Busy afterwards. -/
def execSoftReset (payload : Payload) (s : State) : Result :=
  commandRequest .bw .softReset payload s

/-- DRIVER_CTRL (R141): no payload, the missing 3-byte gate count is not invented. -/
def execDriverCtrl (payload : Payload) (s : State) : Result :=
  commandRequest .bw .driverCtrl payload s

/-- DATA_ENTRY_MODE (R142): no documented payload, no documented sequence. -/
def execDataEntryMode (payload : Payload) (s : State) : Result :=
  commandRequest .bw .dataEntryMode payload s

/-- SET_DUMMY_PERIOD (R143): no payload. -/
def execSetDummyPeriod (payload : Payload) (s : State) : Result :=
  commandRequest .bw .setDummyPeriod payload s

/-- SET_GATE_WIDTH (R144): no payload. -/
def execSetGateWidth (payload : Payload) (s : State) : Result :=
  commandRequest .bw .setGateWidth payload s

/-- SET_WAVE_CTRL (R145): no payload. -/
def execSetWaveCtrl (payload : Payload) (s : State) : Result :=
  commandRequest .bw .setWaveCtrl payload s

/-- RAM_X_ADDRESS (R146): no payload, nothing derived from WIDTH or HEIGHT. -/
def execRamXAddress (payload : Payload) (s : State) : Result :=
  commandRequest .bw .ramXAddress payload s

/-- RAM_Y_ADDRESS (R147): no payload. -/
def execRamYAddress (payload : Payload) (s : State) : Result :=
  commandRequest .bw .ramYAddress payload s

/-- SET_RAM_COUNTER_X (R148): no payload. -/
def execSetRamCounterX (payload : Payload) (s : State) : Result :=
  commandRequest .bw .setRamCounterX payload s

/-- SET_RAM_COUNTER_Y (R149): no payload. -/
def execSetRamCounterY (payload : Payload) (s : State) : Result :=
  commandRequest .bw .setRamCounterY payload s

/-- SET_ANALOGUE_CTRL (R150): payload 0x54. -/
def execSetAnalogueCtrl (payload : Payload) (s : State) : Result :=
  commandRequest .bw .setAnalogueCtrl payload s

/-- SET_DIGITAL_CTRL (R151): payload 0x3B. -/
def execSetDigitalCtrl (payload : Payload) (s : State) : Result :=
  commandRequest .bw .setDigitalCtrl payload s

/-- WRITE_RAM_BW (R152): payload the whole of BUF, split by CHUNK. -/
def execWriteRamBw (payload : Payload) (s : State) : Result :=
  commandRequest .bw .writeRamBw payload s

/-- WRITE_RAM_RED (R153): payload the whole of BUF, split by CHUNK. -/
def execWriteRamRed (payload : Payload) (s : State) : Result :=
  commandRequest .bw .writeRamRed payload s

/-- DISP_UPDATE_1 (R154): no documented payload, no documented sequence. -/
def execDispUpdate1 (payload : Payload) (s : State) : Result :=
  commandRequest .bw .dispUpdate1 payload s

/-- DISP_UPDATE_2 (R155): payload TRIGGER_PAYLOAD(plane). -/
def execDispUpdate2 (plane : Plane) (payload : Payload) (s : State) : Result :=
  commandRequest plane .dispUpdate2 payload s

/-- MASTER_ACTIVATION (R156): no payload; CYCLE is left stale, as 70_reset_and_hazards.md R237 says. -/
def execMasterActivation (payload : Payload) (s : State) : Result :=
  commandRequest .bw .masterActivation payload s

end Sys2Proof.Machine
end

