-- ==== Sys2Proof/Machine/PixelBuffer.lean ====
section
/-! DEFINITION. The pixel buffer operations (45_pixel_buffer.md). They touch neither lines nor link, append nothing to the
trace and are not blocked by DEAD. -/

namespace Sys2Proof.Machine

/-- PB_CLEAR: every byte of BUF becomes `value` (R190). -/
def opPbClear (value : Byte) (s : State) : Result :=
  .next { s with buf := Memory.fill s.config.bufLen value s.buf }.setOk

/-- PB_SET: one bit of one byte (R191), or OutOfBounds with the coordinates recorded (R193, R202). -/
def opPbSet (x y : Int) (bit : Bit) (s : State) : Result :=
  match pixelPlace s.config x y with
  | none => .next (s.raise (.outOfBounds x y)).final
  | some p =>
    match s.bufRead p.index with
    | none => .fault (.noSuchIndex p.index)
    | some old => .next (s.bufWrite p.index (withPixel old p.bit bit)).setOk

/-- PB_GET: one bit of one byte, returned on RESULT (R192), or OutOfBounds. -/
def opPbGet (x y : Int) (s : State) : Result :=
  match pixelPlace s.config x y with
  | none => .next (s.raise (.outOfBounds x y)).final
  | some p =>
    match s.bufRead p.index with
    | none => .fault (.noSuchIndex p.index)
    | some byte => .next (s.setResult (pixelOf byte p.bit)).setOk

/-- R190. -/
def execPbClear (value : Byte) (s : State) : Result :=
  bufferRequest (opPbClear value) s

/-- R191. -/
def execPbSet (x y : Int) (bit : Bit) (s : State) : Result :=
  bufferRequest (opPbSet x y bit) s

/-- R192. -/
def execPbGet (x y : Int) (s : State) : Result :=
  bufferRequest (opPbGet x y) s

end Sys2Proof.Machine
end

