-- ==== Sys2Proof/Machine/Dispatch.lean ====
section
/-! DEFINITION. One arm per constructor of Instr. -/

namespace Sys2Proof.Machine

def exec (i : Instr) (s : State) : Host.Outcome State Fault Refusal :=
  match i with
  | .setCommandMode => Sys2Proof.Machine.execSetCommandMode s
  | .setDataMode => Sys2Proof.Machine.execSetDataMode s
  | .assertSelect => Sys2Proof.Machine.execAssertSelect s
  | .releaseSelect => Sys2Proof.Machine.execReleaseSelect s
  | .write data => Sys2Proof.Machine.execWrite data s
  | .pulseReset => Sys2Proof.Machine.execPulseReset s
  | .readBusy => Sys2Proof.Machine.execReadBusy s
  | .sendCommand opcode data => Sys2Proof.Machine.execSendCommand opcode data s
  | .sendData data => Sys2Proof.Machine.execSendData data s
  | .waitIdle => Sys2Proof.Machine.execWaitIdle s
  | .init => Sys2Proof.Machine.execInit s
  | .writePlane plane => Sys2Proof.Machine.execWritePlane plane s
  | .refresh plane => Sys2Proof.Machine.execRefresh plane s
  | .pbClear value => Sys2Proof.Machine.execPbClear value s
  | .pbSet x y bit => Sys2Proof.Machine.execPbSet x y bit s
  | .pbGet x y => Sys2Proof.Machine.execPbGet x y s
  | .softReset payload => Sys2Proof.Machine.execSoftReset payload s
  | .driverCtrl payload => Sys2Proof.Machine.execDriverCtrl payload s
  | .dataEntryMode payload => Sys2Proof.Machine.execDataEntryMode payload s
  | .setDummyPeriod payload => Sys2Proof.Machine.execSetDummyPeriod payload s
  | .setGateWidth payload => Sys2Proof.Machine.execSetGateWidth payload s
  | .setWaveCtrl payload => Sys2Proof.Machine.execSetWaveCtrl payload s
  | .ramXAddress payload => Sys2Proof.Machine.execRamXAddress payload s
  | .ramYAddress payload => Sys2Proof.Machine.execRamYAddress payload s
  | .setRamCounterX payload => Sys2Proof.Machine.execSetRamCounterX payload s
  | .setRamCounterY payload => Sys2Proof.Machine.execSetRamCounterY payload s
  | .setAnalogueCtrl payload => Sys2Proof.Machine.execSetAnalogueCtrl payload s
  | .setDigitalCtrl payload => Sys2Proof.Machine.execSetDigitalCtrl payload s
  | .writeRamBw payload => Sys2Proof.Machine.execWriteRamBw payload s
  | .writeRamRed payload => Sys2Proof.Machine.execWriteRamRed payload s
  | .dispUpdate1 payload => Sys2Proof.Machine.execDispUpdate1 payload s
  | .dispUpdate2 plane payload => Sys2Proof.Machine.execDispUpdate2 plane payload s
  | .masterActivation payload => Sys2Proof.Machine.execMasterActivation payload s

end Sys2Proof.Machine
end

