-- ==== Sys2Proof/Machine/Construction.lean ====
section
/-! DEFINITION. Construction, the boot procedure (70_reset_and_hazards.md R231), and power-on reset (R230). Neither is a
request (30_encoding.md R86); the host causes both (log 12). -/

namespace Sys2Proof.Machine

/-- Writing the configuration registers, creating BUF with every byte 0x00, READY true (R231). -/
def State.install (p : Parameters) (s : State) : State :=
  { s with config := p, buf := [], ready := true }

/-- The steps of construction after its checks (R231). -/
def opConstruct (p : Parameters) (s : State) : Flow :=
  let s := s.install p
  (if p.constructPulsesReset then s.unlessDead opPulseReset else Flow.done s).andThen fun s =>
    (s.unlessDead opInit).andThen fun s => .done s.setOk

/-- Construction (R231). A ConfigurationError changes nothing but STATUS (60_exceptions.md R201). It "runs once per
power-on reset": with READY true the model refuses. -/
def construct (c : Construction) (s : State) : Result :=
  if s.ready then .refused .alreadyConstructed
  else
    match checkConstruction c with
    | .error cause => .next (s.raise (.configurationError cause)).final
    | .ok p => .next (opConstruct p s).final

/-- Power-on reset of the block (R230): every element at its reset value, and with it DEAD and READY, which nothing else
clears. The environment and the host are not the block's. -/
def powerOn (s : State) : State :=
  { State.reset with env := s.env, host := s.host, stopAtFailure := s.stopAtFailure }

end Sys2Proof.Machine
end

