-- ==== Sys2Proof/Machine/Fetch.lean ====
section
/-! DEFINITION. The host's side of a step: what it issues next, and what it does after a failure. The block fetches
nothing itself (10_state.md R31); the host presents one input at a time (log 1). -/

namespace Sys2Proof.Machine

/-- The host with other inputs left to issue. -/
def State.withHost (rest : List HostInput) (s : State) : State := { s with host := rest }

/-- The host after an operation has finished: it stops at the first failure unless its program says otherwise
(30_encoding.md R92, log 16). While a wait stands suspended no operation has finished. -/
def hostReacts (s : State) : State :=
  match s.stopAtFailure, s.wait, s.status with
  | true, none, .failed _ => s.withHost []
  | _, _, _ => s

/-- The host's reaction to an outcome. -/
def afterOperation : Result → Result
  | .next s => .next (hostReacts s)
  | .fault f => .fault f
  | .refused r => .refused r

/-- The refusal of a code that decodes to no instruction. -/
def refusalOf : DecodeError → Refusal
  | .reservedSelector sel => .reservedSelector sel
  | .unlistedCommand byte => .unlistedCommand byte

/-- A block that can take a request: READY is true, with the smallest configuration where construction has not run (log
2), and no wait is in progress. -/
def State.accepting (s : State) : State :=
  let s := if s.ready then s else s.install Parameters.smallest
  { s with wait := none }

/-- A code placed as the host's next input. -/
def State.presenting (code : Code) (s : State) : State :=
  s.withHost (.issue code :: s.host)

end Sys2Proof.Machine
end

