-- ==== Sys2Proof/Machine/Step.lean ====
section
/-! DEFINITION. One step: the power goes off and on; or a suspended wait goes on; else the host's next input is performed to
its end; with none the block waits (10_state.md R31, 00_scope.md R9). -/

namespace Sys2Proof.Machine

/-- One step of the system. -/
def step (s : State) : Host.Outcome State Fault Refusal :=
  match s.wait, s.host with
  | _, .powerOn :: rest => .next (powerOn (s.withHost rest))
  | some k, _ => afterOperation (.next (opResume k s).final)
  | none, [] => .next s
  | none, .construct c :: rest => afterOperation (construct c (s.withHost rest))
  | none, .issue code :: rest =>
    match decode code with
    | .rejected e => .refused (refusalOf e)
    | .instr i => afterOperation (exec i (s.withHost rest))

/-- The instruction of a table word as the next thing the host issues, on a block that can take it (log 2). -/
def State.withFetchWord (s : State) (nbits w : Nat) : State := s.accepting.presenting (tableCode nbits w)

end Sys2Proof.Machine
end

