-- ==== Sys2Proof/Machine/Wire.lean ====
section
/-! DEFINITION. What an observer makes of the trace (00_scope.md R8): the wire view, the electrical levels (10_state.md R21,
R22), the bytes with their mode, and the frames a receiver reads (30_encoding.md R83, R84). Nothing of the block reads the
trace (10_state.md R35). -/

namespace Sys2Proof.Machine

/-- The three output latches. -/
structure Lines where
  dc : DcMode
  cs : Select
  rst : Bit
  deriving DecidableEq, Repr

/-- The latches at power-on (10_state.md R36); they are not recorded in the trace. -/
def Lines.powerOn : Lines := { dc := .command, cs := .released, rst := true }

/-- The latches of a state. -/
def State.lines (s : State) : Lines := { dc := s.dc, cs := s.cs, rst := s.rst }

/-- The latches after one event. -/
def Lines.after (l : Lines) : Event → Lines
  | .dc m => { l with dc := m }
  | .cs v => { l with cs := v }
  | .rst level => { l with rst := level }
  | .tx _ => l
  | .busyq _ => l

/-- The latches after a sequence of events. -/
def Lines.afterAll (l : Lines) (es : List Event) : Lines := es.foldl Lines.after l

/-- Whether an event is a latch assignment that repeats the latch's value (R8). -/
def Lines.repeats (l : Lines) : Event → Bool
  | .dc m => decide (l.dc = m)
  | .cs v => decide (l.cs = v)
  | .rst level => decide (l.rst = level)
  | .tx _ => false
  | .busyq _ => false

/-- The wire view: the trace without the assignments that change nothing (R8). -/
def wireView : Lines → List Event → List Event
  | _, [] => []
  | l, e :: rest => if l.repeats e then wireView l rest else e :: wireView (l.after e) rest

/-- The level of the Data/Command line (10_state.md R21). -/
def dcLevel (c : Parameters) : DcMode → Bit
  | .command => c.dcCommandLevel
  | .data => Bit.complement c.dcCommandLevel

/-- The level of the Chip-Select line (10_state.md R22). -/
def csLevel (c : Parameters) : Select → Bit
  | .asserted => c.csActiveLevel
  | .released => Bit.complement c.csActiveLevel

/-- The bytes accepted by the link, in order. -/
def txBytes : List Event → List Byte
  | [] => []
  | .tx b :: rest => b :: txBytes rest
  | .dc _ :: rest => txBytes rest
  | .cs _ :: rest => txBytes rest
  | .rst _ :: rest => txBytes rest
  | .busyq _ :: rest => txBytes rest

/-- The bytes accepted by the link, each with the mode of the Data/Command line while it was sent. -/
def sentBytes : Lines → List Event → List (DcMode × Byte)
  | _, [] => []
  | l, .tx b :: rest => (l.dc, b) :: sentBytes l rest
  | l, .dc m :: rest => sentBytes (l.after (.dc m)) rest
  | l, .cs v :: rest => sentBytes (l.after (.cs v)) rest
  | l, .rst level :: rest => sentBytes (l.after (.rst level)) rest
  | l, .busyq _ :: rest => sentBytes l rest

/-- Whether Select was asserted while every byte was sent (40_transport.md R104). -/
def sentSelected : Lines → List Event → Bool
  | _, [] => true
  | l, e :: rest =>
    (match e with
      | .tx _ => decide (l.cs = .asserted)
      | .dc _ => true
      | .cs _ => true
      | .rst _ => true
      | .busyq _ => true) && sentSelected (l.after e) rest

/-- A frame as the receiver has it: a command byte and its payload (30_encoding.md R83). -/
structure Frame where
  opcode : Byte
  data : List Byte
  deriving DecidableEq, Repr

/-- What a receiver reads: payload bytes that no command of this stretch precedes (they belong to an earlier command), then
the frames, each ended by the next byte sent in command mode (30_encoding.md R84). -/
structure Received where
  leading : List Byte
  frames : List Frame
  deriving DecidableEq, Repr

/-- Reading a stretch of bytes with their modes. -/
def receive : List (DcMode × Byte) → Received
  | [] => { leading := [], frames := [] }
  | (.data, b) :: rest => { receive rest with leading := b :: (receive rest).leading }
  | (.command, b) :: rest =>
    { leading := [], frames := { opcode := b, data := (receive rest).leading } :: (receive rest).frames }

/-- PRESUMED (log 18): the bits of a byte on the serial wire under the optional refinement of 20_memory.md R53, bit 7
first. Nothing of the model uses it. -/
def serialBits (b : Byte) : List Bit := (List.range 8).map fun k => b.getLsbD (7 - k)

end Sys2Proof.Machine
end

