-- ==== Sys2Proof/Safety.lean ====
section
/-! DEFINITION. The terms claims are stated in: states a request can be issued in, what the environment will answer, the
traces the spec writes out, the invariant of the machine, and a safe run. -/

namespace Sys2Proof.Machine

/-! ## Premises on a state and on the environment -/

/-- READY is true and no link failure has happened: an operation of any group performs its steps. -/
abbrev State.operable (s : State) : Prop := s.ready = true ∧ s.dead = false

/-- The model refuses nothing for this misuse: `refuseMisuse` is not set, or there is no misuse. -/
abbrev State.allows (misuse : Option Refusal) (s : State) : Prop := s.config.refuseMisuse = false ∨ misuse = none

/-- The link accepts the next n bytes. -/
abbrev State.linkAccepts (n : Nat) (s : State) : Prop := ∀ k < n, s.env.linkAt k = true

/-- The link accepts the next n bytes and refuses the one after them. -/
abbrev State.linkRefusesAfter (n : Nat) (s : State) : Prop := s.linkAccepts n ∧ s.env.linkAt n = false

/-- The next n Busy samples read 1. -/
abbrev State.busyFor (n : Nat) (s : State) : Prop := ∀ k < n, s.env.busyAt k = true

/-- The next n Busy samples read 1 and the one after them reads 0. -/
abbrev State.idleAfter (n : Nat) (s : State) : Prop := s.busyFor n ∧ s.env.busyAt n = false

/-! ## The traces the spec writes out -/

/-- The command phase of a frame (41_framer.md R120). -/
def commandWindow (opcode : Byte) : List Event := [.dc .command, .cs .asserted, .tx opcode, .cs .released]

/-- The data phase of a frame, with the return to command mode (R121). -/
def dataWindow (data : List Byte) : List Event :=
  [.dc .data, .cs .asserted] ++ data.map .tx ++ [.cs .released, .dc .command]

/-- The trace of a whole SEND_COMMAND (R120): no data phase without data (R122). -/
def frameTrace (opcode : Byte) (data : List Byte) : List Event :=
  commandWindow opcode ++ if data.isEmpty then [] else dataWindow data

/-- The trace of a plane load: one data window, or the windows of R175. -/
def planeTrace (c : Parameters) (opcode : Byte) (bytes : List Byte) : List Event :=
  match chunkSize c with
  | none => frameTrace opcode bytes
  | some k => commandWindow opcode ++ (windows k bytes).flatMap dataWindow

/-- A frame that stops at byte n of its payload, which the link refuses: Select stays asserted in data mode
(40_transport.md R109). -/
def frameStopTrace (opcode : Byte) (data : List Byte) (n : Nat) : List Event :=
  commandWindow opcode ++ [.dc .data, .cs .asserted] ++ (data.take n).map .tx

/-- A plane load in windows of k bytes that stops at byte n of BUF, which the link refuses: the windows before that byte,
then the opened window with the bytes before it (44_sequences.md R175). -/
def chunkStopTrace (k : Nat) (opcode : Byte) (bytes : List Byte) (n : Nat) : List Event :=
  commandWindow opcode ++ ((List.range (n / k)).flatMap fun j => dataWindow ((bytes.drop (j * k)).take k)) ++
    [.dc .data, .cs .asserted] ++ ((bytes.drop (n / k * k)).take (n % k)).map .tx

/-- The condition of 44_sequences.md R171 for the bulk form: "CHUNK = INF or BUFLEN <= CHUNK". -/
def bulkForm (c : Parameters) : Prop :=
  match c.chunk with
  | .inf => True
  | .count k _ => c.bufLen ≤ k

/-- The payload that the rule of a command documents (30_encoding.md R85, 43_commands.md R140 to R156). -/
def documentedPayload (s : State) (plane : Plane) : Command → List Byte
  | .setAnalogueCtrl => [0x54]
  | .setDigitalCtrl => [0x3B]
  | .writeRamBw | .writeRamRed => s.bufBytes
  | .dispUpdate2 => triggerPayload s.config plane
  | .softReset | .driverCtrl | .dataEntryMode | .setDummyPeriod | .setGateWidth | .setWaveCtrl
  | .ramXAddress | .ramYAddress | .setRamCounterX | .setRamCounterY | .dispUpdate1 | .masterActivation => []

/-- What a command row appends when it is issued with its documented payload (30_encoding.md R85, 43_commands.md R140 to
R156). -/
def documentedTrace (s : State) (plane : Plane) : Command → List Event
  | .softReset => commandWindow 0x12
  | .driverCtrl => commandWindow 0x01
  | .dataEntryMode => commandWindow 0x11
  | .setDummyPeriod => commandWindow 0x3A
  | .setGateWidth => commandWindow 0x3B
  | .setWaveCtrl => commandWindow 0x3C
  | .ramXAddress => commandWindow 0x44
  | .ramYAddress => commandWindow 0x45
  | .setRamCounterX => commandWindow 0x4E
  | .setRamCounterY => commandWindow 0x4F
  | .setAnalogueCtrl => frameTrace 0x74 [0x54]
  | .setDigitalCtrl => frameTrace 0x7E [0x3B]
  | .writeRamBw => planeTrace s.config 0x24 s.bufBytes
  | .writeRamRed => planeTrace s.config 0x26 s.bufBytes
  | .dispUpdate1 => commandWindow 0x21
  | .dispUpdate2 => frameTrace 0x22 (triggerPayload s.config plane)
  | .masterActivation => commandWindow 0x20

/-- How many bytes that is. -/
def documentedLength (s : State) (plane : Plane) : Command → Nat
  | .setAnalogueCtrl | .setDigitalCtrl => 2
  | .writeRamBw | .writeRamRed => 1 + s.config.bufLen
  | .dispUpdate2 => 1 + (triggerPayload s.config plane).length
  | .softReset | .driverCtrl | .dataEntryMode | .setDummyPeriod | .setGateWidth | .setWaveCtrl
  | .ramXAddress | .ramYAddress | .setRamCounterX | .setRamCounterY | .dispUpdate1 | .masterActivation => 1

/-- How many Busy samples an instruction takes at most when POLL_BOUND is b: b in the wait of WAIT_IDLE and of INIT, one
more in REFRESH for its pre-check (42_sync.md R131, R133), the one of READ_BUSY (40_transport.md R106), and none in any
other. -/
def mostSamples (b : Nat) : Instr → Nat
  | .waitIdle | .init => b
  | .refresh _ => b + 1
  | .readBusy => 1
  | .setCommandMode | .setDataMode | .assertSelect | .releaseSelect | .write _ | .pulseReset
  | .sendCommand _ _ | .sendData _ | .writePlane _ | .pbClear _ | .pbSet _ _ _ | .pbGet _ _
  | .softReset _ | .driverCtrl _ | .dataEntryMode _ | .setDummyPeriod _ | .setGateWidth _ | .setWaveCtrl _
  | .ramXAddress _ | .ramYAddress _ | .setRamCounterX _ | .setRamCounterY _ | .setAnalogueCtrl _ | .setDigitalCtrl _
  | .writeRamBw _ | .writeRamRed _ | .dispUpdate1 _ | .dispUpdate2 _ _ | .masterActivation _ => 0

/-- The samples of a wait whose first n samples read 1 and whose last reads 0 (42_sync.md R131). -/
def waitTrace (n : Nat) : List Event := List.replicate n (.busyq true) ++ [.busyq false]

/-- Steps 2 to 5 of INIT as events (44_sequences.md R170, 95_test_vectors.md P2). -/
def scriptTrace : List Event :=
  frameTrace 0x74 [0x54] ++ frameTrace 0x7E [0x3B] ++ commandWindow 0x01 ++
  commandWindow 0x3A ++ commandWindow 0x3B ++ commandWindow 0x3C ++
  commandWindow 0x44 ++ commandWindow 0x45 ++ commandWindow 0x4E ++ commandWindow 0x4F

/-- The frames of steps 2 to 5 of INIT, command byte and payload, in order (R170). -/
def initFrames : List (Byte × List Byte) :=
  [(0x74, [0x54]), (0x7E, [0x3B]), (0x01, []), (0x3A, []), (0x3B, []), (0x3C, []), (0x44, []), (0x45, []), (0x4E, []),
   (0x4F, [])]

/-- How many bytes some frames send. -/
def frameBytes (frames : List (Byte × List Byte)) : Nat := (frames.map fun f => 1 + f.2.length).sum

/-- What some frames append. -/
def framesTrace (frames : List (Byte × List Byte)) : List Event := frames.flatMap fun f => frameTrace f.1 f.2

/-- The two command frames of REFRESH (R172). -/
def triggerTrace (payload : List Byte) : List Event :=
  frameTrace Command.dispUpdate2.value payload ++ commandWindow Command.masterActivation.value

/-! ## The invariant -/

/-- The geometry construction accepts, with PAGES and BUFLEN derived (00_scope.md R5, 70_reset_and_hazards.md R231). -/
structure LegalGeometry (c : Parameters) : Prop where
  width_pos : 0 < c.width
  height_pos : 0 < c.height
  whole_pages : c.height % 8 = 0
  pages_eq : c.pages = c.height / 8
  bufLen_eq : c.bufLen = c.pages * c.width

/-- What every step keeps. -/
structure State.Inv (s : State) : Prop where
  /-- BUF keeps its canonical form. -/
  canonical : Memory.wf s.buf = true
  /-- BUF lists no index that is not below BUFLEN (20_memory.md R58). -/
  mapped : Memory.within s.config.bufLen s.buf = true
  /-- After construction the geometry is legal (45_pixel_buffer.md R194). -/
  geometry : s.ready = true → LegalGeometry s.config
  /-- Before construction there is no buffer (10_state.md R36). -/
  noBuffer : s.ready = false → s.config.bufLen = 0
  /-- Between operations the controller is not held in reset. -/
  resetHigh : s.rst = true
  /-- The latches are what the trace says of them. -/
  recorded : Lines.powerOn.afterAll s.trace = s.lines
  /-- A link failure needs a constructed block. -/
  deadReady : s.dead = true → s.ready = true
  /-- A reported link failure has latched DEAD (10_state.md R28). -/
  failureDead : ∀ cause, s.status = .failed (.transportFailure cause) → s.dead = true
  /-- Only an unbounded wait of a live, constructed block stands suspended. -/
  suspended : s.wait ≠ none → s.ready = true ∧ s.dead = false ∧ s.config.pollBound = .inf

/-- The premises under which a configured block refuses every misuse, and so does every block constructed later. -/
structure State.Guarded (s : State) : Prop where
  refuses : s.ready = true → s.config.refuseMisuse = true
  constructions : ∀ c, HostInput.construct c ∈ s.host → c.refuseMisuse = true

/-! ## Safe runs -/

/-- The rest state of 95_test_vectors.md. -/
abbrev State.atRest (s : State) : Prop :=
  s.dc = .command ∧ s.cs = .released ∧ s.rst = true ∧ s.dead = false ∧ s.ready = true

/-- n steps in a row, up to the first fault or refusal. -/
def runSteps : Nat → State → Result
  | 0, s => .next s
  | n + 1, s =>
    match step s with
    | .next t => runSteps n t
    | .fault f => .fault f
    | .refused r => .refused r

/-- A run of n steps that neither faults nor is refused. -/
def safeRun (n : Nat) (s : State) : Prop := ∃ t, runSteps n s = .next t

end Sys2Proof.Machine
end

