-- ==== Sys2Proof/Certificates/Slice0/Obligations.lean ====
section
/-! DEFINITION. The statements for the provers, each from the numbered rules of spec/. The terms they use (`operable`,
`allows`, `linkAccepts`, `idleAfter`, `frameTrace`, `Inv` and so on) are in Sys2Proof/Safety.lean. Every statement of a
next state says all of it: a field that `{ s with … }` does not name is unchanged. -/

open Sys2Proof Sys2Proof.Machine

/-! ## Reset and the invariants -/

/-- 10_state.md R36, 70_reset_and_hazards.md R230: the values at power-on, from whatever state, a suspended wait or not; T
is empty, no buffer index exists, and the power-on values of the latches are not recorded. `State.reset` is that state. -/
def Obligations.PowerOnGivesResetValues : Prop :=
  ∀ (s : State) (rest : List HostInput), s.host = .powerOn :: rest →
    ∃ t, step s = .next t ∧
      t.dc = .command ∧ t.cs = .released ∧ t.rst = true ∧ t.cycle = .idle ∧ t.status = .ok ∧ t.dead = false ∧
      t.ready = false ∧ t.polls = 0 ∧ t.trace = [] ∧ (∀ i, t.bufRead i = none) ∧ t.host = rest ∧ t.env = s.env ∧
      { t with env := State.reset.env, host := [], stopAtFailure := true } = State.reset

/-- The state after reset meets every invariant stated below. 10_state.md R36 gives the latches, CYCLE, DEAD, READY and the
empty trace; the rest is the model's: the queue of inputs (log 1), BUFLEN = 0 and the other configuration before
construction, which R36 calls unspecified (log 3, an unsafe DESIGN CHOICE), no suspended wait (log 7), the flag behind
`Guarded` (log 8) and the canonical form of the buffer (log 10). -/
def Obligations.ResetMeetsInvariants : Prop :=
  State.reset.Inv ∧ State.reset.Guarded ∧ sentSelected Lines.powerOn State.reset.trace = true

/-- Every step keeps the invariant: that BUF lists no index from BUFLEN on (20_memory.md R58), the geometry after
construction (45_pixel_buffer.md R194), Reset high between operations (10_state.md R23), the latches as the trace records
them (00_scope.md R8), DEAD latched behind every reported transport failure (10_state.md R28). Three clauses are the
model's, not the spec's: the canonical form of BUF (log 10), BUFLEN = 0 before construction (log 3), and that only an
unbounded wait of a live, constructed block is ever suspended (log 7). -/
def Obligations.StepKeepsInvariant : Prop :=
  ∀ s t : State, s.Inv → step s = .next t → t.Inv

/-- 70_reset_and_hazards.md R244, decision D23: a block that refuses misuse never sends a byte with Select released, and
stays such a block. Rests on the model's `refuseMisuse` (log 8). -/
def Obligations.GuardedBlockSendsOnlySelected : Prop :=
  ∀ s t : State, s.Inv → s.Guarded → sentSelected Lines.powerOn s.trace = true → step s = .next t →
    t.Guarded ∧ sentSelected Lines.powerOn t.trace = true

/-! ## Decoding and stepping -/

/-- Decoding the encoding of any instruction, with any operands, gives it back. -/
def Obligations.DecodeEncodeRoundTrip : Prop :=
  ∀ i : Instr, decode (encode i) = .instr i

/-- 30_encoding.md R86, R87: the sixteen selectors decode, every other selector is reserved, and the model refuses it. -/
def Obligations.ReservedSelectorsAreRefused : Prop :=
  ∀ (sel : Byte) (ports : Ports),
    let listed : List Byte := [0x81, 0x82, 0x83, 0x84, 0x85, 0x86, 0x87, 0x90, 0x91, 0xA0, 0xB0, 0xB1, 0xB2, 0xC0, 0xC1, 0xC2]
    (sel ∈ listed → ∃ i, decode (.req sel ports) = .instr i) ∧
    (sel ∉ listed → decode (.req sel ports) = .rejected (.reservedSelector sel) ∧
      ∀ (s : State) (rest : List HostInput), s.wait = none → s.host = .issue (.req sel ports) :: rest →
        step s = .refused (.reservedSelector sel))

/-- 30_encoding.md R85: a byte is a command exactly when it is one of the seventeen values; in data mode no byte is a
command (R83). -/
def Obligations.CommandBytesAreTheSeventeen : Prop :=
  Command.all.map Command.value =
      [0x12, 0x01, 0x11, 0x3A, 0x3B, 0x3C, 0x44, 0x45, 0x4E, 0x4F, 0x74, 0x7E, 0x24, 0x26, 0x21, 0x22, 0x20] ∧
    (∀ c : Command, readWire .command c.value = .command c) ∧
    (∀ b : Byte, b ∉ Command.all.map Command.value → readWire .command b = .unlisted b) ∧
    ∀ b : Byte, readWire .data b = .payload b

/-- Words written out from the tables of 30_encoding.md R85 and R86, and 95_test_vectors.md V70 to V76: the byte and the
mnemonic are the spec's. That a table word has zero or empty operand ports is the model's choice (log 2), and so is that a
command byte is an instruction, carrying its documented payload (log 9). -/
def Obligations.SpecWordsDecode : Prop :=
  decodeTableWord 8 0b10000001 = some .setCommandMode ∧
  decodeTableWord 8 0b10000101 = some (.write []) ∧
  decodeTableWord 8 0b10010000 = some (.sendCommand 0 []) ∧
  decodeTableWord 8 0b10100000 = some .waitIdle ∧
  decodeTableWord 8 0b10110010 = some (.refresh .bw) ∧
  decodeTableWord 8 0b11000001 = some (.pbSet 0 0 false) ∧
  decodeTableWord 8 0b00100100 = some (.writeRamBw .documented) ∧
  decodeTableWord 8 0b00111011 = some (.setGateWidth .documented) ∧
  decode (.req 0x24 {}) = .rejected (.reservedSelector 0x24) ∧
  decode (.req 0x88 {}) = .rejected (.reservedSelector 0x88) ∧
  decode (.req 0xD0 {}) = .rejected (.reservedSelector 0xD0)

/-- A step performs the instruction the host issues next, on the state without that input, and then the host reacts: after
a failure it stops, unless its program says otherwise (30_encoding.md R92). The queue of inputs is the model's (log 1, log
16). -/
def Obligations.StepPerformsIssuedInstruction : Prop :=
  ∀ (s : State) (code : Code) (rest : List HostInput) (i : Instr), s.wait = none → s.host = .issue code :: rest →
    decode code = .instr i →
    (∀ t, exec i (s.withHost rest) = .next t →
      step s = .next (if t.stopAtFailure = true ∧ t.wait = none ∧ t.status ≠ .ok then t.withHost [] else t)) ∧
    (∀ f, exec i (s.withHost rest) = .fault f → step s = .fault f) ∧
    ∀ r, exec i (s.withHost rest) = .refused r → step s = .refused r

/-- 10_state.md R31, 70_reset_and_hazards.md R230: with nothing issued the block waits and nothing changes. That this is
a step is the model's reading (log 1, DEDUCED). -/
def Obligations.StepWithoutInputChangesNothing : Prop :=
  ∀ s : State, s.wait = none → s.host = [] → step s = .next s

/-- A word of the opcode table placed with `withFetchWord` is what the next step performs; on a constructed block with no
wait in progress nothing else is changed (log 2). -/
def Obligations.PlacedWordRunsNext : Prop :=
  ∀ (s : State) (nbits w : Nat) (i : Instr), decodeTableWord nbits w = some i →
    step (s.withFetchWord nbits w) = afterOperation (exec i s.accepting) ∧ s.accepting.ready = true ∧
    (s.ready = true → s.wait = none → s.accepting = s)

/-! ## Entry checks and misuse -/

/-- 10_state.md R29: while READY is false every instruction is refused. -/
def Obligations.NotReadyRefusesEveryInstruction : Prop :=
  ∀ (i : Instr) (s : State), s.ready = false → exec i s = .refused .notReady

/-- 10_state.md R28, 60_exceptions.md R204: while DEAD is true every operation but the pixel buffer's fails with
TransportFailure(DEAD) and does nothing else. -/
def Obligations.DeadBlocksEveryBusOperation : Prop :=
  ∀ (i : Instr) (s : State), s.ready = true → s.dead = true →
    (∀ v, i ≠ .pbClear v) → (∀ x y b, i ≠ .pbSet x y b) → (∀ x y, i ≠ .pbGet x y) →
    exec i s = .next { s with status := .failed (.transportFailure .dead) }

/-- 10_state.md R28, 70_reset_and_hazards.md R245: once DEAD, no step but a power-on reset clears it, appends an event or
moves a latch. -/
def Obligations.DeadIsStickyAndSilent : Prop :=
  ∀ s t : State, s.ready = true → s.dead = true → s.wait = none → (∀ rest, s.host ≠ .powerOn :: rest) →
    step s = .next t → t.dead = true ∧ t.ready = true ∧ t.trace = s.trace ∧ t.lines = s.lines

/-- 70_reset_and_hazards.md R237, R238, R244, 30_encoding.md R88, decision D23: a block configured to refuse misuse refuses
WRITE with Select released, everything the host would send while CYCLE = BUSY, and a SEND_COMMAND of an unlisted byte. The
switch is the model's (log 8). -/
def Obligations.ConfiguredBlockRefusesMisuse : Prop :=
  ∀ s : State, s.operable → s.config.refuseMisuse = true →
    (∀ data, s.cs = .released → exec (.write data) s = .refused .selectReleased) ∧
    (∀ op data, opcodeListed op = false → exec (.sendCommand op data) s = .refused (.unlistedOpcode op)) ∧
    (s.cycle = .busy →
      (∀ data, s.cs = .asserted → exec (.write data) s = .refused .refreshInFlight) ∧
      (∀ op data, opcodeListed op = true → exec (.sendCommand op data) s = .refused .refreshInFlight) ∧
      (∀ data, exec (.sendData data) s = .refused .refreshInFlight) ∧
      (∀ plane, exec (.writePlane plane) s = .refused .refreshInFlight) ∧
      ∀ plane payload c, exec (Instr.ofCommand plane payload c) s = .refused .refreshInFlight)

/-! ## Transport -/

/-- 40_transport.md R100 (selector, effect, event, DEAD), and in the same form R101, R102, R103: SET_COMMAND_MODE,
SET_DATA_MODE, ASSERT_SELECT, RELEASE_SELECT assign their latch, whatever it and the other latches hold, and record it. -/
def Obligations.LineRequestsAssignTheirLatch : Prop :=
  (∀ ports, decode (.req 0x81 ports) = .instr .setCommandMode ∧ decode (.req 0x82 ports) = .instr .setDataMode ∧
    decode (.req 0x83 ports) = .instr .assertSelect ∧ decode (.req 0x84 ports) = .instr .releaseSelect) ∧
  (∀ s : State, s.operable →
    exec .setCommandMode s = .next { s with dc := .command, status := .ok, trace := s.trace ++ [.dc .command] } ∧
    exec .setDataMode s = .next { s with dc := .data, status := .ok, trace := s.trace ++ [.dc .data] } ∧
    exec .assertSelect s = .next { s with cs := .asserted, status := .ok, trace := s.trace ++ [.cs .asserted] } ∧
    exec .releaseSelect s = .next { s with cs := .released, status := .ok, trace := s.trace ++ [.cs .released] }) ∧
  ∀ (s : State) (i : Instr), i ∈ [Instr.setCommandMode, .setDataMode, .assertSelect, .releaseSelect] →
    s.ready = true → s.dead = true → exec i s = .next { s with status := .failed (.transportFailure .dead) }

/-- 40_transport.md R104: WRITE sends every byte in order and assigns no latch, also with Select released and while a
refresh is in flight where the block is not configured to refuse (93_implementation_defined.md U23, U25). -/
def Obligations.WriteSendsEveryByte : Prop :=
  ∀ (data : List Byte) (s : State), s.operable → s.allows (writeMisuse s) → s.linkAccepts data.length →
    exec (.write data) s = .next { s with
      status := .ok, trace := s.trace ++ data.map .tx, env := s.env.sent data.length }

/-- 40_transport.md R109, 60_exceptions.md R204: WRITE stops at the refused byte; the bytes before it went out, no latch
changes, DEAD is latched, its index is recorded. -/
def Obligations.WriteStopsAtRefusedByte : Prop :=
  ∀ (data : List Byte) (n : Nat) (s : State), s.operable → s.allows (writeMisuse s) → n < data.length →
    s.linkRefusesAfter n →
    exec (.write data) s = .next { s with
      dead := true, status := .failed (.transportFailure (.linkWrite n)),
      trace := s.trace ++ (data.take n).map .tx, env := s.env.sent (n + 1) }

/-- 40_transport.md R105: PULSE_RESET drives Reset low then high, sets CYCLE to IDLE, touches neither DC nor CS; while DEAD it
fails and does not clear DEAD. -/
def Obligations.PulseResetPulsesAndIdles : Prop :=
  (∀ ports, decode (.req 0x86 ports) = .instr .pulseReset) ∧
  (∀ s : State, s.operable →
    exec .pulseReset s = .next { s with
      rst := true, cycle := .idle, status := .ok, trace := s.trace ++ [.rst false, .rst true] }) ∧
  ∀ s : State, s.ready = true → s.dead = true →
    exec .pulseReset s = .next { s with status := .failed (.transportFailure .dead) }

/-- 40_transport.md R106: READ_BUSY takes one sample and returns it; CYCLE and POLLS are unchanged; while DEAD it fails. -/
def Obligations.ReadBusyReturnsTheSample : Prop :=
  (∀ ports, decode (.req 0x87 ports) = .instr .readBusy) ∧
  (∀ s : State, s.operable →
    exec .readBusy s = .next { s with
      result := s.env.busyAt 0, status := .ok, trace := s.trace ++ [.busyq (s.env.busyAt 0)], env := s.env.sampled 1 }) ∧
  ∀ s : State, s.ready = true → s.dead = true →
    exec .readBusy s = .next { s with status := .failed (.transportFailure .dead) }

/-! ## Framer -/

/-- 41_framer.md R120: SEND_COMMAND puts one frame on the wire and ends with DC = C, CS = R whatever they were; CYCLE and
Busy are not involved; the opcode and the payload length are not checked. -/
def Obligations.SendCommandPutsOneFrame : Prop :=
  ∀ (op : Byte) (data : List Byte) (s : State), s.operable → s.allows (commandMisuse op data s) →
    s.linkAccepts (1 + data.length) →
    exec (.sendCommand op data) s = .next { s with
      dc := .command, cs := .released, status := .ok, trace := s.trace ++ frameTrace op data,
      env := s.env.sent (1 + data.length) }

/-- 41_framer.md R120, 40_transport.md R109: SEND_COMMAND stops at the refused byte with Select still asserted; the recorded
index counts inside the window. -/
def Obligations.SendCommandStopsAtRefusedByte : Prop :=
  ∀ (op : Byte) (data : List Byte) (s : State), s.operable → s.allows (commandMisuse op data s) →
    (s.linkRefusesAfter 0 →
      exec (.sendCommand op data) s = .next { s with
        dc := .command, cs := .asserted, dead := true, status := .failed (.transportFailure (.linkWrite 0)),
        trace := s.trace ++ [.dc .command, .cs .asserted], env := s.env.sent 1 }) ∧
    ∀ n < data.length, s.linkRefusesAfter (1 + n) →
      exec (.sendCommand op data) s = .next { s with
        dc := .data, cs := .asserted, dead := true, status := .failed (.transportFailure (.linkWrite n)),
        trace := s.trace ++ (commandWindow op ++ [.dc .data, .cs .asserted] ++ (data.take n).map .tx),
        env := s.env.sent (n + 2) }

/-- 41_framer.md R121: SEND_DATA puts one data window on the wire, also with no bytes, and restores command mode; a refused
byte stops it in data mode with Select asserted. -/
def Obligations.SendDataPutsOneWindowOrStops : Prop :=
  ∀ (data : List Byte) (s : State), s.operable → s.allows (sendMisuse s) →
    (s.linkAccepts data.length →
      exec (.sendData data) s = .next { s with
        dc := .command, cs := .released, status := .ok, trace := s.trace ++ dataWindow data,
        env := s.env.sent data.length }) ∧
    ∀ n < data.length, s.linkRefusesAfter n →
      exec (.sendData data) s = .next { s with
        dc := .data, cs := .asserted, dead := true, status := .failed (.transportFailure (.linkWrite n)),
        trace := s.trace ++ ([.dc .data, .cs .asserted] ++ (data.take n).map .tx), env := s.env.sent (n + 1) }

/-- 41_framer.md R122: SEND_COMMAND performs the data phase if and only if there are data bytes; an absent operand is the
empty one (the port's default). -/
def Obligations.DataPhaseOnlyWithData : Prop :=
  (∀ op : Byte, decode (.req 0x90 { opcode := op }) = .instr (.sendCommand op [])) ∧
  ∀ (op : Byte) (data : List Byte) (s : State), s.operable → s.allows (commandMisuse op data s) →
    s.linkAccepts (1 + data.length) →
    ∃ t es, exec (.sendCommand op data) s = .next t ∧ t.status = .ok ∧ t.trace = s.trace ++ es ∧
      (Event.dc .data ∈ es ↔ 0 < data.length) ∧
      (data = [] → es = [.dc .command, .cs .asserted, .tx op, .cs .released])

/-- 30_encoding.md R83, R84: what the receiver reads of a SEND_COMMAND is one frame, whose command byte was sent in command
mode and whose payload was sent in data mode, in order. -/
def Obligations.ReceiverReadsOneFrame : Prop :=
  ∀ (op : Byte) (data : List Byte) (s : State), s.operable → s.allows (commandMisuse op data s) →
    s.linkAccepts (1 + data.length) →
    ∃ t es, exec (.sendCommand op data) s = .next t ∧ t.trace = s.trace ++ es ∧
      receive (sentBytes s.lines es) = { leading := [], frames := [{ opcode := op, data := data }] }

/-- 70_reset_and_hazards.md R247: after any framer or sequencer operation that succeeds, DC = C and CS = R; the same after a
command row. -/
def Obligations.SuccessLeavesLinesIdle : Prop :=
  ∀ (i : Instr) (s t : State),
    ((∃ op data, i = .sendCommand op data) ∨ (∃ data, i = .sendData data) ∨ i = .init ∨ (∃ p, i = .writePlane p) ∨
      (∃ p, i = .refresh p) ∨ ∃ plane payload c, i = Instr.ofCommand plane payload c) →
    exec i s = .next t → t.status = .ok → t.dc = .command ∧ t.cs = .released

/-! ## The command rows -/

/-- 43_commands.md R157: issuing any of the 17 command bytes with a payload of the host's is SEND_COMMAND of its value with
that payload, and that is its whole effect: CYCLE, POLLS and Busy are left alone. That a command row is an instruction of
its own is the model's (log 9). -/
def Obligations.CommandRowsSendGivenPayload : Prop :=
  ∀ (c : Command) (plane : Plane) (data : List Byte) (s : State), s.operable → s.allows (sendMisuse s) →
    s.linkAccepts (1 + data.length) →
    exec (Instr.ofCommand plane (.given data) c) s = .next { s with
      dc := .command, cs := .released, status := .ok, trace := s.trace ++ frameTrace c.value data,
      env := s.env.sent (1 + data.length) }

/-- 30_encoding.md R85, 43_commands.md R140 to R156: each of the 17 with its documented payload: 0x54 and 0x3B for the two
block controls, the whole of BUF for the plane loads, TRIGGER_PAYLOAD for DISP_UPDATE_2, none for the others. -/
def Obligations.CommandRowsSendDocumentedPayload : Prop :=
  ∀ (c : Command) (plane : Plane) (s : State), s.operable → s.allows (sendMisuse s) →
    (∀ n < documentedLength s plane c, s.env.linkAt n = true) →
    exec (Instr.ofCommand plane .documented c) s = .next { s with
      dc := .command, cs := .released, status := .ok, trace := s.trace ++ documentedTrace s plane c,
      env := s.env.sent (documentedLength s plane c) }

/-- 40_transport.md R109: a command row stops at the refused byte as SEND_COMMAND does: at its command byte, whatever the
payload; at byte n of a given payload; at byte n of its documented payload (R85), in one data window or, for a plane load
in the chunked form of 44_sequences.md R175, in the window that holds the byte, whose index the failure records. That a
command row is an instruction of its own is the model's (log 9). -/
def Obligations.CommandRowsStopAtRefusedByte : Prop :=
  ∀ (c : Command) (plane : Plane) (s : State), s.operable → s.allows (sendMisuse s) →
    (∀ payload, s.linkRefusesAfter 0 →
      exec (Instr.ofCommand plane payload c) s = .next { s with
        dc := .command, cs := .asserted, dead := true, status := .failed (.transportFailure (.linkWrite 0)),
        trace := s.trace ++ [.dc .command, .cs .asserted], env := s.env.sent 1 }) ∧
    (∀ (data : List Byte) (n : Nat), n < data.length → s.linkRefusesAfter (1 + n) →
      exec (Instr.ofCommand plane (.given data) c) s = .next { s with
        dc := .data, cs := .asserted, dead := true, status := .failed (.transportFailure (.linkWrite n)),
        trace := s.trace ++ frameStopTrace c.value data n, env := s.env.sent (n + 2) }) ∧
    ∀ n < (documentedPayload s plane c).length, s.linkRefusesAfter (1 + n) →
      (c ∉ [Command.writeRamBw, .writeRamRed] ∨ bulkForm s.config →
        exec (Instr.ofCommand plane .documented c) s = .next { s with
          dc := .data, cs := .asserted, dead := true, status := .failed (.transportFailure (.linkWrite n)),
          trace := s.trace ++ frameStopTrace c.value (documentedPayload s plane c) n, env := s.env.sent (n + 2) }) ∧
      ∀ (k : Nat) (hk : 0 < k), c ∈ [Command.writeRamBw, .writeRamRed] → s.config.chunk = .count k hk →
        k < s.config.bufLen →
        exec (Instr.ofCommand plane .documented c) s = .next { s with
          dc := .data, cs := .asserted, dead := true, status := .failed (.transportFailure (.linkWrite (n % k))),
          trace := s.trace ++ chunkStopTrace k c.value s.bufBytes n, env := s.env.sent (n + 2) }

/-! ## The synchroniser -/

/-- 42_sync.md R131: POLLS counts every sample. If the first n samples read 1 and the next reads 0, WAIT_IDLE returns after
n + 1 samples provided that is within POLL_BOUND (with no bound, one step sees n = 0); if POLL_BOUND samples all read 1, it
times out after exactly POLL_BOUND samples and the next is never taken. No byte is sent, no latch assigned, and CYCLE moves
only from BUSY to IDLE. -/
def Obligations.WaitIdleCountsSamples : Prop :=
  (∀ (n : Nat) (s : State), s.operable → n < pollBudget s.config → s.idleAfter n →
    exec .waitIdle s = .next { s with
      polls := n + 1, cycle := (if s.cycle = .busy then .idle else s.cycle), status := .ok,
      trace := s.trace ++ waitTrace n, env := s.env.sampled (n + 1) }) ∧
  ∀ (b : Nat) (hb : 0 < b) (s : State), s.operable → s.config.pollBound = .count b hb → s.busyFor b →
    exec .waitIdle s = .next { s with
      polls := b, status := .failed (.hardwareTimeout (.pollBoundExceeded b)),
      trace := s.trace ++ List.replicate b (.busyq true), env := s.env.sampled b }

/-- 42_sync.md R130, R136 with POLL_BOUND = INF: a WAIT_IDLE whose sample reads 1 stands suspended, nothing else changed;
INIT stands suspended for itself after its first frame (44_sequences.md R170), and REFRESH for itself after both its frames
with CYCLE = BUSY (R172). A next sample of 0 ends the wait of WAIT_IDLE and of REFRESH; for INIT see SuspendedInitGoesOn.
The suspended wait is the model's (log 7). -/
def Obligations.UnboundedWaitSuspendsAndEnds : Prop :=
  (∀ s : State, s.operable → s.config.pollBound = .inf → s.env.busyAt 0 = true →
    exec .waitIdle s = .next { s with
      polls := 1, wait := some .waitIdle, trace := s.trace ++ [.busyq true], env := s.env.sampled 1 }) ∧
  (∀ s : State, s.operable → s.config.pollBound = .inf → s.linkAccepts 1 → s.env.busyAt 0 = true →
    exec .init s = .next { s with
      dc := .command, cs := .released, status := .ok, polls := 1, wait := some .init,
      trace := s.trace ++ (commandWindow 0x12 ++ [.busyq true]), env := (s.env.sent 1).sampled 1 }) ∧
  (∀ (plane : Plane) (s : State), s.operable → s.config.pollBound = .inf →
    s.linkAccepts (2 + (triggerPayload s.config plane).length) → s.env.busyAt 0 = false → s.env.busyAt 1 = true →
    exec (.refresh plane) s = .next { s with
      dc := .command, cs := .released, cycle := .busy, status := .ok, polls := 1, wait := some .refresh,
      trace := s.trace ++ (.busyq false :: triggerTrace (triggerPayload s.config plane) ++ [.busyq true]),
      env := (s.env.sent (2 + (triggerPayload s.config plane).length)).sampled 2 }) ∧
  ∀ (k : Resume) (s : State), s.wait = some k → (∀ rest, s.host ≠ .powerOn :: rest) → k ≠ .init →
    s.config.pollBound = .inf → s.env.busyAt 0 = false →
    step s = .next { s with
      wait := none, polls := s.polls + 1, cycle := (if s.cycle = .busy then .idle else s.cycle), status := .ok,
      trace := s.trace ++ [.busyq false], env := s.env.sampled 1 }

/-- 70_reset_and_hazards.md R246: with POLL_BOUND = INF, as long as every sample reads 1 and power is not cut a wait in
progress never ends: after any number of steps it is still in progress and has done nothing but sample. -/
def Obligations.UnboundedWaitNeverEndsWhileBusy : Prop :=
  ∀ (n : Nat) (k : Resume) (s : State), s.wait = some k → (∀ rest, s.host ≠ .powerOn :: rest) →
    s.config.pollBound = .inf → s.busyFor n →
    runSteps n s = .next { s with
      polls := s.polls + n, trace := s.trace ++ List.replicate n (.busyq true), env := s.env.sampled n }

/-- 42_sync.md R130, R131, 70_reset_and_hazards.md R252: with a finite POLL_BOUND every operation ends within its step,
after at most POLL_BOUND samples in WAIT_IDLE and INIT, POLL_BOUND + 1 in REFRESH with the one of its pre-check (R133), one
in READ_BUSY (40_transport.md R106), and none in any other: WAIT_IDLE and INIT never take the sample POLL_BOUND + 1. -/
def Obligations.BoundedOperationsEnd : Prop :=
  ∀ (i : Instr) (b : Nat) (hb : 0 < b) (s t : State), s.config.pollBound = .count b hb → s.wait = none →
    exec i s = .next t → t.wait = none ∧ t.env.samples ≤ s.env.samples + mostSamples b i

/-! ## The sequencer layer -/

/-- 44_sequences.md R170: INIT sends the software reset, waits, and sends the other ten commands with their two payload
bytes, 13 bytes in all, in the fixed order; CYCLE is IDLE. -/
def Obligations.InitRunsTheWholeScript : Prop :=
  ∀ (n : Nat) (s : State), s.operable → s.linkAccepts 13 → n < pollBudget s.config → s.idleAfter n →
    exec .init s = .next { s with
      dc := .command, cs := .released, polls := n + 1, cycle := .idle, status := .ok,
      trace := s.trace ++ (commandWindow 0x12 ++ waitTrace n ++ scriptTrace),
      env := (s.env.sent 13).sampled (n + 1) }

/-- 44_sequences.md R170, R173, 40_transport.md R109: INIT stops at its first failure. When Busy never reads 0 within the
bound it stops after its first step: steps 2 to 5 are not sent and CYCLE is unchanged. It stops at the byte the link
refuses: a refused 0x12 leaves CYCLE as it was; after the wait CYCLE is IDLE, and each of the ten frames of steps 2 to 5
stops at its command byte or at a byte of its payload, with Select asserted, the frames before it sent and none after it.
The same where the wait had been suspended (log 7), after which the host stops if its program says so (log 16). -/
def Obligations.InitStopsAtItsFirstFailure : Prop :=
  ∀ s : State,
    (∀ (b : Nat) (hb : 0 < b), s.operable → s.linkAccepts 1 → s.config.pollBound = .count b hb → s.busyFor b →
      exec .init s = .next { s with
        dc := .command, cs := .released, polls := b, status := .failed (.hardwareTimeout (.pollBoundExceeded b)),
        trace := s.trace ++ (commandWindow 0x12 ++ List.replicate b (.busyq true)),
        env := (s.env.sent 1).sampled b }) ∧
    (s.operable → s.linkRefusesAfter 0 →
      exec .init s = .next { s with
        dc := .command, cs := .asserted, dead := true, status := .failed (.transportFailure (.linkWrite 0)),
        trace := s.trace ++ [.dc .command, .cs .asserted], env := s.env.sent 1 }) ∧
    ∀ (sent later : List (Byte × List Byte)) (opcode : Byte) (data : List Byte),
      initFrames = sent ++ (opcode, data) :: later →
      (∀ n : Nat, s.operable → n < pollBudget s.config → s.idleAfter n →
        (s.linkRefusesAfter (1 + frameBytes sent) →
          exec .init s = .next { s with
            dc := .command, cs := .asserted, dead := true, status := .failed (.transportFailure (.linkWrite 0)),
            cycle := .idle, polls := n + 1,
            trace := s.trace ++
              (commandWindow 0x12 ++ waitTrace n ++ framesTrace sent ++ [.dc .command, .cs .asserted]),
            env := (s.env.sent (frameBytes sent + 2)).sampled (n + 1) }) ∧
        ∀ m < data.length, s.linkRefusesAfter (2 + frameBytes sent + m) →
          exec .init s = .next { s with
            dc := .data, cs := .asserted, dead := true, status := .failed (.transportFailure (.linkWrite m)),
            cycle := .idle, polls := n + 1,
            trace := s.trace ++
              (commandWindow 0x12 ++ waitTrace n ++ framesTrace sent ++ frameStopTrace opcode data m),
            env := (s.env.sent (frameBytes sent + m + 3)).sampled (n + 1) }) ∧
      (s.wait = some .init → (∀ rest, s.host ≠ .powerOn :: rest) → s.config.pollBound = .inf → s.env.busyAt 0 = false →
        (s.linkRefusesAfter (frameBytes sent) →
          step s = .next { s with
            wait := none, dc := .command, cs := .asserted, dead := true,
            status := .failed (.transportFailure (.linkWrite 0)), cycle := .idle, polls := s.polls + 1,
            trace := s.trace ++ (.busyq false :: framesTrace sent ++ [.dc .command, .cs .asserted]),
            env := (s.env.sent (frameBytes sent + 1)).sampled 1,
            host := (if s.stopAtFailure then [] else s.host) }) ∧
        ∀ m < data.length, s.linkRefusesAfter (1 + frameBytes sent + m) →
          step s = .next { s with
            wait := none, dc := .data, cs := .asserted, dead := true,
            status := .failed (.transportFailure (.linkWrite m)), cycle := .idle, polls := s.polls + 1,
            trace := s.trace ++ (.busyq false :: framesTrace sent ++ frameStopTrace opcode data m),
            env := (s.env.sent (frameBytes sent + m + 2)).sampled 1,
            host := (if s.stopAtFailure then [] else s.host) })

/-- 44_sequences.md R170 across a suspended wait (log 7): when the sample reads 0, INIT goes on with steps 2 to 5. -/
def Obligations.SuspendedInitGoesOn : Prop :=
  ∀ s : State, s.wait = some .init → (∀ rest, s.host ≠ .powerOn :: rest) → s.config.pollBound = .inf →
    s.env.busyAt 0 = false → s.linkAccepts 12 →
    step s = .next { s with
      wait := none, dc := .command, cs := .released, polls := s.polls + 1, cycle := .idle, status := .ok,
      trace := s.trace ++ (.busyq false :: scriptTrace), env := (s.env.sent 12).sampled 1 }

/-- 44_sequences.md R171, R175: WRITE_PLANE sends the plane's command and the whole of BUF, bulk or in the windows of CHUNK;
IDLE becomes PLANE_LOADED; BUF is not written. While CYCLE = BUSY it stays BUSY (log 15). -/
def Obligations.WritePlaneLoadsTheBuffer : Prop :=
  ∀ (plane : Plane) (s : State), s.operable → s.allows (sendMisuse s) → s.linkAccepts (1 + s.config.bufLen) →
    exec (.writePlane plane) s = .next { s with
      dc := .command, cs := .released, cycle := (if s.cycle = .idle then .planeLoaded else s.cycle), status := .ok,
      trace := s.trace ++ planeTrace s.config (match plane with | .bw => 0x24 | .red => 0x26) s.bufBytes,
      env := s.env.sent (1 + s.config.bufLen) }

/-- 44_sequences.md R175: whatever CHUNK is, the bytes sent by WRITE_PLANE are the command and the bytes of BUF in index
order, and the receiver reads them as one frame. -/
def Obligations.ChunkDoesNotChangeTheFrame : Prop :=
  ∀ (plane : Plane) (s : State), s.operable → s.allows (sendMisuse s) → s.linkAccepts (1 + s.config.bufLen) →
    ∃ t es, exec (.writePlane plane) s = .next t ∧ t.trace = s.trace ++ es ∧
      txBytes es = (planeCommand plane).value :: s.bufBytes ∧
      receive (sentBytes s.lines es) =
        { leading := [], frames := [{ opcode := (planeCommand plane).value, data := s.bufBytes }] }

/-- 44_sequences.md R171, R175, 40_transport.md R109: a refused byte stops WRITE_PLANE and CYCLE is unchanged: the command
byte, in either form; byte n of BUF in the bulk form (CHUNK = INF or BUFLEN <= CHUNK), inside the one data window; byte n
of BUF in the chunked form, inside the window that holds it, after the windows before it, with the index inside that
window. -/
def Obligations.WritePlaneStopsAtRefusedByte : Prop :=
  ∀ (plane : Plane) (s : State), s.operable → s.allows (sendMisuse s) →
    let opcode : Byte := match plane with | .bw => 0x24 | .red => 0x26
    (s.linkRefusesAfter 0 →
      exec (.writePlane plane) s = .next { s with
        dc := .command, cs := .asserted, dead := true, status := .failed (.transportFailure (.linkWrite 0)),
        trace := s.trace ++ [.dc .command, .cs .asserted], env := s.env.sent 1 }) ∧
    ∀ n < s.config.bufLen, s.linkRefusesAfter (1 + n) →
      (bulkForm s.config →
        exec (.writePlane plane) s = .next { s with
          dc := .data, cs := .asserted, dead := true, status := .failed (.transportFailure (.linkWrite n)),
          trace := s.trace ++ frameStopTrace opcode s.bufBytes n, env := s.env.sent (n + 2) }) ∧
      ∀ (k : Nat) (hk : 0 < k), s.config.chunk = .count k hk → k < s.config.bufLen →
        exec (.writePlane plane) s = .next { s with
          dc := .data, cs := .asserted, dead := true, status := .failed (.transportFailure (.linkWrite (n % k))),
          trace := s.trace ++ chunkStopTrace k opcode s.bufBytes n, env := s.env.sent (n + 2) }

/-- 44_sequences.md R172: REFRESH whose pre-check reads 0 sends 0x22 with TRIGGER_PAYLOAD, then 0x20, then waits; the
pre-check is not counted in POLLS; CYCLE ends IDLE. -/
def Obligations.RefreshTriggersAndWaits : Prop :=
  ∀ (plane : Plane) (n : Nat) (s : State), s.operable → s.env.busyAt 0 = false →
    s.linkAccepts (2 + (triggerPayload s.config plane).length) → n < pollBudget s.config →
    (∀ k < n, s.env.busyAt (1 + k) = true) → s.env.busyAt (1 + n) = false →
    exec (.refresh plane) s = .next { s with
      dc := .command, cs := .released, polls := n + 1, cycle := .idle, status := .ok,
      trace := s.trace ++ (.busyq false :: triggerTrace (triggerPayload s.config plane) ++ waitTrace n),
      env := (s.env.sent (2 + (triggerPayload s.config plane).length)).sampled (n + 2) }

/-- 42_sync.md R133: a refresh trigger while the line reads busy is rejected: one sample, nothing sent, CYCLE unchanged. -/
def Obligations.RefreshRejectedWhileBusy : Prop :=
  ∀ (plane : Plane) (s : State), s.operable → s.env.busyAt 0 = true →
    exec (.refresh plane) s = .next { s with
      status := .failed (.hardwareTimeout .triggerWhileBusy), trace := s.trace ++ [.busyq true],
      env := s.env.sampled 1 }

/-- 44_sequences.md R172, 60_exceptions.md R203: a REFRESH whose wait times out leaves CYCLE = BUSY and the lines at rest. -/
def Obligations.RefreshTimeoutLeavesBusy : Prop :=
  ∀ (plane : Plane) (b : Nat) (hb : 0 < b) (s : State), s.operable → s.config.pollBound = .count b hb →
    s.env.busyAt 0 = false → s.linkAccepts (2 + (triggerPayload s.config plane).length) →
    (∀ k < b, s.env.busyAt (1 + k) = true) →
    exec (.refresh plane) s = .next { s with
      dc := .command, cs := .released, polls := b, cycle := .busy,
      status := .failed (.hardwareTimeout (.pollBoundExceeded b)),
      trace := s.trace ++
        (.busyq false :: triggerTrace (triggerPayload s.config plane) ++ List.replicate b (.busyq true)),
      env := (s.env.sent (2 + (triggerPayload s.config plane).length)).sampled (b + 1) }

/-- 44_sequences.md R172, 40_transport.md R109: a REFRESH whose pre-check read 0 stops at the byte the link refuses, 0x22,
a byte of TRIGGER_PAYLOAD or 0x20, with Select asserted, and CYCLE does not become BUSY: it is IDLE if it was BUSY, from
the pre-check (42_sync.md R132), else unchanged. -/
def Obligations.RefreshStopsAtRefusedByte : Prop :=
  ∀ (plane : Plane) (s : State), s.operable → s.env.busyAt 0 = false →
    let payload := triggerPayload s.config plane
    let left : Cycle := if s.cycle = .busy then .idle else s.cycle
    (s.linkRefusesAfter 0 →
      exec (.refresh plane) s = .next { s with
        dc := .command, cs := .asserted, dead := true, status := .failed (.transportFailure (.linkWrite 0)),
        cycle := left, trace := s.trace ++ [.busyq false, .dc .command, .cs .asserted],
        env := (s.env.sent 1).sampled 1 }) ∧
    (∀ m < payload.length, s.linkRefusesAfter (1 + m) →
      exec (.refresh plane) s = .next { s with
        dc := .data, cs := .asserted, dead := true, status := .failed (.transportFailure (.linkWrite m)),
        cycle := left, trace := s.trace ++ (.busyq false :: frameStopTrace 0x22 payload m),
        env := (s.env.sent (m + 2)).sampled 1 }) ∧
    (s.linkRefusesAfter (1 + payload.length) →
      exec (.refresh plane) s = .next { s with
        dc := .command, cs := .asserted, dead := true, status := .failed (.transportFailure (.linkWrite 0)),
        cycle := left, trace := s.trace ++ (.busyq false :: frameTrace 0x22 payload ++ [.dc .command, .cs .asserted]),
        env := (s.env.sent (2 + payload.length)).sampled 1 })

/-- 42_sync.md R132: the transitions of CYCLE, and that no other instruction moves it. -/
def Obligations.CycleMovesByItsTable : Prop :=
  ∀ (i : Instr) (s t : State), exec i s = .next t → t.cycle ≠ s.cycle →
    (∃ p, i = .writePlane p ∧ s.cycle = .idle ∧ t.cycle = .planeLoaded) ∨
    (∃ p, i = .refresh p ∧ (t.cycle = .idle ∨ t.cycle = .busy)) ∨
    (i = .waitIdle ∧ s.cycle = .busy ∧ t.cycle = .idle) ∨ (i = .init ∧ t.cycle = .idle) ∨
    (i = .pulseReset ∧ t.cycle = .idle)

/-! ## The pixel buffer -/

/-- 45_pixel_buffer.md R193: the address computation, its bounds check, and that the index is always below BUFLEN. PB_SET
and PB_GET outside the geometry raise OutOfBounds with the coordinates recorded and touch nothing else (60_exceptions.md
R202). -/
def Obligations.PixelAddressIsBoundsChecked : Prop :=
  ∀ (x y : Int) (s : State), s.ready = true → LegalGeometry s.config →
    (x < 0 ∨ (s.config.width : Int) ≤ x ∨ y < 0 ∨ (s.config.height : Int) ≤ y →
      (∀ b, exec (.pbSet x y b) s = .next { s with status := .failed (.outOfBounds x y) }) ∧
      exec (.pbGet x y) s = .next { s with status := .failed (.outOfBounds x y) }) ∧
    (0 ≤ x → x < s.config.width → 0 ≤ y → y < s.config.height →
      ∃ p, pixelPlace s.config x y = some p ∧ (p.index : Int) = y / 8 * s.config.width + x ∧ (p.bit : Int) = y % 8 ∧
        p.index < s.config.bufLen ∧ p.bit < 8)

/-- 45_pixel_buffer.md R190: PB_CLEAR writes every byte of BUF, whatever value; afterwards every pixel reads bit `y mod 8`
of the value; BUFLEN and everything else is unchanged. -/
def Obligations.ClearFillsTheBuffer : Prop :=
  (∀ ports, decode (.req 0xC0 ports) = .instr (.pbClear ports.value)) ∧
  ∀ (value : Byte) (s : State), s.ready = true → LegalGeometry s.config → Memory.wf s.buf = true →
    ∃ t, exec (.pbClear value) s = .next t ∧ t = { s with buf := t.buf, status := .ok } ∧
      (∀ i, t.bufRead i = if i < s.config.bufLen then some value else none) ∧
      ∀ x y : Int, 0 ≤ x → x < s.config.width → 0 ≤ y → y < s.config.height →
        exec (.pbGet x y) t = .next { t with result := value.getLsbD (y % 8).toNat }

/-- 45_pixel_buffer.md R191: PB_SET writes one bit of one byte; the other seven bits, every other byte and everything else
are unchanged, setting a pixel to the value it has changes nothing, and the pixel then reads back. Outside the geometry it
raises OutOfBounds and BUF is unchanged. -/
def Obligations.SetWritesOnePixel : Prop :=
  (∀ ports, decode (.req 0xC1 ports) = .instr (.pbSet ports.x ports.y ports.bit)) ∧
  ∀ (x y : Int) (b : Bit) (s : State), s.ready = true → LegalGeometry s.config → Memory.wf s.buf = true →
    (x < 0 ∨ (s.config.width : Int) ≤ x ∨ y < 0 ∨ (s.config.height : Int) ≤ y →
      exec (.pbSet x y b) s = .next { s with status := .failed (.outOfBounds x y) }) ∧
    (0 ≤ x → x < s.config.width → 0 ≤ y → y < s.config.height →
      ∃ t, exec (.pbSet x y b) s = .next t ∧ t = { s with buf := t.buf, status := .ok } ∧
        (∀ i : Nat, (i : Int) ≠ y / 8 * s.config.width + x → t.bufRead i = s.bufRead i) ∧
        (∃ old new, s.bufRead (y / 8 * s.config.width + x).toNat = some old ∧
          t.bufRead (y / 8 * s.config.width + x).toNat = some new ∧
          (∀ k < 8, new.getLsbD k = if (k : Int) = y % 8 then b else old.getLsbD k) ∧
          (old.getLsbD (y % 8).toNat = b → t.buf = s.buf)) ∧
        exec (.pbGet x y) t = .next { t with result := b })

/-- 45_pixel_buffer.md R192: PB_GET returns one bit of one byte on RESULT and changes nothing else but STATUS; after a
PB_CLEAR it returns bit `y mod 8` of the value. Outside the geometry it raises OutOfBounds. -/
def Obligations.GetReadsOnePixel : Prop :=
  (∀ ports, decode (.req 0xC2 ports) = .instr (.pbGet ports.x ports.y)) ∧
  ∀ (x y : Int) (s : State), s.ready = true → LegalGeometry s.config →
    (x < 0 ∨ (s.config.width : Int) ≤ x ∨ y < 0 ∨ (s.config.height : Int) ≤ y →
      exec (.pbGet x y) s = .next { s with status := .failed (.outOfBounds x y) }) ∧
    (0 ≤ x → x < s.config.width → 0 ≤ y → y < s.config.height →
      exec (.pbGet x y) s = .next { s with
        result := (Memory.read s.buf (y / 8 * s.config.width + x).toNat).getLsbD (y % 8).toNat, status := .ok } ∧
      ∀ (value : Byte) (t : State), Memory.wf s.buf = true → exec (.pbClear value) s = .next t →
        exec (.pbGet x y) t = .next { t with result := value.getLsbD (y % 8).toNat })

/-- 45_pixel_buffer.md R191 and 95_test_vectors.md X2: setting one pixel leaves every other pixel as it was. -/
def Obligations.SetLeavesOtherPixels : Prop :=
  ∀ (x y x' y' : Int) (b v : Bit) (s t : State), LegalGeometry s.config → Memory.wf s.buf = true →
    exec (.pbGet x' y') s = .next { s with result := v, status := .ok } → exec (.pbSet x y b) s = .next t →
    (x', y') ≠ (x, y) → exec (.pbGet x' y') t = .next { t with result := v, status := .ok }

/-- 45_pixel_buffer.md R194: only PB_CLEAR, PB_SET and construction write BUF: no other instruction changes it. -/
def Obligations.OnlyClearAndSetWriteBuffer : Prop :=
  ∀ (i : Instr) (s t : State), (∀ v, i ≠ .pbClear v) → (∀ x y b, i ≠ .pbSet x y b) → exec i s = .next t →
    t.buf = s.buf ∧ ∀ a, t.bufRead a = s.bufRead a

/-! ## Construction and configuration -/

/-- 60_exceptions.md R201, 70_reset_and_hazards.md R231: the causes of ConfigurationError and their order, and that it
changes nothing but STATUS. -/
def Obligations.ConstructionChecksInOrder : Prop :=
  ∀ (c : Construction) (s : State), s.ready = false →
    let missing := c.link = none ∨ c.pinDc = none ∨ c.pinCs = none ∨ c.pinRst = none ∨ c.pinBusy = none ∨
      c.width = none ∨ c.height = none
    let zero := c.width = some 0 ∨ c.height = some 0
    let ragged := ∃ h, c.height = some h ∧ h % 8 ≠ 0
    let fails := fun cause => construct c s = .next { s with status := .failed (.configurationError cause) }
    (missing → fails .missingParameter) ∧ (¬ missing → zero → fails .zeroDimension) ∧
    (¬ missing → ¬ zero → ragged → fails .heightNotMultipleOf8) ∧
    (¬ missing → ¬ zero → ¬ ragged → ∃ t, construct c s = .next t ∧ t.ready = true ∧
      t.config.width = c.width.getD 0 ∧ t.config.height = c.height.getD 0 ∧ LegalGeometry t.config ∧
      t.config.toOptions = c.toOptions ∧ ∀ i, t.bufRead i = if i < t.config.bufLen then some 0 else none)

/-- 70_reset_and_hazards.md R231, 95_test_vectors.md P2: construction appends the Reset pulse if CONSTRUCT_PULSES_RESET is
true and none if it is false, then the script of INIT, and leaves the block constructed and at rest. -/
def Obligations.ConstructionPulsesAndInitialises : Prop :=
  ∀ (c : Construction) (p : Parameters) (n : Nat) (s : State), s.ready = false → s.dead = false →
    checkConstruction c = .ok p → s.linkAccepts 13 → n < pollBudget p → s.idleAfter n →
    construct c s = .next { s with
      config := p, buf := [], ready := true, rst := (if p.constructPulsesReset then true else s.rst),
      dc := .command, cs := .released, polls := n + 1, cycle := .idle, status := .ok,
      trace := s.trace ++ ((if p.constructPulsesReset then [.rst false, .rst true] else []) ++ commandWindow 0x12 ++
        waitTrace n ++ scriptTrace),
      env := (s.env.sent 13).sampled (n + 1) }

/-- 00_scope.md R5, 10_state.md R29, R30: once the block is constructed, no step but a power-on reset changes the
configuration or READY. -/
def Obligations.ConfigurationNeverChanges : Prop :=
  ∀ s t : State, s.ready = true → (∀ rest, s.host ≠ .powerOn :: rest) → step s = .next t →
    t.ready = true ∧ t.config = s.config

/-! ## STATUS, the trace and the wire -/

/-- 60_exceptions.md R205: the codes of STATUS. -/
def Obligations.StatusCodesAreTheTable : Prop :=
  Status.ok.code = (0, none) ∧
  (Status.failed (.configurationError .zeroDimension)).code = (1, some 1) ∧
  (Status.failed (.configurationError .heightNotMultipleOf8)).code = (1, some 2) ∧
  (Status.failed (.configurationError .missingParameter)).code = (1, some 3) ∧
  (∀ x y, (Status.failed (.outOfBounds x y)).code = (2, some 1)) ∧
  (∀ n, (Status.failed (.hardwareTimeout (.pollBoundExceeded n))).code = (3, some 1)) ∧
  (Status.failed (.hardwareTimeout .triggerWhileBusy)).code = (3, some 2) ∧
  (∀ n, (Status.failed (.transportFailure (.linkWrite n))).code = (4, some 1)) ∧
  (Status.failed (.transportFailure .dead)).code = (4, some 2)

/-- 60_exceptions.md R206: which instruction can raise which failure. An instruction that has ended (no wait suspended) left
STATUS at OK or at a failure of its row. -/
def Obligations.InstructionsRaiseOnlyTheirFailures : Prop :=
  ∀ (i : Instr) (s t : State) (f : Failure), exec i s = .next t → t.wait = none → t.status = .failed f →
    match f with
    | .configurationError _ => False
    | .outOfBounds x y => (∃ b, i = .pbSet x y b) ∨ i = .pbGet x y
    | .hardwareTimeout (.pollBoundExceeded _) => i = .waitIdle ∨ i = .init ∨ ∃ p, i = .refresh p
    | .hardwareTimeout .triggerWhileBusy => ∃ p, i = .refresh p
    | .transportFailure (.linkWrite _) =>
      (∃ d, i = .write d) ∨ (∃ op d, i = .sendCommand op d) ∨ (∃ d, i = .sendData d) ∨ i = .init ∨
        (∃ p, i = .writePlane p) ∨ (∃ p, i = .refresh p) ∨ ∃ plane payload c, i = Instr.ofCommand plane payload c
    | .transportFailure .dead => s.dead = true ∧ (∀ v, i ≠ .pbClear v) ∧ (∀ x y b, i ≠ .pbSet x y b) ∧ ∀ x y, i ≠ .pbGet x y

/-- 20_memory.md R60, 00_scope.md R8: an instruction only appends to the trace, and the latches move by what it records and
by nothing else. -/
def Obligations.TraceOnlyGrowsAndMovesLatches : Prop :=
  ∀ (i : Instr) (s t : State), exec i s = .next t →
    ∃ es, t.trace = s.trace ++ es ∧ t.lines = s.lines.afterAll es

/-- 10_state.md R23: only PULSE_RESET writes the Reset latch: no other instruction assigns or moves it. -/
def Obligations.OnlyPulseResetWritesReset : Prop :=
  ∀ (i : Instr) (s t : State), i ≠ .pulseReset → exec i s = .next t →
    t.rst = s.rst ∧ ∃ es, t.trace = s.trace ++ es ∧ ∀ b, Event.rst b ∉ es

/-- 00_scope.md R8: the wire view keeps every event in its place but the latch assignments that repeat the value they meet,
TX and BUSYQ always; so no assignment of it repeats a latch's value, it ends in the same latches, carries the same bytes in
the same modes, and is its own wire view. -/
def Obligations.WireViewLosesNothing : Prop :=
  ∀ (l : Lines) (es : List Event),
    wireView l [] = [] ∧
    (∀ (pre post : List Event) (e : Event), es = pre ++ e :: post →
      let here := l.afterAll pre
      wireView l es = wireView l pre ++
        (if e = .dc here.dc ∨ e = .cs here.cs ∨ e = .rst here.rst then [] else [e]) ++ wireView (here.after e) post) ∧
    (∀ (pre post : List Event) (e : Event), wireView l es = pre ++ e :: post →
      let here := l.afterAll pre
      e ≠ .dc here.dc ∧ e ≠ .cs here.cs ∧ e ≠ .rst here.rst) ∧
    l.afterAll (wireView l es) = l.afterAll es ∧ sentBytes l (wireView l es) = sentBytes l es ∧
    wireView l (wireView l es) = wireView l es

/-! ## How construction ends, and the windows of a chunked plane write -/

/-- 70_reset_and_hazards.md R231, and the construction row of 60_exceptions.md R206: after its checks construction is the
Reset pulse (or none), then INIT, whose end is its end, whichever it is; READY is true and the configuration written in
every case. So, exactly: INIT timed out, INIT stopped at a refused 0x12, and INIT suspended for itself by an unbounded wait
(log 7). A step performs the construction the host asks for, and refuses a second one: R231's "it runs once per power-on
reset"; that it is an input and that the second is refused is the model's (log 12), the host's stop after a failure log
16. -/
def Obligations.ConstructionEndsAsItsInit : Prop :=
  (∀ (c : Construction) (p : Parameters) (s : State), s.ready = false → s.dead = false → checkConstruction c = .ok p →
    let pulse : List Event := if p.constructPulsesReset then [.rst false, .rst true] else []
    let block : State := { s with
      config := p, buf := [], ready := true, rst := (if p.constructPulsesReset then true else s.rst),
      cycle := (if p.constructPulsesReset then .idle else s.cycle),
      status := (if p.constructPulsesReset then .ok else s.status), trace := s.trace ++ pulse }
    construct c s = exec .init block ∧
    (∃ t, construct c s = .next t ∧ t.ready = true ∧ t.config = p) ∧
    (∀ (b : Nat) (hb : 0 < b), p.pollBound = .count b hb → s.linkAccepts 1 → s.busyFor b →
      construct c s = .next { block with
        dc := .command, cs := .released, polls := b, status := .failed (.hardwareTimeout (.pollBoundExceeded b)),
        trace := s.trace ++ (pulse ++ commandWindow 0x12 ++ List.replicate b (.busyq true)),
        env := (s.env.sent 1).sampled b }) ∧
    (s.linkRefusesAfter 0 →
      construct c s = .next { block with
        dc := .command, cs := .asserted, dead := true, status := .failed (.transportFailure (.linkWrite 0)),
        trace := s.trace ++ (pulse ++ [.dc .command, .cs .asserted]), env := s.env.sent 1 }) ∧
    (p.pollBound = .inf → s.linkAccepts 1 → s.env.busyAt 0 = true →
      construct c s = .next { block with
        dc := .command, cs := .released, status := .ok, polls := 1, wait := some .init,
        trace := s.trace ++ (pulse ++ commandWindow 0x12 ++ [.busyq true]), env := (s.env.sent 1).sampled 1 })) ∧
  ∀ (s : State) (c : Construction) (rest : List HostInput), s.wait = none → s.host = .construct c :: rest →
    (s.ready = true → construct c s = .refused .alreadyConstructed ∧ step s = .refused .alreadyConstructed) ∧
    (s.ready = false → ∃ t, construct c (s.withHost rest) = .next t ∧
      step s = .next (if t.stopAtFailure = true ∧ t.wait = none ∧ t.status ≠ .ok then t.withHost [] else t))

/-- 44_sequences.md R171, R175: a plane write is chunked exactly where CHUNK is a number below BUFLEN (so BUFLEN = CHUNK is
bulk), and its windows partition the bytes: one after another they are the bytes, there are ceil(length / k) of them, and
window t holds the bytes from index t * k on, k of them, the last window those that are left, none of them empty. -/
def Obligations.ChunkWindowsPartitionTheBuffer : Prop :=
  (∀ c : Parameters,
    (c.chunk = .inf → chunkSize c = none) ∧
    ∀ (k : Nat) (hk : 0 < k), c.chunk = .count k hk →
      (c.bufLen ≤ k → chunkSize c = none) ∧ (k < c.bufLen → chunkSize c = some k)) ∧
  ∀ (k : Nat) (bytes : List Byte), 0 < k →
    (windows k bytes).flatten = bytes ∧
    bytes.length ≤ (windows k bytes).length * k ∧ (windows k bytes).length * k < bytes.length + k ∧
    ∀ t < (windows k bytes).length, ∃ w, (windows k bytes)[t]? = some w ∧ w.length = min k (bytes.length - t * k) ∧
      0 < w.length ∧ ∀ i < w.length, w[i]? = bytes[t * k + i]?
end

