-- ==== Sys2Proof/Laws/State.lean ====
section
/-! SUPPORT. One lemma per field per update of State, so that no proof unfolds a record update. -/

namespace Sys2Proof.Machine

@[simp] theorem State.emit_dc (e : Event) (s : State) : (State.emit e s).dc = s.dc := rfl
@[simp] theorem State.emit_cs (e : Event) (s : State) : (State.emit e s).cs = s.cs := rfl
@[simp] theorem State.emit_rst (e : Event) (s : State) : (State.emit e s).rst = s.rst := rfl
@[simp] theorem State.emit_cycle (e : Event) (s : State) : (State.emit e s).cycle = s.cycle := rfl
@[simp] theorem State.emit_status (e : Event) (s : State) : (State.emit e s).status = s.status := rfl
@[simp] theorem State.emit_result (e : Event) (s : State) : (State.emit e s).result = s.result := rfl
@[simp] theorem State.emit_dead (e : Event) (s : State) : (State.emit e s).dead = s.dead := rfl
@[simp] theorem State.emit_ready (e : Event) (s : State) : (State.emit e s).ready = s.ready := rfl
@[simp] theorem State.emit_polls (e : Event) (s : State) : (State.emit e s).polls = s.polls := rfl
@[simp] theorem State.emit_config (e : Event) (s : State) : (State.emit e s).config = s.config := rfl
@[simp] theorem State.emit_buf (e : Event) (s : State) : (State.emit e s).buf = s.buf := rfl
@[simp] theorem State.emit_trace (e : Event) (s : State) : (State.emit e s).trace = s.trace ++ [e] := rfl
@[simp] theorem State.emit_env (e : Event) (s : State) : (State.emit e s).env = s.env := rfl
@[simp] theorem State.emit_host (e : Event) (s : State) : (State.emit e s).host = s.host := rfl
@[simp] theorem State.emit_stopAtFailure (e : Event) (s : State) : (State.emit e s).stopAtFailure = s.stopAtFailure := rfl
@[simp] theorem State.emit_wait (e : Event) (s : State) : (State.emit e s).wait = s.wait := rfl

@[simp] theorem State.assignDc_dc (m : DcMode) (s : State) : (State.assignDc m s).dc = m := rfl
@[simp] theorem State.assignDc_cs (m : DcMode) (s : State) : (State.assignDc m s).cs = s.cs := rfl
@[simp] theorem State.assignDc_rst (m : DcMode) (s : State) : (State.assignDc m s).rst = s.rst := rfl
@[simp] theorem State.assignDc_cycle (m : DcMode) (s : State) : (State.assignDc m s).cycle = s.cycle := rfl
@[simp] theorem State.assignDc_status (m : DcMode) (s : State) : (State.assignDc m s).status = s.status := rfl
@[simp] theorem State.assignDc_result (m : DcMode) (s : State) : (State.assignDc m s).result = s.result := rfl
@[simp] theorem State.assignDc_dead (m : DcMode) (s : State) : (State.assignDc m s).dead = s.dead := rfl
@[simp] theorem State.assignDc_ready (m : DcMode) (s : State) : (State.assignDc m s).ready = s.ready := rfl
@[simp] theorem State.assignDc_polls (m : DcMode) (s : State) : (State.assignDc m s).polls = s.polls := rfl
@[simp] theorem State.assignDc_config (m : DcMode) (s : State) : (State.assignDc m s).config = s.config := rfl
@[simp] theorem State.assignDc_buf (m : DcMode) (s : State) : (State.assignDc m s).buf = s.buf := rfl
@[simp] theorem State.assignDc_trace (m : DcMode) (s : State) : (State.assignDc m s).trace = s.trace ++ [.dc m] := rfl
@[simp] theorem State.assignDc_env (m : DcMode) (s : State) : (State.assignDc m s).env = s.env := rfl
@[simp] theorem State.assignDc_host (m : DcMode) (s : State) : (State.assignDc m s).host = s.host := rfl
@[simp] theorem State.assignDc_stopAtFailure (m : DcMode) (s : State) : (State.assignDc m s).stopAtFailure = s.stopAtFailure := rfl
@[simp] theorem State.assignDc_wait (m : DcMode) (s : State) : (State.assignDc m s).wait = s.wait := rfl

@[simp] theorem State.assignCs_dc (v : Select) (s : State) : (State.assignCs v s).dc = s.dc := rfl
@[simp] theorem State.assignCs_cs (v : Select) (s : State) : (State.assignCs v s).cs = v := rfl
@[simp] theorem State.assignCs_rst (v : Select) (s : State) : (State.assignCs v s).rst = s.rst := rfl
@[simp] theorem State.assignCs_cycle (v : Select) (s : State) : (State.assignCs v s).cycle = s.cycle := rfl
@[simp] theorem State.assignCs_status (v : Select) (s : State) : (State.assignCs v s).status = s.status := rfl
@[simp] theorem State.assignCs_result (v : Select) (s : State) : (State.assignCs v s).result = s.result := rfl
@[simp] theorem State.assignCs_dead (v : Select) (s : State) : (State.assignCs v s).dead = s.dead := rfl
@[simp] theorem State.assignCs_ready (v : Select) (s : State) : (State.assignCs v s).ready = s.ready := rfl
@[simp] theorem State.assignCs_polls (v : Select) (s : State) : (State.assignCs v s).polls = s.polls := rfl
@[simp] theorem State.assignCs_config (v : Select) (s : State) : (State.assignCs v s).config = s.config := rfl
@[simp] theorem State.assignCs_buf (v : Select) (s : State) : (State.assignCs v s).buf = s.buf := rfl
@[simp] theorem State.assignCs_trace (v : Select) (s : State) : (State.assignCs v s).trace = s.trace ++ [.cs v] := rfl
@[simp] theorem State.assignCs_env (v : Select) (s : State) : (State.assignCs v s).env = s.env := rfl
@[simp] theorem State.assignCs_host (v : Select) (s : State) : (State.assignCs v s).host = s.host := rfl
@[simp] theorem State.assignCs_stopAtFailure (v : Select) (s : State) : (State.assignCs v s).stopAtFailure = s.stopAtFailure := rfl
@[simp] theorem State.assignCs_wait (v : Select) (s : State) : (State.assignCs v s).wait = s.wait := rfl

@[simp] theorem State.assignRst_dc (level : Bit) (s : State) : (State.assignRst level s).dc = s.dc := rfl
@[simp] theorem State.assignRst_cs (level : Bit) (s : State) : (State.assignRst level s).cs = s.cs := rfl
@[simp] theorem State.assignRst_rst (level : Bit) (s : State) : (State.assignRst level s).rst = level := rfl
@[simp] theorem State.assignRst_cycle (level : Bit) (s : State) : (State.assignRst level s).cycle = s.cycle := rfl
@[simp] theorem State.assignRst_status (level : Bit) (s : State) : (State.assignRst level s).status = s.status := rfl
@[simp] theorem State.assignRst_result (level : Bit) (s : State) : (State.assignRst level s).result = s.result := rfl
@[simp] theorem State.assignRst_dead (level : Bit) (s : State) : (State.assignRst level s).dead = s.dead := rfl
@[simp] theorem State.assignRst_ready (level : Bit) (s : State) : (State.assignRst level s).ready = s.ready := rfl
@[simp] theorem State.assignRst_polls (level : Bit) (s : State) : (State.assignRst level s).polls = s.polls := rfl
@[simp] theorem State.assignRst_config (level : Bit) (s : State) : (State.assignRst level s).config = s.config := rfl
@[simp] theorem State.assignRst_buf (level : Bit) (s : State) : (State.assignRst level s).buf = s.buf := rfl
@[simp] theorem State.assignRst_trace (level : Bit) (s : State) : (State.assignRst level s).trace = s.trace ++ [.rst level] := rfl
@[simp] theorem State.assignRst_env (level : Bit) (s : State) : (State.assignRst level s).env = s.env := rfl
@[simp] theorem State.assignRst_host (level : Bit) (s : State) : (State.assignRst level s).host = s.host := rfl
@[simp] theorem State.assignRst_stopAtFailure (level : Bit) (s : State) : (State.assignRst level s).stopAtFailure = s.stopAtFailure := rfl
@[simp] theorem State.assignRst_wait (level : Bit) (s : State) : (State.assignRst level s).wait = s.wait := rfl

@[simp] theorem State.setOk_dc (s : State) : (State.setOk s).dc = s.dc := rfl
@[simp] theorem State.setOk_cs (s : State) : (State.setOk s).cs = s.cs := rfl
@[simp] theorem State.setOk_rst (s : State) : (State.setOk s).rst = s.rst := rfl
@[simp] theorem State.setOk_cycle (s : State) : (State.setOk s).cycle = s.cycle := rfl
@[simp] theorem State.setOk_status (s : State) : (State.setOk s).status = .ok := rfl
@[simp] theorem State.setOk_result (s : State) : (State.setOk s).result = s.result := rfl
@[simp] theorem State.setOk_dead (s : State) : (State.setOk s).dead = s.dead := rfl
@[simp] theorem State.setOk_ready (s : State) : (State.setOk s).ready = s.ready := rfl
@[simp] theorem State.setOk_polls (s : State) : (State.setOk s).polls = s.polls := rfl
@[simp] theorem State.setOk_config (s : State) : (State.setOk s).config = s.config := rfl
@[simp] theorem State.setOk_buf (s : State) : (State.setOk s).buf = s.buf := rfl
@[simp] theorem State.setOk_trace (s : State) : (State.setOk s).trace = s.trace := rfl
@[simp] theorem State.setOk_env (s : State) : (State.setOk s).env = s.env := rfl
@[simp] theorem State.setOk_host (s : State) : (State.setOk s).host = s.host := rfl
@[simp] theorem State.setOk_stopAtFailure (s : State) : (State.setOk s).stopAtFailure = s.stopAtFailure := rfl
@[simp] theorem State.setOk_wait (s : State) : (State.setOk s).wait = s.wait := rfl

@[simp] theorem State.setCycle_dc (c : Cycle) (s : State) : (State.setCycle c s).dc = s.dc := rfl
@[simp] theorem State.setCycle_cs (c : Cycle) (s : State) : (State.setCycle c s).cs = s.cs := rfl
@[simp] theorem State.setCycle_rst (c : Cycle) (s : State) : (State.setCycle c s).rst = s.rst := rfl
@[simp] theorem State.setCycle_cycle (c : Cycle) (s : State) : (State.setCycle c s).cycle = c := rfl
@[simp] theorem State.setCycle_status (c : Cycle) (s : State) : (State.setCycle c s).status = s.status := rfl
@[simp] theorem State.setCycle_result (c : Cycle) (s : State) : (State.setCycle c s).result = s.result := rfl
@[simp] theorem State.setCycle_dead (c : Cycle) (s : State) : (State.setCycle c s).dead = s.dead := rfl
@[simp] theorem State.setCycle_ready (c : Cycle) (s : State) : (State.setCycle c s).ready = s.ready := rfl
@[simp] theorem State.setCycle_polls (c : Cycle) (s : State) : (State.setCycle c s).polls = s.polls := rfl
@[simp] theorem State.setCycle_config (c : Cycle) (s : State) : (State.setCycle c s).config = s.config := rfl
@[simp] theorem State.setCycle_buf (c : Cycle) (s : State) : (State.setCycle c s).buf = s.buf := rfl
@[simp] theorem State.setCycle_trace (c : Cycle) (s : State) : (State.setCycle c s).trace = s.trace := rfl
@[simp] theorem State.setCycle_env (c : Cycle) (s : State) : (State.setCycle c s).env = s.env := rfl
@[simp] theorem State.setCycle_host (c : Cycle) (s : State) : (State.setCycle c s).host = s.host := rfl
@[simp] theorem State.setCycle_stopAtFailure (c : Cycle) (s : State) : (State.setCycle c s).stopAtFailure = s.stopAtFailure := rfl
@[simp] theorem State.setCycle_wait (c : Cycle) (s : State) : (State.setCycle c s).wait = s.wait := rfl

@[simp] theorem State.setResult_dc (v : Bit) (s : State) : (State.setResult v s).dc = s.dc := rfl
@[simp] theorem State.setResult_cs (v : Bit) (s : State) : (State.setResult v s).cs = s.cs := rfl
@[simp] theorem State.setResult_rst (v : Bit) (s : State) : (State.setResult v s).rst = s.rst := rfl
@[simp] theorem State.setResult_cycle (v : Bit) (s : State) : (State.setResult v s).cycle = s.cycle := rfl
@[simp] theorem State.setResult_status (v : Bit) (s : State) : (State.setResult v s).status = s.status := rfl
@[simp] theorem State.setResult_result (v : Bit) (s : State) : (State.setResult v s).result = v := rfl
@[simp] theorem State.setResult_dead (v : Bit) (s : State) : (State.setResult v s).dead = s.dead := rfl
@[simp] theorem State.setResult_ready (v : Bit) (s : State) : (State.setResult v s).ready = s.ready := rfl
@[simp] theorem State.setResult_polls (v : Bit) (s : State) : (State.setResult v s).polls = s.polls := rfl
@[simp] theorem State.setResult_config (v : Bit) (s : State) : (State.setResult v s).config = s.config := rfl
@[simp] theorem State.setResult_buf (v : Bit) (s : State) : (State.setResult v s).buf = s.buf := rfl
@[simp] theorem State.setResult_trace (v : Bit) (s : State) : (State.setResult v s).trace = s.trace := rfl
@[simp] theorem State.setResult_env (v : Bit) (s : State) : (State.setResult v s).env = s.env := rfl
@[simp] theorem State.setResult_host (v : Bit) (s : State) : (State.setResult v s).host = s.host := rfl
@[simp] theorem State.setResult_stopAtFailure (v : Bit) (s : State) : (State.setResult v s).stopAtFailure = s.stopAtFailure := rfl
@[simp] theorem State.setResult_wait (v : Bit) (s : State) : (State.setResult v s).wait = s.wait := rfl

@[simp] theorem State.setPolls_dc (n : Nat) (s : State) : (State.setPolls n s).dc = s.dc := rfl
@[simp] theorem State.setPolls_cs (n : Nat) (s : State) : (State.setPolls n s).cs = s.cs := rfl
@[simp] theorem State.setPolls_rst (n : Nat) (s : State) : (State.setPolls n s).rst = s.rst := rfl
@[simp] theorem State.setPolls_cycle (n : Nat) (s : State) : (State.setPolls n s).cycle = s.cycle := rfl
@[simp] theorem State.setPolls_status (n : Nat) (s : State) : (State.setPolls n s).status = s.status := rfl
@[simp] theorem State.setPolls_result (n : Nat) (s : State) : (State.setPolls n s).result = s.result := rfl
@[simp] theorem State.setPolls_dead (n : Nat) (s : State) : (State.setPolls n s).dead = s.dead := rfl
@[simp] theorem State.setPolls_ready (n : Nat) (s : State) : (State.setPolls n s).ready = s.ready := rfl
@[simp] theorem State.setPolls_polls (n : Nat) (s : State) : (State.setPolls n s).polls = n := rfl
@[simp] theorem State.setPolls_config (n : Nat) (s : State) : (State.setPolls n s).config = s.config := rfl
@[simp] theorem State.setPolls_buf (n : Nat) (s : State) : (State.setPolls n s).buf = s.buf := rfl
@[simp] theorem State.setPolls_trace (n : Nat) (s : State) : (State.setPolls n s).trace = s.trace := rfl
@[simp] theorem State.setPolls_env (n : Nat) (s : State) : (State.setPolls n s).env = s.env := rfl
@[simp] theorem State.setPolls_host (n : Nat) (s : State) : (State.setPolls n s).host = s.host := rfl
@[simp] theorem State.setPolls_stopAtFailure (n : Nat) (s : State) : (State.setPolls n s).stopAtFailure = s.stopAtFailure := rfl
@[simp] theorem State.setPolls_wait (n : Nat) (s : State) : (State.setPolls n s).wait = s.wait := rfl

@[simp] theorem State.raised_dc (f : Failure) (s : State) : (State.raised f s).dc = s.dc := rfl
@[simp] theorem State.raised_cs (f : Failure) (s : State) : (State.raised f s).cs = s.cs := rfl
@[simp] theorem State.raised_rst (f : Failure) (s : State) : (State.raised f s).rst = s.rst := rfl
@[simp] theorem State.raised_cycle (f : Failure) (s : State) : (State.raised f s).cycle = s.cycle := rfl
@[simp] theorem State.raised_status (f : Failure) (s : State) : (State.raised f s).status = .failed f := rfl
@[simp] theorem State.raised_result (f : Failure) (s : State) : (State.raised f s).result = s.result := rfl
@[simp] theorem State.raised_dead (f : Failure) (s : State) : (State.raised f s).dead = s.dead := rfl
@[simp] theorem State.raised_ready (f : Failure) (s : State) : (State.raised f s).ready = s.ready := rfl
@[simp] theorem State.raised_polls (f : Failure) (s : State) : (State.raised f s).polls = s.polls := rfl
@[simp] theorem State.raised_config (f : Failure) (s : State) : (State.raised f s).config = s.config := rfl
@[simp] theorem State.raised_buf (f : Failure) (s : State) : (State.raised f s).buf = s.buf := rfl
@[simp] theorem State.raised_trace (f : Failure) (s : State) : (State.raised f s).trace = s.trace := rfl
@[simp] theorem State.raised_env (f : Failure) (s : State) : (State.raised f s).env = s.env := rfl
@[simp] theorem State.raised_host (f : Failure) (s : State) : (State.raised f s).host = s.host := rfl
@[simp] theorem State.raised_stopAtFailure (f : Failure) (s : State) : (State.raised f s).stopAtFailure = s.stopAtFailure := rfl
@[simp] theorem State.raised_wait (f : Failure) (s : State) : (State.raised f s).wait = s.wait := rfl

@[simp] theorem State.sampleBusy_dc (s : State) : (State.sampleBusy s).dc = s.dc := rfl
@[simp] theorem State.sampleBusy_cs (s : State) : (State.sampleBusy s).cs = s.cs := rfl
@[simp] theorem State.sampleBusy_rst (s : State) : (State.sampleBusy s).rst = s.rst := rfl
@[simp] theorem State.sampleBusy_cycle (s : State) : (State.sampleBusy s).cycle = s.cycle := rfl
@[simp] theorem State.sampleBusy_status (s : State) : (State.sampleBusy s).status = s.status := rfl
@[simp] theorem State.sampleBusy_result (s : State) : (State.sampleBusy s).result = s.result := rfl
@[simp] theorem State.sampleBusy_dead (s : State) : (State.sampleBusy s).dead = s.dead := rfl
@[simp] theorem State.sampleBusy_ready (s : State) : (State.sampleBusy s).ready = s.ready := rfl
@[simp] theorem State.sampleBusy_polls (s : State) : (State.sampleBusy s).polls = s.polls := rfl
@[simp] theorem State.sampleBusy_config (s : State) : (State.sampleBusy s).config = s.config := rfl
@[simp] theorem State.sampleBusy_buf (s : State) : (State.sampleBusy s).buf = s.buf := rfl
@[simp] theorem State.sampleBusy_trace (s : State) : (State.sampleBusy s).trace = s.trace ++ [.busyq s.busyNow] := rfl
@[simp] theorem State.sampleBusy_env (s : State) : (State.sampleBusy s).env = s.env.sampled 1 := rfl
@[simp] theorem State.sampleBusy_host (s : State) : (State.sampleBusy s).host = s.host := rfl
@[simp] theorem State.sampleBusy_stopAtFailure (s : State) : (State.sampleBusy s).stopAtFailure = s.stopAtFailure := rfl
@[simp] theorem State.sampleBusy_wait (s : State) : (State.sampleBusy s).wait = s.wait := rfl

@[simp] theorem State.bufWrite_dc (i : Nat) (v : Byte) (s : State) : (State.bufWrite i v s).dc = s.dc := rfl
@[simp] theorem State.bufWrite_cs (i : Nat) (v : Byte) (s : State) : (State.bufWrite i v s).cs = s.cs := rfl
@[simp] theorem State.bufWrite_rst (i : Nat) (v : Byte) (s : State) : (State.bufWrite i v s).rst = s.rst := rfl
@[simp] theorem State.bufWrite_cycle (i : Nat) (v : Byte) (s : State) : (State.bufWrite i v s).cycle = s.cycle := rfl
@[simp] theorem State.bufWrite_status (i : Nat) (v : Byte) (s : State) : (State.bufWrite i v s).status = s.status := rfl
@[simp] theorem State.bufWrite_result (i : Nat) (v : Byte) (s : State) : (State.bufWrite i v s).result = s.result := rfl
@[simp] theorem State.bufWrite_dead (i : Nat) (v : Byte) (s : State) : (State.bufWrite i v s).dead = s.dead := rfl
@[simp] theorem State.bufWrite_ready (i : Nat) (v : Byte) (s : State) : (State.bufWrite i v s).ready = s.ready := rfl
@[simp] theorem State.bufWrite_polls (i : Nat) (v : Byte) (s : State) : (State.bufWrite i v s).polls = s.polls := rfl
@[simp] theorem State.bufWrite_config (i : Nat) (v : Byte) (s : State) : (State.bufWrite i v s).config = s.config := rfl
@[simp] theorem State.bufWrite_buf (i : Nat) (v : Byte) (s : State) : (State.bufWrite i v s).buf = Memory.write i v s.buf := rfl
@[simp] theorem State.bufWrite_trace (i : Nat) (v : Byte) (s : State) : (State.bufWrite i v s).trace = s.trace := rfl
@[simp] theorem State.bufWrite_env (i : Nat) (v : Byte) (s : State) : (State.bufWrite i v s).env = s.env := rfl
@[simp] theorem State.bufWrite_host (i : Nat) (v : Byte) (s : State) : (State.bufWrite i v s).host = s.host := rfl
@[simp] theorem State.bufWrite_stopAtFailure (i : Nat) (v : Byte) (s : State) : (State.bufWrite i v s).stopAtFailure = s.stopAtFailure := rfl
@[simp] theorem State.bufWrite_wait (i : Nat) (v : Byte) (s : State) : (State.bufWrite i v s).wait = s.wait := rfl

@[simp] theorem State.install_dc (p : Parameters) (s : State) : (State.install p s).dc = s.dc := rfl
@[simp] theorem State.install_cs (p : Parameters) (s : State) : (State.install p s).cs = s.cs := rfl
@[simp] theorem State.install_rst (p : Parameters) (s : State) : (State.install p s).rst = s.rst := rfl
@[simp] theorem State.install_cycle (p : Parameters) (s : State) : (State.install p s).cycle = s.cycle := rfl
@[simp] theorem State.install_status (p : Parameters) (s : State) : (State.install p s).status = s.status := rfl
@[simp] theorem State.install_result (p : Parameters) (s : State) : (State.install p s).result = s.result := rfl
@[simp] theorem State.install_dead (p : Parameters) (s : State) : (State.install p s).dead = s.dead := rfl
@[simp] theorem State.install_ready (p : Parameters) (s : State) : (State.install p s).ready = true := rfl
@[simp] theorem State.install_polls (p : Parameters) (s : State) : (State.install p s).polls = s.polls := rfl
@[simp] theorem State.install_config (p : Parameters) (s : State) : (State.install p s).config = p := rfl
@[simp] theorem State.install_buf (p : Parameters) (s : State) : (State.install p s).buf = [] := rfl
@[simp] theorem State.install_trace (p : Parameters) (s : State) : (State.install p s).trace = s.trace := rfl
@[simp] theorem State.install_env (p : Parameters) (s : State) : (State.install p s).env = s.env := rfl
@[simp] theorem State.install_host (p : Parameters) (s : State) : (State.install p s).host = s.host := rfl
@[simp] theorem State.install_stopAtFailure (p : Parameters) (s : State) : (State.install p s).stopAtFailure = s.stopAtFailure := rfl
@[simp] theorem State.install_wait (p : Parameters) (s : State) : (State.install p s).wait = s.wait := rfl

@[simp] theorem State.delay_eq (d : Nat) (s : State) : s.delay d = s := rfl

@[simp] theorem Flow.final_done (s : State) : (Flow.done s).final = s := rfl
@[simp] theorem Flow.final_raised (s : State) : (Flow.raised s).final = s := rfl
@[simp] theorem Flow.final_waiting (s : State) : (Flow.waiting s).final = s := rfl
@[simp] theorem Flow.done_andThen (s : State) (f : State → Flow) : (Flow.done s).andThen f = f s := rfl
@[simp] theorem Flow.raised_andThen (s : State) (f : State → Flow) : (Flow.raised s).andThen f = .raised s := rfl
@[simp] theorem Flow.waiting_andThen (s : State) (f : State → Flow) : (Flow.waiting s).andThen f = .waiting s := rfl
@[simp] theorem State.raise_eq (f : Failure) (s : State) : s.raise f = .raised (s.raised f) := rfl

@[simp] theorem State.lines_dc (s : State) : s.lines.dc = s.dc := rfl
@[simp] theorem State.lines_cs (s : State) : s.lines.cs = s.cs := rfl
@[simp] theorem State.lines_rst (s : State) : s.lines.rst = s.rst := rfl

/-- Sequencing is associative. -/
theorem Flow.andThen_assoc (fl : Flow) (f g : State → Flow) :
    (fl.andThen f).andThen g = fl.andThen fun s => (f s).andThen g := by
  cases fl <;> rfl

end Sys2Proof.Machine
end

