-- ==== Sys2Proof/Laws/Environment.lean ====
section
/-! SUPPORT. What the environment answers after some of its answers have been given, and what one link byte and one Busy
sample do. -/

namespace Sys2Proof.Machine

@[simp] theorem Environment.busyAt_sampled (e : Environment) (n k : Nat) :
    (e.sampled n).busyAt k = e.busyAt (n + k) := by
  simp [Environment.busyAt, Environment.sampled, List.getElem?_drop, Nat.add_assoc]

@[simp] theorem Environment.linkAt_sent (e : Environment) (n k : Nat) :
    (e.sent n).linkAt k = e.linkAt (n + k) := by
  simp [Environment.linkAt, Environment.sent, List.getElem?_drop, Nat.add_assoc]

@[simp] theorem Environment.linkAt_sampled (e : Environment) (n k : Nat) :
    (e.sampled n).linkAt k = e.linkAt k := rfl

@[simp] theorem Environment.busyAt_sent (e : Environment) (n k : Nat) :
    (e.sent n).busyAt k = e.busyAt k := rfl

@[simp] theorem Environment.sent_sent (e : Environment) (m n : Nat) : (e.sent m).sent n = e.sent (m + n) := by
  simp [Environment.sent, Nat.add_assoc]

@[simp] theorem Environment.sampled_sampled (e : Environment) (m n : Nat) :
    (e.sampled m).sampled n = e.sampled (m + n) := by
  simp [Environment.sampled, Nat.add_assoc]

@[simp] theorem Environment.sent_zero (e : Environment) : e.sent 0 = e := by
  simp [Environment.sent]

@[simp] theorem Environment.sampled_zero (e : Environment) : e.sampled 0 = e := by
  simp [Environment.sampled]

theorem Environment.sampled_sent (e : Environment) (m n : Nat) :
    (e.sampled m).sent n = (e.sent n).sampled m := rfl

/-- The link either accepts the next n bytes or refuses one of them. -/
theorem State.linkAccepts_or_refuses (n : Nat) (s : State) :
    s.linkAccepts n ∨ ∃ m < n, s.linkRefusesAfter m := by
  induction n with
  | zero => exact .inl fun k hk => absurd hk (by omega)
  | succ n ih =>
    rcases ih with h | ⟨m, hm, h⟩
    · cases hn : s.env.linkAt n with
      | false => exact .inr ⟨n, by omega, h, hn⟩
      | true =>
        refine .inl fun k hk => ?_
        rcases Nat.lt_succ_iff_lt_or_eq.mp hk with h' | rfl
        · exact h k h'
        · exact hn
    · exact .inr ⟨m, by omega, h⟩

/-- The Busy line either reads 1 at the next n samples or reads 0 at one of them. -/
theorem State.busyFor_or_idle (n : Nat) (s : State) : s.busyFor n ∨ ∃ m < n, s.idleAfter m := by
  induction n with
  | zero => exact .inl fun k hk => absurd hk (by omega)
  | succ n ih =>
    rcases ih with h | ⟨m, hm, h⟩
    · cases hn : s.env.busyAt n with
      | false => exact .inr ⟨n, by omega, h, hn⟩
      | true =>
        refine .inl fun k hk => ?_
        rcases Nat.lt_succ_iff_lt_or_eq.mp hk with h' | rfl
        · exact h k h'
        · exact hn
    · exact .inr ⟨m, by omega, h⟩

/-- What one byte handed to the link does, whichever way the link answers. -/
theorem State.transmit_cases (index : Nat) (b : Byte) (s : State) :
    (s.env.linkAt 0 = true ∧
      s.transmit index b = .done { s with trace := s.trace ++ [.tx b], env := s.env.sent 1 }) ∨
    (s.env.linkAt 0 = false ∧
      s.transmit index b = .raised { s with
        env := s.env.sent 1, dead := true, status := .failed (.transportFailure (.linkWrite index)) }) := by
  cases h : s.env.linkAt 0 with
  | true => exact .inl ⟨rfl, by simp [State.transmit, h, State.emit]⟩
  | false => exact .inr ⟨rfl, by simp [State.transmit, h, State.raised]⟩

end Sys2Proof.Machine
end

