-- ==== Sys2Proof/Laws/Framer.lean ====
section
/-! SUPPORT. What WRITE, one Select window, SEND_DATA and SEND_COMMAND do: all bytes accepted, or stopped at the first
refused byte (40_transport.md R104, R109; 41_framer.md R120, R121). -/

namespace Sys2Proof.Machine

theorem State.linkAccepts.mono {m n : Nat} {s : State} (h : s.linkAccepts n) (hmn : m ≤ n) : s.linkAccepts m :=
  fun k hk => h k (by omega)

/-- Acceptance by a later environment. -/
theorem State.linkAccepts_of_env {s t : State} {m n : Nat} (ht : t.env = s.env.sent m)
    (h : s.linkAccepts (m + n)) : t.linkAccepts n :=
  fun k hk => by rw [ht, Environment.linkAt_sent]; exact h _ (by omega)

/-- Refusal by a later environment. -/
theorem State.linkRefusesAfter_of_env {s t : State} {m n : Nat} (ht : t.env = s.env.sent m)
    (h : s.linkRefusesAfter (m + n)) : t.linkRefusesAfter n :=
  ⟨State.linkAccepts_of_env ht h.1, by rw [ht, Environment.linkAt_sent]; exact h.2⟩

/-- Every byte accepted. -/
theorem transmitFrom_accepts (data : List Byte) :
    ∀ (i : Nat) (s : State), s.linkAccepts data.length →
      transmitFrom i data s = .done { s with trace := s.trace ++ data.map .tx, env := s.env.sent data.length } := by
  induction data with
  | nil => intro i s _; simp [transmitFrom]
  | cons b rest ih =>
    intro i s h
    have h0 : s.env.linkAt 0 = true := h 0 (by simp)
    rcases s.transmit_cases i b with ⟨-, ht⟩ | ⟨hf, -⟩
    · rw [transmitFrom, ht, Flow.done_andThen, ih]
      · simp [Nat.add_comm]
      · exact State.linkAccepts_of_env (m := 1) rfl (h.mono (by simp; omega))
    · simp [h0] at hf

/-- Stopped at the byte at position n: the bytes before it went out, DEAD is latched, its index is recorded. -/
theorem transmitFrom_refused (data : List Byte) :
    ∀ (i n : Nat) (s : State), n < data.length → s.linkRefusesAfter n →
      transmitFrom i data s = .raised { s with
        trace := s.trace ++ (data.take n).map .tx, env := s.env.sent (n + 1), dead := true,
        status := .failed (.transportFailure (.linkWrite (i + n))) } := by
  induction data with
  | nil => intro i n s hn _; simp at hn
  | cons b rest ih =>
    intro i n s hn h
    rcases s.transmit_cases i b with ⟨ha, ht⟩ | ⟨hf, ht⟩
    · cases n with
      | zero => simp [h.2] at ha
      | succ n =>
        rw [transmitFrom, ht, Flow.done_andThen,
          ih (i + 1) n _ (by simpa using hn)
            (State.linkRefusesAfter_of_env (s := s) (m := 1) rfl (by rw [Nat.add_comm]; exact h))]
        simp [Nat.add_comm, Nat.add_left_comm]
    · cases n with
      | zero => simp [transmitFrom, ht]
      | succ n => simp [h.1 0 (by omega)] at hf

/-- WRITE, every byte accepted (R104). -/
theorem opWrite_accepts (data : List Byte) (s : State) (h : s.linkAccepts data.length) :
    opWrite data s = .done { s with
      status := .ok, trace := s.trace ++ data.map .tx, env := s.env.sent data.length } := by
  simp [opWrite, transmitFrom_accepts data 0 s h, State.setOk]

/-- WRITE, stopped at a refused byte (R109). -/
theorem opWrite_refused (data : List Byte) (n : Nat) (s : State) (hn : n < data.length) (h : s.linkRefusesAfter n) :
    opWrite data s = .raised { s with
      trace := s.trace ++ (data.take n).map .tx, env := s.env.sent (n + 1), dead := true,
      status := .failed (.transportFailure (.linkWrite n)) } := by
  simp [opWrite, transmitFrom_refused data 0 n s hn h]

/-- One Select window, every byte accepted (R123). -/
theorem opWindow_accepts (m : DcMode) (data : List Byte) (s : State) (h : s.linkAccepts data.length) :
    opWindow m data s = .done { s with
      dc := m, cs := .released, status := .ok,
      trace := s.trace ++ ([.dc m, .cs .asserted] ++ data.map .tx ++ [.cs .released]),
      env := s.env.sent data.length } := by
  rw [opWindow, opWrite_accepts data ((s.assignDc m).assignCs .asserted) h]
  simp [State.assignCs, State.assignDc, State.emit]

/-- One Select window, stopped at a refused byte: Select stays asserted (R109). -/
theorem opWindow_refused (m : DcMode) (data : List Byte) (n : Nat) (s : State) (hn : n < data.length)
    (h : s.linkRefusesAfter n) :
    opWindow m data s = .raised { s with
      dc := m, cs := .asserted, dead := true, status := .failed (.transportFailure (.linkWrite n)),
      trace := s.trace ++ ([.dc m, .cs .asserted] ++ (data.take n).map .tx), env := s.env.sent (n + 1) } := by
  rw [opWindow, opWrite_refused data n ((s.assignDc m).assignCs .asserted) hn h]
  simp [State.assignCs, State.assignDc, State.emit]

/-- SEND_DATA, every byte accepted (R121). -/
theorem opSendData_accepts (data : List Byte) (s : State) (h : s.linkAccepts data.length) :
    opSendData data s = .done { s with
      dc := .command, cs := .released, status := .ok, trace := s.trace ++ dataWindow data,
      env := s.env.sent data.length } := by
  simp [opSendData, opWindow_accepts .data data s h, State.assignDc, State.emit, State.setOk, dataWindow]

/-- SEND_DATA, stopped at a refused byte (R121, R109). -/
theorem opSendData_refused (data : List Byte) (n : Nat) (s : State) (hn : n < data.length) (h : s.linkRefusesAfter n) :
    opSendData data s = .raised { s with
      dc := .data, cs := .asserted, dead := true, status := .failed (.transportFailure (.linkWrite n)),
      trace := s.trace ++ ([.dc .data, .cs .asserted] ++ (data.take n).map .tx), env := s.env.sent (n + 1) } := by
  simp [opSendData, opWindow_refused .data data n s hn h]

/-- SEND_COMMAND, every byte accepted (R120, R122). -/
theorem opSendCommand_accepts (opcode : Byte) (data : List Byte) (s : State) (h : s.linkAccepts (1 + data.length)) :
    opSendCommand opcode data s = .done { s with
      dc := .command, cs := .released, status := .ok, trace := s.trace ++ frameTrace opcode data,
      env := s.env.sent (1 + data.length) } := by
  have h1 : s.linkAccepts ([opcode] : List Byte).length := h.mono (by simp)
  cases data with
  | nil =>
    simp [opSendCommand, opWindow_accepts .command [opcode] s h1, State.setOk, frameTrace, commandWindow]
  | cons d rest =>
    rw [opSendCommand, opWindow_accepts .command [opcode] s h1, Flow.done_andThen]
    simp only [List.isEmpty_cons, Bool.false_eq_true, if_false]
    rw [opSendData_accepts (d :: rest) _ (State.linkAccepts_of_env (s := s) (m := 1) rfl h)]
    simp [State.setOk, frameTrace, commandWindow]

/-- SEND_COMMAND, the command byte refused: command mode, Select asserted, nothing sent (R109). -/
theorem opSendCommand_refused_command (opcode : Byte) (data : List Byte) (s : State) (h : s.linkRefusesAfter 0) :
    opSendCommand opcode data s = .raised { s with
      dc := .command, cs := .asserted, dead := true, status := .failed (.transportFailure (.linkWrite 0)),
      trace := s.trace ++ [.dc .command, .cs .asserted], env := s.env.sent 1 } := by
  simp [opSendCommand, opWindow_refused .command [opcode] 0 s (by simp) h]

/-- SEND_COMMAND, a data byte refused: data mode, Select asserted, the bytes before it sent (R109). -/
theorem opSendCommand_refused_data (opcode : Byte) (data : List Byte) (n : Nat) (s : State) (hn : n < data.length)
    (h : s.linkRefusesAfter (1 + n)) :
    opSendCommand opcode data s = .raised { s with
      dc := .data, cs := .asserted, dead := true, status := .failed (.transportFailure (.linkWrite n)),
      trace := s.trace ++ (commandWindow opcode ++ [.dc .data, .cs .asserted] ++ (data.take n).map .tx),
      env := s.env.sent (1 + (n + 1)) } := by
  have h1 : s.linkAccepts ([opcode] : List Byte).length := h.1.mono (by simp)
  have hd : data.isEmpty = false := by cases data <;> simp at hn ⊢
  rw [opSendCommand, opWindow_accepts .command [opcode] s h1, Flow.done_andThen]
  simp only [hd, Bool.false_eq_true, if_false]
  rw [opSendData_refused data n _ hn (State.linkRefusesAfter_of_env (s := s) (m := 1) rfl h)]
  simp [commandWindow]

/-- A state with the lines at rest and STATUS OK. -/
abbrev State.quiet (s : State) : State := { s with dc := .command, cs := .released, status := .ok }

/-- SEND_COMMAND does not depend on the lines and the STATUS it starts from (R120). -/
theorem opSendCommand_anyLines (opcode : Byte) (data : List Byte) (s : State) :
    opSendCommand opcode data s = opSendCommand opcode data s.quiet := by
  have h : opWindow .command [opcode] s = opWindow .command [opcode] s.quiet := by
    rcases s.linkAccepts_or_refuses ([opcode] : List Byte).length with h | ⟨n, hn, h⟩
    · exact (opWindow_accepts .command [opcode] s h).trans (opWindow_accepts .command [opcode] s.quiet h).symm
    · exact (opWindow_refused .command [opcode] n s hn h).trans
        (opWindow_refused .command [opcode] n s.quiet hn h).symm
  rw [opSendCommand, opSendCommand, h]

/-- The data windows of a chunked load, every byte accepted (44_sequences.md R175). -/
theorem sendWindows_accepts (ws : List (List Byte)) :
    ∀ s : State, s.dc = .command → s.cs = .released → s.status = .ok → s.linkAccepts ws.flatten.length →
      sendWindows ws s = .done { s with
        dc := .command, cs := .released, status := .ok, trace := s.trace ++ ws.flatMap dataWindow,
        env := s.env.sent ws.flatten.length } := by
  induction ws with
  | nil =>
    intro s hd hc hs _
    cases s
    simp_all [sendWindows]
  | cons w rest ih =>
    intro s _ _ _ h
    simp only [List.flatten_cons, List.length_append] at h
    rw [sendWindows, opSendData_accepts w s (h.mono (by omega)), Flow.done_andThen,
      ih _ rfl rfl rfl (State.linkAccepts_of_env (s := s) rfl h)]
    simp

end Sys2Proof.Machine
end

