-- ==== Sys2Proof/Laws/Memory.lean ====
section
/-! SUPPORT. The pixel buffer as memory: read after write, the frame of a write, and that every operation keeps the
canonical form and the mapped range. -/

namespace Sys2Proof.Machine

@[simp] theorem Memory.read_nil (a : Nat) : Memory.read [] a = Memory.unlisted := rfl

theorem Memory.read_cons (i : Nat) (b : Byte) (rest : List Host.Cell) (a : Nat) :
    Memory.read ((i, b) :: rest) a = if i = a then b else Memory.read rest a := rfl

/-- An index below everything listed reads as unlisted. -/
theorem Memory.read_below (m : List Host.Cell) :
    ∀ low a, Memory.wfFrom low m = true → a < low → Memory.read m a = Memory.unlisted := by
  induction m with
  | nil => intros; rfl
  | cons c rest ih =>
    obtain ⟨i, b⟩ := c
    intro low a h ha
    simp only [Memory.wfFrom, Bool.and_eq_true, decide_eq_true_eq] at h
    rw [Memory.read_cons, if_neg (by omega), ih _ _ h.2 (by omega)]

/-- Reading after a write: the written byte at its index, the old byte everywhere else. -/
theorem Memory.read_write (m : List Host.Cell) (a a' : Nat) (v : Byte) :
    ∀ low, Memory.wfFrom low m = true →
      Memory.read (Memory.write a v m) a' = if a = a' then v else Memory.read m a' := by
  induction m with
  | nil =>
    intro low _
    by_cases hv : v = Memory.unlisted
    · simp [Memory.write, hv]
    · simp [Memory.write, hv, Memory.read_cons]
  | cons c rest ih =>
    obtain ⟨i, b⟩ := c
    intro low h
    simp only [Memory.wfFrom, Bool.and_eq_true, decide_eq_true_eq] at h
    have below : ∀ x, x ≤ i → Memory.read rest x = Memory.unlisted :=
      fun x hx => Memory.read_below rest _ x h.2 (by omega)
    simp only [Memory.write]
    by_cases h1 : a < i
    · by_cases hv : v = Memory.unlisted
      · simp only [h1, hv, if_true, Memory.read_cons]
        by_cases ha : a = a'
        · subst ha
          simp [below a (by omega), show i ≠ a by omega]
        · simp [ha]
      · simp [h1, hv, Memory.read_cons]
    · by_cases h2 : a = i
      · subst h2
        by_cases hv : v = Memory.unlisted
        · simp only [hv, if_true, Memory.read_cons, lt_irrefl, if_false]
          by_cases ha : a = a'
          · subst ha
            simp [below a (by omega)]
          · simp [ha]
        · by_cases ha : a = a' <;> simp [hv, Memory.read_cons, ha]
      · simp only [h1, h2, if_false, Memory.read_cons, ih _ h.2]
        by_cases ha : a = a'
        · subst ha
          simp [show i ≠ a by omega]
        · simp [ha]

/-- A write keeps the canonical form. -/
theorem Memory.wfFrom_write (m : List Host.Cell) (a : Nat) (v : Byte) :
    ∀ low, low ≤ a → Memory.wfFrom low m = true → Memory.wfFrom low (Memory.write a v m) = true := by
  induction m with
  | nil =>
    intro low ha _
    by_cases hv : v = Memory.unlisted <;> simp [Memory.write, hv, Memory.wfFrom, ha]
  | cons c rest ih =>
    obtain ⟨i, b⟩ := c
    intro low ha h
    have h' := h
    simp only [Memory.wfFrom, Bool.and_eq_true, decide_eq_true_eq] at h
    have weaken : ∀ (m' : List Host.Cell) l l', l ≤ l' → Memory.wfFrom l' m' = true → Memory.wfFrom l m' = true := by
      intro m' l l' hl hm
      cases m' with
      | nil => rfl
      | cons c' r' =>
        simp only [Memory.wfFrom, Bool.and_eq_true, decide_eq_true_eq] at hm ⊢
        exact ⟨⟨by omega, hm.1.2⟩, hm.2⟩
    simp only [Memory.write]
    by_cases h1 : a < i
    · by_cases hv : v = Memory.unlisted
      · simpa [h1, hv] using h'
      · simp only [h1, hv, if_true, if_false, Memory.wfFrom, Bool.and_eq_true, decide_eq_true_eq]
        exact ⟨⟨ha, hv⟩, ⟨by omega, h.1.2⟩, h.2⟩
    · by_cases h2 : a = i
      · by_cases hv : v = Memory.unlisted
        · simp only [h2, hv, if_true, lt_irrefl, if_false]
          exact weaken _ _ _ (by omega) h.2
        · simp only [h2, hv, if_true, if_false, lt_irrefl, Memory.wfFrom, Bool.and_eq_true, decide_eq_true_eq]
          exact ⟨⟨by omega, hv⟩, h.2⟩
      · simp only [h1, h2, if_false, Memory.wfFrom, Bool.and_eq_true, decide_eq_true_eq]
        exact ⟨h.1, ih _ (by omega) h.2⟩

theorem Memory.wf_write (m : List Host.Cell) (a : Nat) (v : Byte) (h : Memory.wf m = true) :
    Memory.wf (Memory.write a v m) = true :=
  Memory.wfFrom_write m a v 0 (Nat.zero_le a) h

/-- A write at a mapped index lists only mapped indices. -/
theorem Memory.within_write (n a : Nat) (v : Byte) (ha : a < n) (m : List Host.Cell)
    (h : Memory.within n m = true) : Memory.within n (Memory.write a v m) = true := by
  induction m with
  | nil =>
    by_cases hv : v = Memory.unlisted <;> simp [Memory.write, hv, Memory.within, ha]
  | cons c rest ih =>
    obtain ⟨i, b⟩ := c
    simp only [Memory.within, List.all_cons, Bool.and_eq_true, decide_eq_true_eq] at h ih ⊢
    simp only [Memory.write]
    split
    · split
      · simp [h.1, h.2]
      · simp [h.1, h.2, ha]
    · split
      · split
        · exact h.2
        · simp [ha, h.2]
      · simp only [List.all_cons, Bool.and_eq_true, decide_eq_true_eq]
        exact ⟨h.1, ih h.2⟩

/-- Filling keeps the canonical form. -/
theorem Memory.wf_fill (n : Nat) (v : Byte) (m : List Host.Cell) (h : Memory.wf m = true) :
    Memory.wf (Memory.fill n v m) = true := by
  induction n with
  | zero => exact h
  | succ n ih => exact Memory.wf_write _ n v ih

/-- Filling up to n lists only mapped indices. -/
theorem Memory.within_fill (k n : Nat) (hk : n ≤ k) (v : Byte) (m : List Host.Cell)
    (h : Memory.within k m = true) : Memory.within k (Memory.fill n v m) = true := by
  induction n with
  | zero => exact h
  | succ n ih => exact Memory.within_write k n v (by omega) _ (ih (by omega))

/-- After filling up to n, every index below n reads the filled byte and every other index reads as before. -/
theorem Memory.read_fill (n : Nat) (v : Byte) (m : List Host.Cell) (h : Memory.wf m = true) (a : Nat) :
    Memory.read (Memory.fill n v m) a = if a < n then v else Memory.read m a := by
  induction n with
  | zero => simp [Memory.fill]
  | succ n ih =>
    rw [Memory.fill, Memory.read_write _ n a v 0 (Memory.wf_fill n v m h), ih]
    by_cases h1 : n = a
    · subst h1
      simp
    · by_cases h2 : a < n
      · simp [h1, h2, show a < n + 1 by omega]
      · simp [h1, h2, show ¬ a < n + 1 by omega]

@[simp] theorem Memory.length_bytes (n : Nat) (m : List Host.Cell) : (Memory.bytes n m).length = n := by
  simp [Memory.bytes]

@[simp] theorem Memory.getElem_bytes (n : Nat) (m : List Host.Cell) (i : Nat) (h : i < (Memory.bytes n m).length) :
    (Memory.bytes n m)[i] = Memory.read m i := by
  simp [Memory.bytes]

/-- Writing the byte an index holds changes nothing: a canonical memory has one form. -/
theorem Memory.write_read (a : Nat) (m : List Host.Cell) :
    ∀ low, Memory.wfFrom low m = true → Memory.write a (Memory.read m a) m = m := by
  induction m with
  | nil => intro low _; rfl
  | cons c rest ih =>
    obtain ⟨i, b⟩ := c
    intro low h
    simp only [Memory.wfFrom, Bool.and_eq_true, decide_eq_true_eq] at h
    rw [Memory.read_cons]
    by_cases hi : i = a
    · subst hi
      simp [Memory.write, h.1.2]
    · rw [if_neg hi, Memory.write]
      by_cases ha : a < i
      · rw [if_pos ha, Memory.read_below rest (i + 1) a h.2 (by omega), if_pos rfl]
      · rw [if_neg ha, if_neg (Ne.symm hi), ih _ h.2]

/-- The buffer that construction creates is canonical, and no byte of it is listed. -/
theorem Memory.wf_nil : Memory.wf [] = true := rfl

theorem Memory.within_nil (n : Nat) : Memory.within n [] = true := rfl

end Sys2Proof.Machine
end

