-- ==== Sys2Proof/Laws/Sequencer.lean ====
section
/-! SUPPORT. What a wait, the initialization script, a plane load and a refresh trigger do (42_sync.md R130, R131;
44_sequences.md R170 to R175). -/

namespace Sys2Proof.Machine

/-! ## The wait -/

/-- A state whose Busy answers come from a later environment. -/
theorem State.idleAfter_of_env {s t : State} {m n : Nat} (ht : t.env = s.env.sampled m)
    (h : s.idleAfter (m + n)) : t.idleAfter n :=
  ⟨fun k hk => by rw [ht, Environment.busyAt_sampled]; exact h.1 _ (by omega),
    by rw [ht, Environment.busyAt_sampled]; exact h.2⟩

theorem State.busyFor_of_env {s t : State} {m n : Nat} (ht : t.env = s.env.sampled m)
    (h : s.busyFor (m + n)) : t.busyFor n :=
  fun k hk => by rw [ht, Environment.busyAt_sampled]; exact h _ (by omega)

/-- The loop ends at the first sample that reads 0, if neither the budget nor the bound ends it before. -/
theorem pollLoop_idle (n : Nat) :
    ∀ (budget : Nat) (s : State), n < budget → (∀ k ≤ n, boundReached s.config.pollBound (s.polls + k) = false) →
      s.idleAfter n →
      pollLoop budget s = .done { s with
        polls := s.polls + n + 1, cycle := s.cycle.afterIdleSample, status := .ok, trace := s.trace ++ waitTrace n,
        env := s.env.sampled (n + 1) } := by
  induction n with
  | zero =>
    intro budget s hb hr h
    obtain ⟨b, rfl⟩ := Nat.exists_eq_succ_of_ne_zero (show budget ≠ 0 by omega)
    have h0 : s.busyNow = false := h.2
    simp [pollLoop, show boundReached s.config.pollBound s.polls = false from hr 0 (by omega), h0, State.setCycle,
      State.setOk, State.sampleBusy, State.setPolls, State.emit, waitTrace]
  | succ n ih =>
    intro budget s hb hr h
    obtain ⟨b, rfl⟩ := Nat.exists_eq_succ_of_ne_zero (show budget ≠ 0 by omega)
    have h0 : s.busyNow = true := h.1 0 (by omega)
    rw [pollLoop]
    simp only [show boundReached s.config.pollBound s.polls = false from hr 0 (by omega), h0, if_true,
      Bool.false_eq_true, if_false, State.delay_eq]
    rw [ih b _ (by omega)
      (fun k hk => by simpa [Nat.add_assoc, Nat.add_comm 1 k] using hr (k + 1) (by omega))
      (State.idleAfter_of_env (s := s) (m := 1) rfl (by rw [Nat.add_comm]; exact h))]
    simp [State.sampleBusy, State.setPolls, State.emit, waitTrace, h0, List.replicate_succ, Nat.add_comm,
      Nat.add_left_comm]

/-- The loop takes every sample of its budget when they all read 1, and then raises or stands suspended. -/
theorem pollLoop_busy (n : Nat) :
    ∀ s : State, (∀ k < n, boundReached s.config.pollBound (s.polls + k) = false) → s.busyFor n →
      pollLoop n s =
        (let t := { s with
          polls := s.polls + n, trace := s.trace ++ List.replicate n (.busyq true), env := s.env.sampled n }
        if boundReached s.config.pollBound (s.polls + n) then
          .raised (t.raised (.hardwareTimeout (.pollBoundExceeded (s.polls + n))))
        else .waiting t) := by
  induction n with
  | zero => intro s _ _; simp [pollLoop]
  | succ n ih =>
    intro s hr h
    have h0 : s.busyNow = true := h 0 (by omega)
    rw [pollLoop]
    simp only [show boundReached s.config.pollBound s.polls = false from hr 0 (by omega), h0, if_true,
      Bool.false_eq_true, if_false, State.delay_eq]
    rw [ih _ (fun k hk => by simpa [Nat.add_assoc, Nat.add_comm 1 k] using hr (k + 1) (by omega))
      (State.busyFor_of_env (s := s) (m := 1) rfl (by rw [Nat.add_comm]; exact h))]
    simp [State.sampleBusy, State.setPolls, State.emit, h0, List.replicate_succ, Nat.add_comm, Nat.add_left_comm,
      State.raised]

/-- The bound is not reached below it. -/
theorem boundReached_below (s : State) {k n : Nat} (hk : k ≤ n) (hn : n < pollBudget s.config) :
    boundReached s.config.pollBound (0 + k) = false := by
  cases h : s.config.pollBound with
  | inf => rfl
  | count m hm =>
    simp only [pollBudget, h] at hn
    simp only [boundReached, beq_eq_false_iff_ne]
    omega

/-- A wait whose first n samples read 1 and whose next reads 0, within what one step may take (R130, R131). -/
theorem opWaitIdle_idle (r : Resume) (n : Nat) (s : State) (hn : n < pollBudget s.config) (h : s.idleAfter n) :
    opWaitIdle r s = .done { s with
      polls := n + 1, cycle := s.cycle.afterIdleSample, status := .ok, trace := s.trace ++ waitTrace n,
      env := s.env.sampled (n + 1) } := by
  have := pollLoop_idle n (pollBudget s.config) (s.setPolls 0) hn (fun k hk => boundReached_below s hk hn) h
  rw [opWaitIdle, opPoll, show pollBudget (s.setPolls 0).config = pollBudget s.config from rfl, this]
  simp [State.setPolls]

/-- A bounded wait all of whose samples read 1 times out after exactly POLL_BOUND samples (R131). -/
theorem opWaitIdle_timeout (r : Resume) (n : Nat) (hp : 0 < n) (s : State) (hb : s.config.pollBound = .count n hp)
    (h : s.busyFor n) :
    opWaitIdle r s = .raised { s with
      polls := n, status := .failed (.hardwareTimeout (.pollBoundExceeded n)),
      trace := s.trace ++ List.replicate n (.busyq true), env := s.env.sampled n } := by
  have := pollLoop_busy n (s.setPolls 0) (fun k hk => by simp [boundReached, hb]; omega) h
  rw [opWaitIdle, opPoll, show pollBudget (s.setPolls 0).config = n by simp [pollBudget, hb], this]
  simp [boundReached, hb, State.setPolls, State.raised]

/-- An unbounded wait whose sample reads 1 is left suspended (log 7). -/
theorem opPoll_suspends (r : Resume) (s : State) (hb : s.config.pollBound = .inf) (h : s.busyNow = true) :
    opPoll r s = .waiting { s with
      polls := s.polls + 1, wait := some r, trace := s.trace ++ [.busyq true], env := s.env.sampled 1 } := by
  rw [opPoll, show pollBudget s.config = 1 by simp [pollBudget, hb],
    pollLoop_busy 1 s (fun k hk => by simp [boundReached, hb]) fun k hk => by
      obtain rfl : k = 0 := by omega
      exact h]
  simp [boundReached, hb]

/-- A suspended wait whose next sample reads 0 ends. -/
theorem opPoll_ends (r : Resume) (s : State) (hb : s.config.pollBound = .inf) (h : s.busyNow = false) :
    opPoll r s = .done { s with
      polls := s.polls + 1, cycle := s.cycle.afterIdleSample, status := .ok, trace := s.trace ++ [.busyq false],
      env := s.env.sampled 1 } := by
  rw [opPoll, show pollBudget s.config = 1 by simp [pollBudget, hb],
    pollLoop_idle 0 1 s (by omega) (fun k hk => by simp [boundReached, hb])
      ⟨fun k hk => absurd hk (by omega), h⟩]
  simp [waitTrace]

/-- CYCLE after a sample that read 0: only BUSY moves (R132). -/
theorem Cycle.afterIdleSample_eq (c : Cycle) : c.afterIdleSample = if c = .busy then .idle else c := by
  cases c <;> rfl

/-- CYCLE after a plane write: only IDLE moves (R132). -/
theorem Cycle.afterPlaneWrite_eq (c : Cycle) : c.afterPlaneWrite = if c = .idle then .planeLoaded else c := by
  cases c <;> rfl

/-! ## The script, a plane load, a trigger -/

/-- How many bytes a script sends. -/
def scriptBytes (script : List (Command × List Byte)) : Nat := (script.map fun p => 1 + p.2.length).sum

/-- Commands sent one after another, every byte accepted. -/
theorem sendScript_accepts (script : List (Command × List Byte)) :
    ∀ s : State, s.dc = .command → s.cs = .released → s.status = .ok → s.linkAccepts (scriptBytes script) →
      sendScript script s = .done { s with
        trace := s.trace ++ script.flatMap fun p => frameTrace p.1.value p.2,
        env := s.env.sent (scriptBytes script) } := by
  induction script with
  | nil => intro s _ _ _ _; simp [sendScript, scriptBytes]
  | cons p rest ih =>
    intro s hd hc hs h
    obtain ⟨c, data⟩ := p
    simp only [scriptBytes, List.map_cons, List.sum_cons] at h
    rw [sendScript, opSendCommand_accepts c.value data s (h.mono (by omega)), Flow.done_andThen,
      ih _ rfl rfl rfl (State.linkAccepts_of_env (s := s) rfl h)]
    simp [scriptBytes, hd, hc, hs]

/-- A script in two parts. -/
theorem sendScript_append (a b : List (Command × List Byte)) :
    ∀ s : State, sendScript (a ++ b) s = (sendScript a s).andThen (sendScript b) := by
  induction a with
  | nil => intro s; rfl
  | cons p rest ih =>
    intro s
    rw [List.cons_append, sendScript, sendScript, Flow.andThen_assoc]
    exact congrArg _ (funext ih)

/-- A script whose link refuses the command byte after some of its frames. -/
theorem sendScript_refused_command (a b : List (Command × List Byte)) (c : Command) (data : List Byte) (s : State)
    (hd : s.dc = .command) (hc : s.cs = .released) (hs : s.status = .ok) (h : s.linkRefusesAfter (scriptBytes a)) :
    sendScript (a ++ (c, data) :: b) s = .raised { s with
      dc := .command, cs := .asserted, dead := true, status := .failed (.transportFailure (.linkWrite 0)),
      trace := s.trace ++ ((a.flatMap fun p => frameTrace p.1.value p.2) ++ [.dc .command, .cs .asserted]),
      env := s.env.sent (scriptBytes a + 1) } := by
  rw [sendScript_append, sendScript_accepts a s hd hc hs h.1, Flow.done_andThen, sendScript,
    opSendCommand_refused_command]
  · simp
  · exact State.linkRefusesAfter_of_env (s := s) rfl h

/-- A script whose link refuses a payload byte after some of its frames. -/
theorem sendScript_refused_data (a b : List (Command × List Byte)) (c : Command) (data : List Byte) (n : Nat)
    (s : State) (hd : s.dc = .command) (hc : s.cs = .released) (hs : s.status = .ok) (hn : n < data.length)
    (h : s.linkRefusesAfter (scriptBytes a + (1 + n))) :
    sendScript (a ++ (c, data) :: b) s = .raised { s with
      dc := .data, cs := .asserted, dead := true, status := .failed (.transportFailure (.linkWrite n)),
      trace := s.trace ++ ((a.flatMap fun p => frameTrace p.1.value p.2) ++ frameStopTrace c.value data n),
      env := s.env.sent (scriptBytes a + (1 + (n + 1))) } := by
  have ha : s.linkAccepts (scriptBytes a) := State.linkAccepts.mono h.1 (by omega)
  rw [sendScript_append, sendScript_accepts a s hd hc hs ha, Flow.done_andThen, sendScript,
    opSendCommand_refused_data _ _ n _ hn]
  · simp [frameStopTrace]
  · exact State.linkRefusesAfter_of_env (s := s) rfl h

/-- The frames of the script are the ones written out from R170. -/
theorem initScript_frames : initScript.map (fun p => (p.1.value, p.2)) = initFrames := by decide

/-- The events of the script are the ones written out from 95_test_vectors.md P2. -/
theorem initScript_trace :
    (initScript.flatMap fun p => frameTrace p.1.value p.2) = scriptTrace := by decide

/-- The rest of INIT does not depend on the lines and the STATUS it starts from. -/
theorem initAfterWait_eq (s : State) :
    initAfterWait s =
      (sendScript initScript (s.setCycle .idle).quiet).andThen fun s => .done s.setOk := by
  show ((opSendCommand _ _ _).andThen _).andThen _ = ((opSendCommand _ _ _).andThen _).andThen _
  rw [opSendCommand_anyLines]

/-- INIT from the end of its wait on, every byte accepted (R170). -/
theorem initAfterWait_accepts (s : State) (h : s.linkAccepts 12) :
    initAfterWait s = .done { s with
      dc := .command, cs := .released, cycle := .idle, status := .ok, trace := s.trace ++ scriptTrace,
      env := s.env.sent 12 } := by
  rw [initAfterWait_eq, sendScript_accepts initScript (s.setCycle .idle).quiet rfl rfl rfl h, initScript_trace]
  rfl

/-- A split of the frames of INIT is a split of its script. -/
theorem initScript_split {sent later : List (Byte × List Byte)} {op : Byte} {data : List Byte}
    (h : initFrames = sent ++ (op, data) :: later) :
    ∃ a b c, initScript = a ++ (c, data) :: b ∧ c.value = op ∧ scriptBytes a = frameBytes sent ∧
      (a.flatMap fun p => frameTrace p.1.value p.2) = framesTrace sent := by
  rw [← initScript_frames] at h
  obtain ⟨a, r, hs, rfl, hr⟩ := List.map_eq_append_iff.mp h
  obtain ⟨⟨c, d⟩, b, rfl, hp, -⟩ := List.map_eq_cons_iff.mp hr
  simp only [Prod.mk.injEq] at hp
  obtain ⟨hv, rfl⟩ := hp
  refine ⟨a, b, c, hs, hv, ?_, ?_⟩
  · simp [scriptBytes, frameBytes, Function.comp_def]
  · simp [framesTrace, List.flatMap_map]

/-- INIT from the end of its wait on, stopped at the command byte of one of its frames (R170, R173). -/
theorem initAfterWait_refused_command {sent later : List (Byte × List Byte)} {op : Byte} {data : List Byte}
    (hf : initFrames = sent ++ (op, data) :: later) (s : State) (h : s.linkRefusesAfter (frameBytes sent)) :
    initAfterWait s = .raised { s with
      dc := .command, cs := .asserted, cycle := .idle, dead := true,
      status := .failed (.transportFailure (.linkWrite 0)),
      trace := s.trace ++ (framesTrace sent ++ [.dc .command, .cs .asserted]),
      env := s.env.sent (frameBytes sent + 1) } := by
  obtain ⟨a, b, c, hs, -, hb, ht⟩ := initScript_split hf
  rw [initAfterWait_eq, hs, sendScript_refused_command a b c data
    (s.setCycle .idle).quiet rfl rfl rfl (by rw [hb]; exact h), ht, hb]
  rfl

/-- INIT from the end of its wait on, stopped at a payload byte of one of its frames (R170, R173). -/
theorem initAfterWait_refused_data {sent later : List (Byte × List Byte)} {op : Byte} {data : List Byte}
    (hf : initFrames = sent ++ (op, data) :: later) (m : Nat) (hm : m < data.length) (s : State)
    (h : s.linkRefusesAfter (frameBytes sent + (1 + m))) :
    initAfterWait s = .raised { s with
      dc := .data, cs := .asserted, cycle := .idle, dead := true,
      status := .failed (.transportFailure (.linkWrite m)),
      trace := s.trace ++ (framesTrace sent ++ frameStopTrace op data m),
      env := s.env.sent (frameBytes sent + (1 + (m + 1))) } := by
  obtain ⟨a, b, c, hs, rfl, hb, ht⟩ := initScript_split hf
  rw [initAfterWait_eq, hs, sendScript_refused_data a b c data m
    (s.setCycle .idle).quiet rfl rfl rfl hm (by rw [hb]; exact h), ht, hb]
  rfl

/-- REFRESH after its pre-check, every byte accepted: what is left is its wait, with CYCLE BUSY (R172). -/
theorem opTrigger_accepts (plane : Plane) (s : State)
    (h : s.linkAccepts (2 + (triggerPayload s.config plane).length)) :
    opTrigger plane s =
      (opWaitIdle .refresh { s with
        dc := .command, cs := .released, status := .ok, cycle := .busy,
        trace := s.trace ++ triggerTrace (triggerPayload s.config plane),
        env := s.env.sent (2 + (triggerPayload s.config plane).length) }).andThen fun s => .done s.setOk := by
  rw [opTrigger, opSendCommand_accepts _ _ s (h.mono (by omega)), Flow.done_andThen,
    opSendCommand_accepts _ [], Flow.done_andThen]
  · have : 1 + (1 + (triggerPayload s.config plane).length) = 2 + (triggerPayload s.config plane).length := by omega
    simp [State.setCycle, triggerTrace, frameTrace, Nat.add_comm _ 1, this]
  · intro k hk
    simp only [Environment.linkAt_sent]
    simp at hk
    exact h _ (by omega)

/-- The windows of a chunked load hold the bytes, each once, in order (R175: "The sequence of TX events is identical to
the bulk form"). -/
theorem windows_flatten (k : Nat) (hk : 0 < k) (bytes : List Byte) : (windows k bytes).flatten = bytes := by
  have main : ∀ (m : Nat) (bs : List Byte), bs.length ≤ m * k →
      ((List.range m).map fun t => (bs.drop (t * k)).take k).flatten = bs := by
    intro m
    induction m with
    | zero => intro bs h; simp at h; simp [h]
    | succ m ih =>
      intro bs h
      rw [List.range_succ_eq_map, List.map_cons, List.flatten_cons, List.map_map]
      have step : ((fun t => (bs.drop (t * k)).take k) ∘ Nat.succ) =
          fun t => ((bs.drop k).drop (t * k)).take k := by
        funext t
        simp [List.drop_drop, Nat.succ_mul, Nat.add_comm]
      rw [step, ih (bs.drop k) (by simp only [List.length_drop]; rw [Nat.succ_mul] at h; omega)]
      simp
  refine main _ bytes ?_
  have h1 := Nat.div_add_mod (bytes.length + k - 1) k
  have h2 := Nat.mod_lt (bytes.length + k - 1) hk
  rw [Nat.mul_comm]
  omega

/-- A plane load, every byte accepted (R171, R175). -/
theorem opSendPlane_accepts (c : Command) (s : State) (h : s.linkAccepts (1 + s.config.bufLen)) :
    opSendPlane c s = .done { s with
      dc := .command, cs := .released, status := .ok, trace := s.trace ++ planeTrace s.config c.value s.bufBytes,
      env := s.env.sent (1 + s.config.bufLen) } := by
  have hl : s.bufBytes.length = s.config.bufLen := Memory.length_bytes _ _
  unfold opSendPlane planeTrace
  cases hc : chunkSize s.config with
  | none =>
    simp only
    rw [opSendCommand_accepts c.value s.bufBytes s (by rw [hl]; exact h), hl]
  | some k =>
    have hk : 0 < k := by
      unfold chunkSize at hc
      split at hc <;> simp at hc
      omega
    have hf : (windows k s.bufBytes).flatten.length = s.config.bufLen := by rw [windows_flatten k hk, hl]
    simp only
    rw [opSendCommand_accepts c.value [] s (h.mono (by simp)), Flow.done_andThen,
      sendWindows_accepts _ _ rfl rfl rfl (State.linkAccepts_of_env (s := s) rfl (by rw [hf]; exact h)), hf]
    simp [frameTrace]

/-- The bulk form sends one frame. -/
theorem chunkSize_bulk {c : Parameters} (h : bulkForm c) : chunkSize c = none := by
  unfold bulkForm at h
  unfold chunkSize
  split <;> simp_all

/-- The chunked form has windows of CHUNK bytes. -/
theorem chunkSize_count {c : Parameters} {k : Nat} {hk : 0 < k} (h : c.chunk = .count k hk) (hb : k < c.bufLen) :
    chunkSize c = some k := by
  simp only [chunkSize, h]
  rw [if_neg (by omega)]

/-- How many windows there are: `ceil(BUFLEN / k)` (R175). -/
theorem windows_length (k : Nat) (bytes : List Byte) : (windows k bytes).length = (bytes.length + k - 1) / k := by
  simp [windows]

/-- Enough windows to hold the bytes, and no window without a byte. -/
theorem windows_bounds (k : Nat) (hk : 0 < k) (bytes : List Byte) :
    bytes.length ≤ (windows k bytes).length * k ∧ (windows k bytes).length * k < bytes.length + k := by
  rw [windows_length]
  have h1 := Nat.div_add_mod (bytes.length + k - 1) k
  have h2 := Nat.mod_lt (bytes.length + k - 1) hk
  rw [Nat.mul_comm] at h1
  omega

/-- The t-th window. -/
theorem windows_getElem? (k : Nat) (bytes : List Byte) (t : Nat) (h : t < (windows k bytes).length) :
    (windows k bytes)[t]? = some ((bytes.drop (t * k)).take k) := by
  rw [windows_length] at h
  simp [windows, h]

/-- The windows before byte n, the window that holds it, and the rest. -/
theorem windows_split (k n : Nat) (hk : 0 < k) (bytes : List Byte) (hn : n < bytes.length) :
    ∃ later, windows k bytes =
      (List.range (n / k)).map (fun j => (bytes.drop (j * k)).take k) ++
        ((bytes.drop (n / k * k)).take k) :: later := by
  have hq : n / k < (windows k bytes).length := by
    by_contra hc
    have h1 := (windows_bounds k hk bytes).1
    have h2 : (windows k bytes).length * k ≤ n / k * k := Nat.mul_le_mul_right _ (by omega)
    have h3 := Nat.div_mul_le_self n k
    omega
  rw [windows_length] at hq
  obtain ⟨r, hr⟩ := Nat.exists_eq_add_of_lt hq
  refine ⟨((List.range r).map fun j => (bytes.drop ((n / k + (j + 1)) * k)).take k), ?_⟩
  rw [windows, hr, Nat.add_assoc, List.range_add, List.map_append, Nat.add_comm r 1, Nat.add_comm 1 r,
    List.range_succ_eq_map]
  simp [Function.comp_def]

/-- Windows in two parts. -/
theorem sendWindows_append (a b : List (List Byte)) :
    ∀ s : State, sendWindows (a ++ b) s = (sendWindows a s).andThen (sendWindows b) := by
  induction a with
  | nil => intro s; rfl
  | cons w rest ih =>
    intro s
    rw [List.cons_append, sendWindows, sendWindows, Flow.andThen_assoc]
    exact congrArg _ (funext ih)

/-- A plane load whose command byte the link refuses, in either form (40_transport.md R109). -/
theorem opSendPlane_refused_command (c : Command) (s : State) (h : s.linkRefusesAfter 0) :
    opSendPlane c s = .raised { s with
      dc := .command, cs := .asserted, dead := true, status := .failed (.transportFailure (.linkWrite 0)),
      trace := s.trace ++ [.dc .command, .cs .asserted], env := s.env.sent 1 } := by
  unfold opSendPlane
  split <;> rw [opSendCommand_refused_command _ _ s h]
  rfl

/-- A bulk plane load whose link refuses byte n of BUF. -/
theorem opSendPlane_refused_bulk (c : Command) (n : Nat) (s : State) (hb : bulkForm s.config)
    (hn : n < s.config.bufLen) (h : s.linkRefusesAfter (1 + n)) :
    opSendPlane c s = .raised { s with
      dc := .data, cs := .asserted, dead := true, status := .failed (.transportFailure (.linkWrite n)),
      trace := s.trace ++ frameStopTrace c.value s.bufBytes n, env := s.env.sent (1 + (n + 1)) } := by
  have hl : s.bufBytes.length = s.config.bufLen := Memory.length_bytes _ _
  unfold opSendPlane
  rw [chunkSize_bulk hb]
  simp only
  rw [opSendCommand_refused_data _ _ n s (by rw [hl]; exact hn) h]
  rfl

/-- A chunked plane load whose link refuses byte n of BUF: it stops inside the window that holds it (R175). -/
theorem opSendPlane_refused_chunked (c : Command) (k n : Nat) (hk : 0 < k) (s : State)
    (hc : chunkSize s.config = some k) (hn : n < s.config.bufLen) (h : s.linkRefusesAfter (1 + n)) :
    opSendPlane c s = .raised { s with
      dc := .data, cs := .asserted, dead := true, status := .failed (.transportFailure (.linkWrite (n % k))),
      trace := s.trace ++ chunkStopTrace k c.value s.bufBytes n, env := s.env.sent (1 + (n + 1)) } := by
  have hl : s.bufBytes.length = s.config.bufLen := Memory.length_bytes _ _
  have hdm : n / k * k + n % k = n := by rw [Nat.mul_comm]; exact Nat.div_add_mod n k
  have hm : n % k < k := Nat.mod_lt _ hk
  have hlen : ((List.range (n / k)).map fun j => (s.bufBytes.drop (j * k)).take k).flatten.length = n / k * k := by
    have full : ∀ j ∈ List.range (n / k),
        (List.length ∘ fun j => (s.bufBytes.drop (j * k)).take k) j = k := by
      intro j hj
      have hj' : (j + 1) * k ≤ n / k * k := Nat.mul_le_mul_right _ (by simpa using hj)
      rw [Nat.succ_mul] at hj'
      simp only [Function.comp_apply, List.length_take, List.length_drop, hl]
      omega
    rw [List.length_flatten, List.map_map, List.map_congr_left (g := fun _ => k) full]
    simp
  obtain ⟨later, hw⟩ := windows_split k n hk s.bufBytes (by rw [hl]; exact hn)
  unfold opSendPlane
  rw [hc]
  simp only
  have h0 : s.linkAccepts (1 + ([] : List Byte).length) := State.linkAccepts.mono h.1 (by simp)
  rw [opSendCommand_accepts c.value [] s h0, Flow.done_andThen, hw, sendWindows_append,
    sendWindows_accepts _ _ rfl rfl rfl, Flow.done_andThen, sendWindows, opSendData_refused _ (n % k)]
  · rw [hlen]
    simp only [Flow.raised_andThen, Environment.sent_sent, List.length_nil]
    have e1 : 1 + n / k * k + (n % k + 1) = 1 + (n + 1) := by omega
    simp [e1, chunkStopTrace, frameTrace, List.flatMap_map, List.take_take, Nat.min_eq_left (Nat.le_of_lt hm)]
  · simp only [List.length_take, List.length_drop, hl]
    omega
  · rw [hlen]
    refine State.linkRefusesAfter_of_env (s := s) (m := 1 + 0 + n / k * k) (by simp) ?_
    have e2 : 1 + 0 + n / k * k + n % k = 1 + n := by omega
    rw [e2]
    exact h
  · rw [hlen]
    exact State.linkAccepts_of_env (s := s) (m := 1) rfl (State.linkAccepts.mono h.1 (by omega))

end Sys2Proof.Machine
end

