-- ==== Sys2Proof/Laws/Wire.lean ====
section
/-! SUPPORT. What an observer reads of the traces of frames, data windows and plane loads (00_scope.md R8, 30_encoding.md
R83, R84). -/

namespace Sys2Proof.Machine

theorem sentBytes_append (l : Lines) (es fs : List Event) :
    sentBytes l (es ++ fs) = sentBytes l es ++ sentBytes (l.afterAll es) fs := by
  induction es generalizing l with
  | nil => rfl
  | cons e rest ih => cases e <;> simp [sentBytes, ih, Lines.afterAll, Lines.after]

theorem sentBytes_tx (l : Lines) (bytes : List Byte) :
    sentBytes l (bytes.map .tx) = bytes.map fun b => (l.dc, b) := by
  induction bytes with
  | nil => rfl
  | cons b rest ih => simp [sentBytes, ih]

/-- Bytes move no latch. -/
theorem Lines.afterAll_tx (l : Lines) (bytes : List Byte) : l.afterAll (bytes.map .tx) = l := by
  induction bytes with
  | nil => rfl
  | cons b rest ih => simpa [Lines.afterAll, Lines.after] using ih

/-- Every byte of a data window is sent in data mode. -/
theorem sentBytes_dataWindow (l : Lines) (bytes : List Byte) :
    sentBytes l (dataWindow bytes) = bytes.map fun b => (.data, b) := by
  simp [dataWindow, sentBytes, sentBytes_append, sentBytes_tx, Lines.after]

theorem sentBytes_commandWindow (l : Lines) (op : Byte) : sentBytes l (commandWindow op) = [(.command, op)] := rfl

theorem sentBytes_frameTrace (l : Lines) (op : Byte) (bytes : List Byte) :
    sentBytes l (frameTrace op bytes) = (.command, op) :: bytes.map fun b => (.data, b) := by
  unfold frameTrace
  rw [sentBytes_append, sentBytes_commandWindow]
  cases bytes with
  | nil => rfl
  | cons b rest => simp [sentBytes_dataWindow]

theorem sentBytes_dataWindows (ws : List (List Byte)) (l : Lines) :
    sentBytes l (ws.flatMap dataWindow) = ws.flatten.map fun b => (.data, b) := by
  induction ws generalizing l with
  | nil => rfl
  | cons w rest ih => simp [sentBytes_append, sentBytes_dataWindow, ih]

/-- The bytes of a plane load do not depend on CHUNK (44_sequences.md R175). -/
theorem sentBytes_planeTrace (l : Lines) (c : Parameters) (op : Byte) (bytes : List Byte) :
    sentBytes l (planeTrace c op bytes) = (.command, op) :: bytes.map fun b => (.data, b) := by
  unfold planeTrace
  cases hc : chunkSize c with
  | none => exact sentBytes_frameTrace l op bytes
  | some k =>
    have hk : 0 < k := by
      unfold chunkSize at hc
      split at hc <;> simp at hc
      omega
    simp only
    rw [sentBytes_append, sentBytes_dataWindows, windows_flatten k hk]
    rfl

theorem txBytes_eq (l : Lines) (es : List Event) : txBytes es = (sentBytes l es).map Prod.snd := by
  induction es generalizing l with
  | nil => rfl
  | cons e rest ih =>
    cases e with
    | tx b => simp [txBytes, sentBytes, ih l]
    | dc m => simp only [txBytes, sentBytes]; exact ih _
    | cs m => simp only [txBytes, sentBytes]; exact ih _
    | rst m => simp only [txBytes, sentBytes]; exact ih _
    | busyq m => simp only [txBytes, sentBytes]; exact ih _

/-- Bytes in data mode are one payload. -/
theorem receive_data (bytes : List Byte) :
    receive (bytes.map fun b => (.data, b)) = { leading := bytes, frames := [] } := by
  induction bytes with
  | nil => rfl
  | cons b rest ih => simp [receive, ih]

/-! ## The wire view (00_scope.md R8) -/

/-- An event that repeats a latch's value is an assignment of that value. -/
theorem Lines.repeats_iff (l : Lines) (e : Event) :
    l.repeats e = true ↔ e = .dc l.dc ∨ e = .cs l.cs ∨ e = .rst l.rst := by
  cases e <;> simp [Lines.repeats, eq_comm]

/-- A repeated assignment moves no latch. -/
theorem Lines.after_repeats {l : Lines} {e : Event} (h : l.repeats e = true) : l.after e = l := by
  rcases (l.repeats_iff e).mp h with rfl | rfl | rfl <;> rfl

theorem Lines.afterAll_cons (l : Lines) (e : Event) (es : List Event) :
    l.afterAll (e :: es) = (l.after e).afterAll es := rfl

theorem wireView_cons (l : Lines) (e : Event) (es : List Event) :
    wireView l (e :: es) = (if l.repeats e then [] else [e]) ++ wireView (l.after e) es := by
  rw [wireView]
  cases h : l.repeats e with
  | true => simp [Lines.after_repeats h]
  | false => simp

theorem wireView_append (l : Lines) (es fs : List Event) :
    wireView l (es ++ fs) = wireView l es ++ wireView (l.afterAll es) fs := by
  induction es generalizing l with
  | nil => rfl
  | cons e rest ih => rw [List.cons_append, wireView_cons, wireView_cons, ih, List.append_assoc, Lines.afterAll_cons]

/-- No event of the wire view repeats the latch it meets. -/
theorem wireView_repeats_nothing (es : List Event) :
    ∀ (l : Lines) (pre post : List Event) (e : Event), wireView l es = pre ++ e :: post →
      (l.afterAll pre).repeats e = false := by
  induction es with
  | nil => intro l pre post e h; simp [wireView] at h
  | cons a rest ih =>
    intro l pre post e h
    rw [wireView_cons] at h
    cases ha : l.repeats a with
    | true =>
      rw [Lines.after_repeats ha] at h
      exact ih l pre post e (by simpa [ha] using h)
    | false =>
      cases pre with
      | nil =>
        simp only [ha, Bool.false_eq_true, if_false, List.cons_append, List.nil_append, List.cons.injEq] at h
        rw [← h.1]
        exact ha
      | cons p pre =>
        simp only [ha, Bool.false_eq_true, if_false, List.cons_append, List.nil_append, List.cons.injEq] at h
        rw [← h.1]
        exact ih _ pre post e h.2

end Sys2Proof.Machine
end

