-- ==== Sys2Proof/Laws/Frame.lean ====
section
/-! SUPPORT. What every operation over the lines, the link and Busy keeps, whichever way it ends: said once as a relation
between the state before and the state after, proved of each primitive, and carried through sequencing. -/

namespace Sys2Proof.Machine

/-- Whether an event is an assignment of the Reset latch. -/
def Event.isReset : Event → Bool
  | .rst _ => true
  | .dc _ => false
  | .cs _ => false
  | .tx _ => false
  | .busyq _ => false

/-- From s to t, with `es` appended to the trace: nothing of the buffer, the configuration, the host's side or READY
changes; the latches are moved by the recorded events and by nothing else; DEAD is not cleared; a transport failure in
STATUS is an old one or has latched DEAD. -/
structure Keeps (es : List Event) (s t : State) : Prop where
  buf : t.buf = s.buf
  config : t.config = s.config
  ready : t.ready = s.ready
  host : t.host = s.host
  stopAtFailure : t.stopAtFailure = s.stopAtFailure
  linkReady : t.env.linkReady = s.env.linkReady
  trace : t.trace = s.trace ++ es
  lines : t.lines = s.lines.afterAll es
  dead : s.dead = true → t.dead = true
  failure : ∀ c, t.status = .failed (.transportFailure c) → s.status = .failed (.transportFailure c) ∨ t.dead = true

theorem Keeps.refl (s : State) : Keeps [] s s :=
  ⟨rfl, rfl, rfl, rfl, rfl, rfl, by simp, rfl, id, fun _ h => .inl h⟩

theorem Lines.afterAll_append (l : Lines) (es fs : List Event) :
    l.afterAll (es ++ fs) = (l.afterAll es).afterAll fs := by
  simp [Lines.afterAll]

theorem Keeps.trans {es fs : List Event} {s t u : State} (h : Keeps es s t) (k : Keeps fs t u) :
    Keeps (es ++ fs) s u where
  buf := k.buf.trans h.buf
  config := k.config.trans h.config
  ready := k.ready.trans h.ready
  host := k.host.trans h.host
  stopAtFailure := k.stopAtFailure.trans h.stopAtFailure
  linkReady := k.linkReady.trans h.linkReady
  trace := by rw [k.trace, h.trace, List.append_assoc]
  lines := by rw [k.lines, h.lines, Lines.afterAll_append]
  dead := fun d => k.dead (h.dead d)
  failure := fun c hc => (k.failure c hc).elim (fun h' => (h.failure c h').imp id k.dead) .inr

/-- The appended events satisfy a property that the sequence of them, read from the state's latches, must have. -/
def Does (P : Lines → List Event → Prop) (s t : State) : Prop := ∃ es, Keeps es s t ∧ P s.lines es

/-- A property of stretches of events that holds of the empty stretch and of two stretches in a row. -/
structure Stretch (P : Lines → List Event → Prop) : Prop where
  nil : ∀ l, P l []
  append : ∀ l es fs, P l es → P (l.afterAll es) fs → P l (es ++ fs)

theorem Does.refl {P : Lines → List Event → Prop} (hP : Stretch P) (s : State) : Does P s s :=
  ⟨[], Keeps.refl s, hP.nil _⟩

theorem Does.trans {P : Lines → List Event → Prop} (hP : Stretch P) {s t u : State} (h : Does P s t) (k : Does P t u) :
    Does P s u := by
  obtain ⟨es, h, p⟩ := h
  obtain ⟨fs, k, q⟩ := k
  exact ⟨es ++ fs, h.trans k, hP.append _ _ _ p (h.lines ▸ q)⟩

/-- Sequencing: both parts do it, so the whole does. -/
theorem Does.andThen {P : Lines → List Event → Prop} (hP : Stretch P) {s : State} {fl : Flow} {f : State → Flow}
    (h : Does P s fl.final) (k : ∀ t, fl = .done t → Does P t (f t).final) : Does P s (fl.andThen f).final := by
  cases fl with
  | done t => exact h.trans hP (k t rfl)
  | raised t => exact h
  | waiting t => exact h

/-- Whether no byte is sent with Select released and no Reset assignment is made: what every operation but WRITE and
PULSE_RESET appends. -/
def Orderly (l : Lines) (es : List Event) : Prop :=
  sentSelected l es = true ∧ ∀ e ∈ es, e.isReset = false

/-- Every stretch. -/
def Anything (_ : Lines) (_ : List Event) : Prop := True

/-- No Reset assignment. -/
def NoReset (_ : Lines) (es : List Event) : Prop := ∀ e ∈ es, e.isReset = false

/-- Every byte sent with Select asserted. -/
def Selected (l : Lines) (es : List Event) : Prop := sentSelected l es = true

theorem sentSelected_append (l : Lines) (es fs : List Event) :
    sentSelected l (es ++ fs) = (sentSelected l es && sentSelected (l.afterAll es) fs) := by
  induction es generalizing l with
  | nil => rfl
  | cons e rest ih => simp only [List.cons_append, sentSelected, ih, Bool.and_assoc]; rfl

theorem stretch_anything : Stretch Anything := ⟨fun _ => trivial, fun _ _ _ _ _ => trivial⟩

theorem stretch_noReset : Stretch NoReset where
  nil _ e he := by simp at he
  append _ es fs h k e he := by
    rcases List.mem_append.mp he with h' | h'
    · exact h e h'
    · exact k e h'

theorem stretch_selected : Stretch Selected where
  nil _ := rfl
  append l es fs h k := by simp only [Selected] at *; simp [sentSelected_append, h, k]

theorem stretch_orderly : Stretch Orderly where
  nil l := ⟨rfl, by simp⟩
  append l es fs h k :=
    ⟨stretch_selected.append l es fs h.1 k.1, stretch_noReset.append l es fs h.2 k.2⟩

/-! ## The primitives -/

theorem keeps_assignDc (m : DcMode) (s : State) : Keeps [.dc m] s (s.assignDc m) :=
  ⟨rfl, rfl, rfl, rfl, rfl, rfl, rfl, rfl, id, fun _ h => .inl h⟩

theorem keeps_assignCs (v : Select) (s : State) : Keeps [.cs v] s (s.assignCs v) :=
  ⟨rfl, rfl, rfl, rfl, rfl, rfl, rfl, rfl, id, fun _ h => .inl h⟩

theorem keeps_assignRst (b : Bit) (s : State) : Keeps [.rst b] s (s.assignRst b) :=
  ⟨rfl, rfl, rfl, rfl, rfl, rfl, rfl, rfl, id, fun _ h => .inl h⟩

theorem keeps_sampleBusy (s : State) : Keeps [.busyq s.busyNow] s s.sampleBusy :=
  ⟨rfl, rfl, rfl, rfl, rfl, rfl, rfl, rfl, id, fun _ h => .inl h⟩

/-- Updates that append nothing. -/
theorem keeps_setOk (s : State) : Keeps [] s s.setOk :=
  ⟨rfl, rfl, rfl, rfl, rfl, rfl, by simp, rfl, id, fun c h => by simp at h⟩

theorem keeps_setCycle (c : Cycle) (s : State) : Keeps [] s (s.setCycle c) :=
  ⟨rfl, rfl, rfl, rfl, rfl, rfl, by simp, rfl, id, fun _ h => .inl h⟩

theorem keeps_setResult (v : Bit) (s : State) : Keeps [] s (s.setResult v) :=
  ⟨rfl, rfl, rfl, rfl, rfl, rfl, by simp, rfl, id, fun _ h => .inl h⟩

theorem keeps_setPolls (n : Nat) (s : State) : Keeps [] s (s.setPolls n) :=
  ⟨rfl, rfl, rfl, rfl, rfl, rfl, by simp, rfl, id, fun _ h => .inl h⟩

theorem keeps_wait (w : Option Resume) (s : State) : Keeps [] s { s with wait := w } :=
  ⟨rfl, rfl, rfl, rfl, rfl, rfl, by simp, rfl, id, fun _ h => .inl h⟩

/-- Raising any failure of the block but a transport failure. -/
theorem keeps_raised (f : Failure) (s : State) (hf : ∀ c, f ≠ .transportFailure c) : Keeps [] s (s.raised f) :=
  ⟨rfl, rfl, rfl, rfl, rfl, rfl, by simp, rfl, id, fun c h => absurd (by simpa using h) (hf c)⟩

theorem keeps_transmit_ok (b : Byte) (s : State) :
    Keeps [.tx b] s { s with trace := s.trace ++ [.tx b], env := s.env.sent 1 } :=
  ⟨rfl, rfl, rfl, rfl, rfl, rfl, rfl, rfl, id, fun _ h => .inl h⟩

theorem keeps_transmit_fail (f : Failure) (s : State) :
    Keeps [] s { s with env := s.env.sent 1, dead := true, status := .failed f } :=
  ⟨rfl, rfl, rfl, rfl, rfl, rfl, by simp, rfl, fun _ => rfl, fun _ _ => .inr rfl⟩

/-! ## The operations

Each for a property P of stretches, from the primitives it uses. -/

section
variable {P : Lines → List Event → Prop}

theorem Does.of_keeps (hP : Stretch P) {s t : State} (h : Keeps [] s t) : Does P s t := ⟨[], h, hP.nil _⟩

/-- The byte loop: every accepted byte is a permitted event where it is sent. -/
theorem transmitFrom_does (hP : Stretch P) (data : List Byte) (l : Lines) (hl : ∀ b, P l [.tx b]) :
    ∀ (i : Nat) (s : State), s.lines = l → Does P s (transmitFrom i data s).final := by
  induction data with
  | nil => intro i s _; exact Does.refl hP s
  | cons b rest ih =>
    intro i s hs
    rw [transmitFrom]
    rcases s.transmit_cases i b with ⟨-, ht⟩ | ⟨-, ht⟩
    · rw [ht, Flow.done_andThen]
      exact Does.trans hP ⟨_, keeps_transmit_ok b s, hs ▸ hl b⟩ (ih _ _ hs)
    · rw [ht]
      exact Does.of_keeps hP (keeps_transmit_fail _ s)

theorem opWrite_does (hP : Stretch P) (data : List Byte) (s : State) (hl : ∀ b, P s.lines [.tx b]) :
    Does P s (opWrite data s).final :=
  Does.andThen hP (transmitFrom_does hP data s.lines hl 0 s rfl) fun t _ => Does.of_keeps hP (keeps_setOk t)

theorem opWindow_does (hP : Stretch P) (h : ∀ l m, P l [.dc m]) (h' : ∀ l v, P l [.cs v])
    (hl : ∀ l b, l.cs = Select.asserted → P l [.tx b]) (m : DcMode) (data : List Byte) (s : State) :
    Does P s (opWindow m data s).final := by
  have h1 : Does P s ((s.assignDc m).assignCs .asserted) :=
    Does.trans hP ⟨_, keeps_assignDc m s, h _ m⟩ ⟨_, keeps_assignCs .asserted _, h' _ _⟩
  refine Does.trans hP h1 (Does.andThen hP (opWrite_does hP data _ fun b => hl _ b rfl) fun t _ => ?_)
  exact ⟨_, keeps_assignCs .released t, h' _ _⟩

theorem opSendData_does (hP : Stretch P) (h : ∀ l m, P l [.dc m]) (h' : ∀ l v, P l [.cs v])
    (hl : ∀ l b, l.cs = Select.asserted → P l [.tx b]) (data : List Byte) (s : State) :
    Does P s (opSendData data s).final :=
  Does.andThen hP (opWindow_does hP h h' hl .data data s) fun t _ =>
    Does.trans hP ⟨_, keeps_assignDc .command t, h _ _⟩ (Does.of_keeps hP (keeps_setOk _))

theorem opSendCommand_does (hP : Stretch P) (h : ∀ l m, P l [.dc m]) (h' : ∀ l v, P l [.cs v])
    (hl : ∀ l b, l.cs = Select.asserted → P l [.tx b]) (opcode : Byte) (data : List Byte) (s : State) :
    Does P s (opSendCommand opcode data s).final := by
  refine Does.andThen hP (opWindow_does hP h h' hl .command [opcode] s) fun t _ => ?_
  refine Does.andThen hP ?_ fun u _ => Does.of_keeps hP (keeps_setOk u)
  split
  · exact Does.refl hP t
  · exact opSendData_does hP h h' hl data t

theorem pollLoop_does (hP : Stretch P) (h : ∀ l v, P l [.busyq v]) :
    ∀ (budget : Nat) (s : State), Does P s (pollLoop budget s).final := by
  have time : ∀ s : State, Does P s (s.raised (.hardwareTimeout (.pollBoundExceeded s.polls))) :=
    fun s => Does.of_keeps hP (keeps_raised _ s (by simp))
  intro budget
  induction budget with
  | zero =>
    intro s
    rw [pollLoop]
    split
    · exact time s
    · exact Does.refl hP s
  | succ n ih =>
    intro s
    rw [pollLoop]
    split
    · exact time s
    · have h1 : Does P s (s.sampleBusy.setPolls (s.polls + 1)) :=
        Does.trans hP ⟨_, keeps_sampleBusy s, h _ _⟩ (Does.of_keeps hP (keeps_setPolls _ _))
      refine Does.trans hP h1 ?_
      split
      · exact ih _
      · exact Does.trans hP (Does.of_keeps hP (keeps_setCycle _ _)) (Does.of_keeps hP (keeps_setOk _))

theorem opPoll_does (hP : Stretch P) (h : ∀ l v, P l [.busyq v]) (r : Resume) (s : State) :
    Does P s (opPoll r s).final := by
  have := pollLoop_does hP h (pollBudget s.config) s
  unfold opPoll
  cases hl : pollLoop (pollBudget s.config) s with
  | done t => simpa [hl] using this
  | raised t => simpa [hl] using this
  | waiting t => rw [hl] at this; exact Does.trans hP this (Does.of_keeps hP (keeps_wait _ t))

theorem opWaitIdle_does (hP : Stretch P) (h : ∀ l v, P l [.busyq v]) (r : Resume) (s : State) :
    Does P s (opWaitIdle r s).final :=
  Does.trans hP (Does.of_keeps hP (keeps_setPolls 0 s)) (opPoll_does hP h r _)

variable (hP : Stretch P) (h : ∀ l m, P l [.dc m]) (h' : ∀ l v, P l [.cs v])
  (hl : ∀ l b, l.cs = Select.asserted → P l [.tx b]) (hq : ∀ l v, P l [.busyq v])
include hP h h' hl

theorem sendScript_does (script : List (Command × List Byte)) :
    ∀ s : State, Does P s (sendScript script s).final := by
  induction script with
  | nil => exact Does.refl hP
  | cons p rest ih =>
    intro s
    exact Does.andThen hP (opSendCommand_does hP h h' hl _ _ s) fun t _ => ih t

theorem initAfterWait_does (s : State) : Does P s (initAfterWait s).final :=
  Does.trans hP (Does.of_keeps hP (keeps_setCycle .idle s))
    (Does.andThen hP (sendScript_does hP h h' hl _ _) fun t _ => Does.of_keeps hP (keeps_setOk t))

theorem sendWindows_does (ws : List (List Byte)) : ∀ s : State, Does P s (sendWindows ws s).final := by
  induction ws with
  | nil => exact Does.refl hP
  | cons w rest ih =>
    intro s
    exact Does.andThen hP (opSendData_does hP h h' hl _ s) fun t _ => ih t

theorem opSendPlane_does (c : Command) (s : State) : Does P s (opSendPlane c s).final := by
  unfold opSendPlane
  cases chunkSize s.config with
  | none => exact opSendCommand_does hP h h' hl _ _ s
  | some k =>
    exact Does.andThen hP (opSendCommand_does hP h h' hl _ _ s) fun t _ => sendWindows_does hP h h' hl _ t

theorem opWritePlane_does (plane : Plane) (s : State) : Does P s (opWritePlane plane s).final :=
  Does.andThen hP (opSendPlane_does hP h h' hl _ s) fun t _ =>
    Does.trans hP (Does.of_keeps hP (keeps_setCycle _ t)) (Does.of_keeps hP (keeps_setOk _))

theorem opCommand_does (plane : Plane) (c : Command) (payload : Payload) (s : State) :
    Does P s (opCommand plane c payload s).final := by
  cases payload with
  | given data => exact opSendCommand_does hP h h' hl _ _ s
  | documented =>
    unfold opCommand opDocumented
    cases c <;> first | exact opSendCommand_does hP h h' hl _ _ s | exact opSendPlane_does hP h h' hl _ s

include hq

theorem opInit_does (s : State) : Does P s (opInit s).final :=
  Does.andThen hP (opSendCommand_does hP h h' hl _ _ s) fun t _ =>
    Does.andThen hP (opWaitIdle_does hP hq .init t) fun u _ => initAfterWait_does hP h h' hl u

theorem opTrigger_does (plane : Plane) (s : State) : Does P s (opTrigger plane s).final := by
  refine Does.andThen hP (opSendCommand_does hP h h' hl _ _ s) fun t _ => ?_
  refine Does.andThen hP (opSendCommand_does hP h h' hl _ _ t) fun u _ => ?_
  refine Does.trans hP (Does.of_keeps hP (keeps_setCycle .busy u)) ?_
  exact Does.andThen hP (opWaitIdle_does hP hq .refresh _) fun v _ => Does.of_keeps hP (keeps_setOk v)

theorem opRefresh_does (plane : Plane) (s : State) : Does P s (opRefresh plane s).final := by
  refine Does.trans hP ⟨_, keeps_sampleBusy s, hq _ _⟩ ?_
  unfold opRefresh
  split
  · exact Does.of_keeps hP (keeps_raised _ _ (by simp))
  · exact Does.trans hP (Does.of_keeps hP (keeps_setCycle s.sampleBusy.cycle.afterIdleSample s.sampleBusy))
      (opTrigger_does hP h h' hl hq plane _)

theorem opResume_does (k : Resume) (s : State) : Does P s (opResume k s).final := by
  refine Does.trans hP (Does.of_keeps hP (keeps_wait none s)) ?_
  refine Does.andThen hP (opPoll_does hP hq k _) fun t _ => ?_
  cases k with
  | waitIdle => exact Does.refl hP t
  | init => exact initAfterWait_does hP h h' hl t
  | refresh => exact Does.of_keeps hP (keeps_setOk t)

end

/-- PULSE_RESET ends with the Reset line high (40_transport.md R105). -/
theorem opPulseReset_keeps (s : State) : Keeps [.rst false, .rst true] s (opPulseReset s).final :=
  ((keeps_assignRst false s).trans (keeps_assignRst true _)).trans
    ((keeps_setCycle .idle _).trans (keeps_setOk _))

/-! ## The stretches -/

theorem orderly_dc (l : Lines) (m : DcMode) : Orderly l [.dc m] := ⟨rfl, by simp [Event.isReset]⟩
theorem orderly_cs (l : Lines) (v : Select) : Orderly l [.cs v] := ⟨rfl, by simp [Event.isReset]⟩
theorem orderly_busyq (l : Lines) (v : Bit) : Orderly l [.busyq v] := ⟨rfl, by simp [Event.isReset]⟩
theorem orderly_tx (l : Lines) (b : Byte) (h : l.cs = .asserted) : Orderly l [.tx b] :=
  ⟨by simp [sentSelected, h], by simp [Event.isReset]⟩

end Sys2Proof.Machine
end

