-- ==== Sys2Proof/Laws/Exec.lean ====
section
/-! SUPPORT. The entry checks, and what `exec` does for every instruction at once: which requests there are, and what each
keeps. -/

namespace Sys2Proof.Machine

/-- A request that passes the entry checks performs its steps. -/
theorem busRequest_runs (misuse : Option Refusal) (op : State → Flow) (s : State) (h : s.operable)
    (ha : s.allows misuse) : busRequest misuse op s = .next (op s).final := by
  obtain ⟨hr, hd⟩ := h
  rcases ha with ha | ha <;> simp [busRequest, State.refusalFor, State.unlessDead, hr, hd, ha]

/-- A request without misuse. -/
theorem busRequest_runs_none (op : State → Flow) (s : State) (h : s.operable) :
    busRequest none op s = .next (op s).final :=
  busRequest_runs none op s h (.inr rfl)

/-- While DEAD a request fails and does nothing else (10_state.md R28). -/
theorem busRequest_dead (misuse : Option Refusal) (op : State → Flow) (s : State) (hr : s.ready = true)
    (hd : s.dead = true) :
    busRequest misuse op s = .next { s with status := .failed (.transportFailure .dead) } := by
  simp [busRequest, State.refusalFor, State.unlessDead, hr, hd, State.raised]

/-- A misuse is refused where the block is configured to refuse it. -/
theorem busRequest_refuses (r : Refusal) (op : State → Flow) (s : State) (h : s.operable)
    (hc : s.config.refuseMisuse = true) : busRequest (some r) op s = .refused r := by
  simp [busRequest, State.refusalFor, h.1, h.2, hc]

theorem busRequest_notReady (misuse : Option Refusal) (op : State → Flow) (s : State) (hr : s.ready = false) :
    busRequest misuse op s = .refused .notReady := by
  simp [busRequest, hr]

/-- A request that answers a next state was issued to a constructed block, and either failed at the DEAD check or performed
its steps, with no misuse if the block refuses it. -/
theorem busRequest_next {misuse : Option Refusal} {op : State → Flow} {s t : State}
    (h : busRequest misuse op s = .next t) :
    s.ready = true ∧
      ((s.dead = true ∧ t = { s with status := .failed (.transportFailure .dead) }) ∨
        (s.dead = false ∧ s.allows misuse ∧ t = (op s).final)) := by
  unfold busRequest at h
  cases hr : s.ready with
  | false => simp [hr] at h
  | true =>
    refine ⟨rfl, ?_⟩
    cases hd : s.dead with
    | true =>
      simp only [hr, hd, State.refusalFor, State.unlessDead, Bool.not_true, Bool.and_false, Bool.false_eq_true,
        if_false, if_true, State.raise_eq, Flow.final_raised, Host.Outcome.next.injEq] at h
      exact .inl ⟨rfl, h.symm.trans (by simp [State.raised, hr, hd])⟩
    | false =>
      refine .inr ⟨rfl, ?_⟩
      cases hc : s.config.refuseMisuse with
      | false =>
        simp only [hr, hd, hc, State.refusalFor, State.unlessDead, Bool.false_and, Bool.false_eq_true, if_false,
          if_true, Host.Outcome.next.injEq] at h
        exact ⟨.inl hc, h.symm⟩
      | true =>
        cases misuse with
        | some r => simp [hr, hd, hc, State.refusalFor] at h
        | none =>
          simp only [hr, hd, hc, State.refusalFor, State.unlessDead, Bool.not_false, Bool.and_true,
            Bool.false_eq_true, if_false, if_true, Host.Outcome.next.injEq] at h
          exact ⟨.inr rfl, h.symm⟩

/-- The answer of PB_SET and PB_GET in a state with a legal geometry: never a fault. -/
theorem pixelPlace_some {c : Parameters} {x y : Int} {p : PixelPlace} (hg : LegalGeometry c)
    (h : pixelPlace c x y = some p) : p.index < c.bufLen ∧ p.bit < 8 := by
  unfold pixelPlace at h
  split at h
  · simp at h
  · rename_i hb
    simp only [not_or, not_lt, not_le] at hb
    obtain ⟨hx, hx', hy, hy'⟩ := hb
    cases h
    refine ⟨?_, Nat.mod_lt _ (by omega)⟩
    simp only
    rw [hg.bufLen_eq, hg.pages_eq]
    have h1 : y.toNat / 8 < c.height / 8 := by
      have := hg.whole_pages
      omega
    have h2 : x.toNat < c.width := by omega
    calc y.toNat / 8 * c.width + x.toNat < y.toNat / 8 * c.width + c.width := by omega
      _ = (y.toNat / 8 + 1) * c.width := by rw [Nat.succ_mul]
      _ ≤ c.height / 8 * c.width := Nat.mul_le_mul_right _ h1

theorem bufRead_mapped {s : State} {i : Nat} (h : i < s.config.bufLen) : s.bufRead i = some (Memory.read s.buf i) := by
  simp [State.bufRead, h]

/-- The pixel buffer requests that answer a next state. -/
theorem bufferRequest_next {op : State → Result} {s t : State} (h : bufferRequest op s = .next t) :
    s.ready = true ∧ op s = .next t := by
  unfold bufferRequest at h
  cases hr : s.ready <;> simp_all

/-- What PB_SET did, if it answered. -/
theorem opPbSet_next {x y : Int} {b : Bit} {s t : State} (h : opPbSet x y b s = .next t) :
    (pixelPlace s.config x y = none ∧ t = s.raised (.outOfBounds x y)) ∨
      ∃ p, pixelPlace s.config x y = some p ∧ p.index < s.config.bufLen ∧
        t = (s.bufWrite p.index (withPixel (Memory.read s.buf p.index) p.bit b)).setOk := by
  unfold opPbSet at h
  cases hp : pixelPlace s.config x y with
  | none =>
    rw [hp] at h
    simp at h
    exact .inl ⟨rfl, h.symm⟩
  | some p =>
    rw [hp] at h
    simp only [State.bufRead] at h
    split at h
    · simp at h
    · rename_i old ho
      split at ho <;> simp at ho
      rename_i hi
      simp at h
      exact .inr ⟨p, rfl, hi, by rw [← h, ho]⟩

/-- What PB_GET did, if it answered. -/
theorem opPbGet_next {x y : Int} {s t : State} (h : opPbGet x y s = .next t) :
    (pixelPlace s.config x y = none ∧ t = s.raised (.outOfBounds x y)) ∨
      ∃ p, pixelPlace s.config x y = some p ∧ p.index < s.config.bufLen ∧
        t = (s.setResult (pixelOf (Memory.read s.buf p.index) p.bit)).setOk := by
  unfold opPbGet at h
  cases hp : pixelPlace s.config x y with
  | none =>
    rw [hp] at h
    simp at h
    exact .inl ⟨rfl, h.symm⟩
  | some p =>
    rw [hp] at h
    simp only [State.bufRead] at h
    split at h
    · simp at h
    · rename_i old ho
      split at ho <;> simp at ho
      rename_i hi
      simp at h
      exact .inr ⟨p, rfl, hi, by rw [← h, ho]⟩

/-- The instructions that go through `busRequest`, each with the steps it performs and the misuse it checks; the other three
are the pixel buffer's. -/
def busSteps (s : State) : Instr → Option (Option Refusal × (State → Flow))
  | .setCommandMode => some (none, fun s => .done (s.assignDc .command).setOk)
  | .setDataMode => some (none, fun s => .done (s.assignDc .data).setOk)
  | .assertSelect => some (none, fun s => .done (s.assignCs .asserted).setOk)
  | .releaseSelect => some (none, fun s => .done (s.assignCs .released).setOk)
  | .write data => some (writeMisuse s, opWrite data)
  | .pulseReset => some (none, opPulseReset)
  | .readBusy => some (none, fun s => .done (s.sampleBusy.setResult s.busyNow).setOk)
  | .sendCommand op data => some (commandMisuse op data s, opSendCommand op data)
  | .sendData data => some (sendMisuse s, opSendData data)
  | .waitIdle => some (none, opWaitIdle .waitIdle)
  | .init => some (none, opInit)
  | .writePlane plane => some (sendMisuse s, opWritePlane plane)
  | .refresh plane => some (none, opRefresh plane)
  | .pbClear _ => none
  | .pbSet _ _ _ => none
  | .pbGet _ _ => none
  | .softReset p => some (sendMisuse s, opCommand .bw .softReset p)
  | .driverCtrl p => some (sendMisuse s, opCommand .bw .driverCtrl p)
  | .dataEntryMode p => some (sendMisuse s, opCommand .bw .dataEntryMode p)
  | .setDummyPeriod p => some (sendMisuse s, opCommand .bw .setDummyPeriod p)
  | .setGateWidth p => some (sendMisuse s, opCommand .bw .setGateWidth p)
  | .setWaveCtrl p => some (sendMisuse s, opCommand .bw .setWaveCtrl p)
  | .ramXAddress p => some (sendMisuse s, opCommand .bw .ramXAddress p)
  | .ramYAddress p => some (sendMisuse s, opCommand .bw .ramYAddress p)
  | .setRamCounterX p => some (sendMisuse s, opCommand .bw .setRamCounterX p)
  | .setRamCounterY p => some (sendMisuse s, opCommand .bw .setRamCounterY p)
  | .setAnalogueCtrl p => some (sendMisuse s, opCommand .bw .setAnalogueCtrl p)
  | .setDigitalCtrl p => some (sendMisuse s, opCommand .bw .setDigitalCtrl p)
  | .writeRamBw p => some (sendMisuse s, opCommand .bw .writeRamBw p)
  | .writeRamRed p => some (sendMisuse s, opCommand .bw .writeRamRed p)
  | .dispUpdate1 p => some (sendMisuse s, opCommand .bw .dispUpdate1 p)
  | .dispUpdate2 plane p => some (sendMisuse s, opCommand plane .dispUpdate2 p)
  | .masterActivation p => some (sendMisuse s, opCommand .bw .masterActivation p)

/-- `exec` of an instruction with bus steps is a bus request. -/
theorem exec_bus {i : Instr} {s : State} {m : Option Refusal} {op : State → Flow} (h : busSteps s i = some (m, op)) :
    exec i s = busRequest m op s := by
  cases i <;> simp only [busSteps, Option.some.injEq, Prod.mk.injEq, reduceCtorEq] at h <;>
    obtain ⟨rfl, rfl⟩ := h <;> rfl

/-- A command row's steps. -/
theorem busSteps_ofCommand (s : State) (plane : Plane) (payload : Payload) (c : Command) :
    ∃ pl, (c = .dispUpdate2 → pl = plane) ∧
      busSteps s (Instr.ofCommand plane payload c) = some (sendMisuse s, opCommand pl c payload) := by
  cases c <;> first | exact ⟨.bw, by simp, rfl⟩ | exact ⟨plane, by simp, rfl⟩

/-- What the steps of every instruction keep, for any property of stretches that single events of the instruction have. -/
theorem busSteps_does {P : Lines → List Event → Prop} (hP : Stretch P) (h : ∀ l m, P l [.dc m])
    (h' : ∀ l v, P l [.cs v]) (hl : ∀ l b, l.cs = Select.asserted → P l [.tx b]) (hq : ∀ l v, P l [.busyq v])
    {i : Instr} {s : State} {m : Option Refusal} {op : State → Flow} (hi : busSteps s i = some (m, op))
    (hw : ∀ data, i = .write data → ∀ b, P s.lines [.tx b]) (hr : i ≠ .pulseReset) : Does P s (op s).final := by
  cases i <;> simp only [busSteps, Option.some.injEq, Prod.mk.injEq, reduceCtorEq] at hi <;> obtain ⟨rfl, rfl⟩ := hi
  case setCommandMode => exact Does.trans hP ⟨_, keeps_assignDc _ s, h _ _⟩ (Does.of_keeps hP (keeps_setOk _))
  case setDataMode => exact Does.trans hP ⟨_, keeps_assignDc _ s, h _ _⟩ (Does.of_keeps hP (keeps_setOk _))
  case assertSelect => exact Does.trans hP ⟨_, keeps_assignCs _ s, h' _ _⟩ (Does.of_keeps hP (keeps_setOk _))
  case releaseSelect => exact Does.trans hP ⟨_, keeps_assignCs _ s, h' _ _⟩ (Does.of_keeps hP (keeps_setOk _))
  case write data => exact opWrite_does hP data s (hw data rfl)
  case pulseReset => exact absurd rfl hr
  case readBusy =>
    exact Does.trans hP ⟨_, keeps_sampleBusy s, hq _ _⟩
      (Does.trans hP (Does.of_keeps hP (keeps_setResult _ _)) (Does.of_keeps hP (keeps_setOk _)))
  case sendCommand => exact opSendCommand_does hP h h' hl _ _ s
  case sendData => exact opSendData_does hP h h' hl _ s
  case waitIdle => exact opWaitIdle_does hP hq _ s
  case init => exact opInit_does hP h h' hl hq s
  case writePlane => exact opWritePlane_does hP h h' hl _ s
  case refresh => exact opRefresh_does hP h h' hl hq _ s
  all_goals exact opCommand_does hP h h' hl _ _ _ s

/-- The DEAD check keeps everything but STATUS. -/
theorem keeps_deadFailure (s : State) (hd : s.dead = true) :
    Keeps [] s { s with status := .failed (.transportFailure .dead) } :=
  ⟨rfl, rfl, rfl, rfl, rfl, rfl, by simp, rfl, id, fun _ _ => .inr hd⟩

end Sys2Proof.Machine
end

