-- ==== Sys2Proof/Laws/Outcomes.lean ====
section
/-! SUPPORT. How every operation ends: what it leaves of STATUS, CYCLE, the suspended wait, the lines and the number of
samples, for each of the three ways a flow can end. -/

namespace Sys2Proof.Machine

/-- How a flow ends: what holds of the state where it is done, where a failure was raised, where a wait is suspended. -/
def Ends (D R W : State → Prop) : Flow → Prop
  | .done s => D s
  | .raised s => R s
  | .waiting s => W s

/-- Sequencing. -/
theorem Ends.andThen {D R W D'} {fl : Flow} {f : State → Flow} (h : Ends D R W fl) (k : ∀ t, D t →
    Ends D' R W (f t)) : Ends D' R W (fl.andThen f) := by
  cases fl <;> simp_all [Ends]

/-- Weakening. -/
theorem Ends.mono {D R W D' R' W' : State → Prop} {fl : Flow} (h : Ends D R W fl) (a : ∀ t, D t → D' t) (b : ∀ t,
    R t → R' t) (c : ∀ t, W t → W' t) : Ends D' R' W' fl := by
  cases fl <;> simp_all [Ends]

/-- CYCLE, the suspended wait, the configuration and the number of Busy samples are unchanged. -/
structure SameControl (s t : State) : Prop where
  cycle : t.cycle = s.cycle
  wait : t.wait = s.wait
  config : t.config = s.config
  samples : t.env.samples = s.env.samples

theorem SameControl.refl (s) : SameControl s s := ⟨rfl, rfl, rfl, rfl⟩
theorem SameControl.trans {s t u} (h : SameControl s t) (k : SameControl t u) : SameControl s u := ⟨k.1.trans h.1,
    k.2.trans h.2, k.3.trans h.3, k.4.trans h.4⟩

/-- A refused byte was reported and nothing of the control state moved. -/
def LinkFailure (s t : State) : Prop := SameControl s t ∧ ∃ n, t.status = .failed (.transportFailure (.linkWrite n))

theorem transmit_ends (i b s) : Ends (SameControl s) (LinkFailure s) (fun _ => False) (s.transmit i b) := by
  rcases s.transmit_cases i b with ⟨_, h⟩ | ⟨_, h⟩ <;> rw [h]
  · exact ⟨rfl, rfl, rfl, rfl⟩
  · exact ⟨⟨rfl, rfl, rfl, rfl⟩, i, rfl⟩

theorem LinkFailure.ofSame {s t u} (h : SameControl s t) (k : LinkFailure t u) : LinkFailure s u := ⟨h.trans k.1, k.2⟩

theorem Ends.ofSame {D D' : State → Prop} {s t fl} (h : SameControl s t) (k : Ends D (LinkFailure t)
    (fun _ => False) fl) (hd : ∀ u, D u → D' u) : Ends D' (LinkFailure s) (fun _ => False) fl :=
  k.mono hd (fun _ => LinkFailure.ofSame h) (fun _ => id)

theorem transmitFrom_ends (data : List Byte) : ∀ i s, Ends (SameControl s) (LinkFailure s)
    (fun _ => False) (transmitFrom i data s) := by
  induction data with
  | nil => intro i s; exact SameControl.refl s
  | cons b r ih =>
    intro i s
    rw [transmitFrom]
    exact (transmit_ends i b s).andThen fun t h => Ends.ofSame h (ih _ t) (fun u => h.trans)

/-- Success with command mode and Select released (70_reset_and_hazards.md R247). -/
structure LeftIdle (s t : State) : Prop where
  same : SameControl s t
  dc : t.dc = .command
  cs : t.cs = .released
  ok : t.status = .ok

/-- Success. -/
def Succeeded (s t : State) : Prop := SameControl s t ∧ t.status = .ok

theorem opWrite_ends (data s) : Ends (Succeeded s) (LinkFailure s) (fun _ => False) (opWrite data s) :=
  (transmitFrom_ends data 0 s).andThen fun _ h => ⟨⟨h.1, h.2, h.3, h.4⟩, rfl⟩

theorem opWindow_ends (m data s) : Ends (fun t => SameControl s t ∧ t.dc = m ∧ t.cs = .released) (LinkFailure s)
    (fun _ => False) (opWindow m data s) := by
  have h1 : SameControl s ((s.assignDc m).assignCs .asserted) := ⟨rfl, rfl, rfl, rfl⟩
  have h2 : Ends (fun t => SameControl s t ∧ t.dc = m) (LinkFailure s)
      (fun _ => False) (transmitFrom 0 data ((s.assignDc m).assignCs .asserted)) := by
    have : ∀ (data : List Byte) i s, Ends (fun t => SameControl s t ∧ t.dc = s.dc) (LinkFailure s)
        (fun _ => False) (transmitFrom i data s) := by
      intro data
      induction data with
      | nil => intro i s; exact ⟨SameControl.refl s, rfl⟩
      | cons b r ih =>
        intro i s
        rw [transmitFrom]
        rcases s.transmit_cases i b with ⟨_, h⟩ | ⟨_, h⟩ <;> rw [h]
        · exact Ends.ofSame (t := { s with trace := s.trace ++ [.tx b], env := s.env.sent 1 }) ⟨rfl, rfl, rfl,
              rfl⟩ (ih _ _) (fun u hu => ⟨⟨hu.1.1, hu.1.2, hu.1.3, hu.1.4⟩, hu.2⟩)
        · exact ⟨⟨rfl, rfl, rfl, rfl⟩, i, rfl⟩
    exact Ends.ofSame h1 (this data 0 _) (fun u hu => ⟨h1.trans hu.1, hu.2⟩)
  unfold opWindow opWrite
  rw [Flow.andThen_assoc]
  exact h2.andThen fun t h => ⟨⟨h.1.1, h.1.2, h.1.3, h.1.4⟩, h.2, rfl⟩

theorem opSendData_ends (data s) : Ends (LeftIdle s) (LinkFailure s) (fun _ => False) (opSendData data s) :=
  (opWindow_ends .data data s).andThen fun _ h => ⟨⟨h.1.1, h.1.2, h.1.3, h.1.4⟩, rfl, h.2.2, rfl⟩

theorem opSendCommand_ends (op data s) : Ends (LeftIdle s) (LinkFailure s)
    (fun _ => False) (opSendCommand op data s) := by
  refine (opWindow_ends .command [op] s).andThen fun t h => ?_
  refine Ends.andThen (D := fun u => SameControl s u ∧ u.dc = .command ∧ u.cs = .released) ?_ fun u hu => ⟨⟨hu.1.1,
      hu.1.2, hu.1.3, hu.1.4⟩, hu.2.1, hu.2.2, rfl⟩
  split
  · exact h
  · exact Ends.ofSame h.1 (opSendData_ends data t) fun u hu => ⟨h.1.trans hu.same, hu.dc, hu.cs⟩

theorem LeftIdle.ofSame {s t u} (h : SameControl s t) (k : LeftIdle t u) : LeftIdle s u := ⟨h.trans k.1, k.2, k.3,
    k.4⟩

theorem sendWindows_ends (ws : List (List Byte)) : ∀ s, s.dc = .command → s.cs = .released → s.status = .ok →
    Ends (LeftIdle s) (LinkFailure s) (fun _ => False) (sendWindows ws s) := by
  induction ws with
  | nil => intro s a b c; exact ⟨SameControl.refl s, a, b, c⟩
  | cons w r ih =>
    intro s _ _ _
    exact (opSendData_ends w s).andThen fun t h => Ends.ofSame h.same (ih t h.dc h.cs h.ok)
        (fun u => LeftIdle.ofSame h.same)

theorem sendScript_ends (ws : List (Command × List Byte)) : ∀ s, s.dc = .command → s.cs = .released →
    s.status = .ok → Ends (LeftIdle s) (LinkFailure s) (fun _ => False) (sendScript ws s) := by
  induction ws with
  | nil => intro s a b c; exact ⟨SameControl.refl s, a, b, c⟩
  | cons w r ih =>
    intro s _ _ _
    exact (opSendCommand_ends _ _ s).andThen fun t h => Ends.ofSame h.same (ih t h.dc h.cs h.ok)
        (fun u => LeftIdle.ofSame h.same)

theorem opSendPlane_ends (c s) : Ends (LeftIdle s) (LinkFailure s) (fun _ => False) (opSendPlane c s) := by
  unfold opSendPlane
  split
  · exact opSendCommand_ends _ _ s
  · exact (opSendCommand_ends _ _ s).andThen fun t h => Ends.ofSame h.same (sendWindows_ends _ t h.dc h.cs h.ok)
        (fun u => LeftIdle.ofSame h.same)

theorem opCommand_ends (p c pl s) : Ends (LeftIdle s) (LinkFailure s) (fun _ => False) (opCommand p c pl s) := by
  cases pl with
  | given d => exact opSendCommand_ends _ _ s
  | documented => cases c <;> first | exact opSendCommand_ends _ _ s | exact opSendPlane_ends _ s

/-- What a wait keeps, and that a bounded one takes at most POLL_BOUND samples (42_sync.md R131). -/
structure WaitKept (s t : State) : Prop where
  dc : t.dc = s.dc
  cs : t.cs = s.cs
  config : t.config = s.config
  samples : ∀ b hb, s.config.pollBound = .count b hb → t.env.samples ≤ s.env.samples + b

/-- A wait whose last sample read 0. -/
structure WaitDone (s t : State) : Prop extends WaitKept s t where
  wait : t.wait = s.wait
  ok : t.status = .ok
  cycle : t.cycle = s.cycle.afterIdleSample
/-- A wait that timed out (60_exceptions.md R203). -/
structure WaitTimedOut (s t : State) : Prop extends WaitKept s t where
  wait : t.wait = s.wait
  status : ∃ n, t.status = .failed (.hardwareTimeout (.pollBoundExceeded n))
  cycle : t.cycle = s.cycle
/-- A wait left suspended: POLL_BOUND is INF (log 7). -/
structure WaitSuspended (k : Resume) (s t : State) : Prop extends WaitKept s t where
  wait : t.wait = some k
  status : t.status = s.status
  cycle : t.cycle = s.cycle
  inf : s.config.pollBound = .inf

theorem opPoll_ends_as (k : Resume) (s : State) (hp : ∀ b hb, s.config.pollBound = .count b hb →
    s.polls = 0) : Ends (WaitDone s) (WaitTimedOut s) (WaitSuspended k s) (opPoll k s) := by
  cases hb : s.config.pollBound with
  | inf =>
    cases h : s.busyNow with
    | true => rw [opPoll_suspends k s hb h]; exact { dc := rfl, cs := rfl, config := rfl, samples := fun b hb' h' => by simp [hb] at h', wait := rfl, status := rfl, cycle := rfl, inf := hb }
    | false => rw [opPoll_ends k s hb h]; exact { dc := rfl, cs := rfl, config := rfl, samples := fun b hb' h' => by simp [hb] at h', wait := rfl, ok := rfl, cycle := rfl }
  | count b hpos =>
    have h0 := hp b hpos hb
    have e : opPoll k s = opWaitIdle k s := by rw [opWaitIdle]; congr 1; cases s; simp_all [State.setPolls]
    rw [e]
    have hbud : pollBudget s.config = b := by simp [pollBudget, hb]
    rcases s.busyFor_or_idle b with h | ⟨m, hm, h⟩
    · rw [opWaitIdle_timeout k b hpos s hb h]
      refine { dc := rfl, cs := rfl, config := rfl, samples := fun b' hb' h' => ?_, wait := rfl, status := ⟨b, rfl⟩, cycle := rfl }
      simp [hb] at h'; simp [Environment.sampled]; omega
    · rw [opWaitIdle_idle k m s (by omega) h]
      refine { dc := rfl, cs := rfl, config := rfl, samples := fun b' hb' h' => ?_, wait := rfl, ok := rfl, cycle := rfl }
      simp [hb] at h'; simp [Environment.sampled]; omega

theorem opWaitIdle_ends (k : Resume) (s : State) : Ends (WaitDone s) (WaitTimedOut s) (WaitSuspended k s) (opWaitIdle k s) := by
  refine (opPoll_ends_as k (s.setPolls 0) (fun _ _ _ => rfl)).mono ?_ ?_ ?_
  · exact fun t h => { dc := h.dc, cs := h.cs, config := h.config, samples := h.samples, wait := h.wait, ok := h.ok, cycle := h.cycle }
  · exact fun t h => { dc := h.dc, cs := h.cs, config := h.config, samples := h.samples, wait := h.wait, status := h.status, cycle := h.cycle }
  · exact fun t h => { dc := h.dc, cs := h.cs, config := h.config, samples := h.samples, wait := h.wait, status := h.status, cycle := h.cycle, inf := h.inf }

/-- INIT to its end (44_sequences.md R170). -/
structure InitDone (s t : State) : Prop where
  dc : t.dc = .command
  cs : t.cs = .released
  ok : t.status = .ok
  wait : t.wait = s.wait
  cycle : t.cycle = .idle
  samples : ∀ b hb, s.config.pollBound = .count b hb → t.env.samples ≤ s.env.samples + b
/-- INIT stopped by a failure (R173). -/
structure InitRaised (s t : State) : Prop where
  status : (∃ n, t.status = .failed (.hardwareTimeout (.pollBoundExceeded n))) ∨ (∃ n,
      t.status = .failed (.transportFailure (.linkWrite n)))
  wait : t.wait = s.wait
  cycle : t.cycle = s.cycle ∨ t.cycle = .idle
  samples : ∀ b hb, s.config.pollBound = .count b hb → t.env.samples ≤ s.env.samples + b
/-- An operation left suspended in its wait, lines idle (log 7). -/
structure OperationSuspended (k : Resume) (c : Cycle) (s t : State) : Prop where
  dc : t.dc = .command
  cs : t.cs = .released
  ok : t.status = .ok
  wait : t.wait = some k
  cycle : t.cycle = c
  inf : s.config.pollBound = .inf

theorem initAfterWait_ends (s : State) (hd : s.dc = .command) (hc : s.cs = .released) (ho : s.status = .ok) :
   Ends (fun t => LeftIdle (s.setCycle .idle) t) (LinkFailure (s.setCycle .idle))
       (fun _ => False) (initAfterWait s) :=
  (sendScript_ends initScript (s.setCycle .idle) hd hc ho).andThen fun _ h => ⟨⟨h.1.1, h.1.2, h.1.3, h.1.4⟩, h.dc,
      h.cs, rfl⟩

theorem opInit_ends (s : State) : Ends (InitDone s) (InitRaised s) (OperationSuspended .init s.cycle s) (opInit s) := by
  refine Ends.andThen (D := LeftIdle s) ?_ ?_
  · exact (opSendCommand_ends _ _ s).mono (fun _ => id) (fun t h => ⟨.inr h.2, h.1.wait, .inl h.1.cycle, fun b _ _ => by rw [h.1.samples]; omega⟩) (fun _ => False.elim)
  · intro t h
    refine Ends.andThen (D := WaitDone t) ?_ ?_
    · refine (opWaitIdle_ends .init t).mono (fun _ => id) ?_ ?_
      · intro u hu; exact ⟨.inl hu.status, hu.wait.trans h.same.wait, .inl (hu.cycle.trans h.same.cycle), fun b hb hp => by rw [← h.same.samples]; exact hu.samples b hb (h.same.config ▸ hp)⟩
      · intro u hu; exact ⟨hu.dc.trans h.dc, hu.cs.trans h.cs, hu.status.trans h.ok, hu.wait, hu.cycle.trans h.same.cycle, h.same.config ▸ hu.inf⟩
    · intro u hu
      refine (initAfterWait_ends u (hu.dc.trans h.dc) (hu.cs.trans h.cs) hu.ok).mono ?_ ?_ (fun _ => False.elim)
      · intro v hv; exact ⟨hv.dc, hv.cs, hv.ok, hv.same.wait.trans (hu.wait.trans h.same.wait), hv.same.cycle, fun b hb hp => by rw [hv.same.samples]; rw [← h.same.samples]; exact hu.samples b hb (h.same.config ▸ hp)⟩
      · intro v hv; exact ⟨.inr hv.2, hv.1.wait.trans (hu.wait.trans h.same.wait), .inr hv.1.cycle, fun b hb hp => by rw [hv.1.samples]; rw [← h.same.samples]; exact hu.samples b hb (h.same.config ▸ hp)⟩

/-- REFRESH from its trigger on, to its end (R172). -/
structure TriggerDone (s t : State) : Prop where
  dc : t.dc = .command
  cs : t.cs = .released
  ok : t.status = .ok
  wait : t.wait = s.wait
  cycle : t.cycle = .idle
  samples : ∀ b hb, s.config.pollBound = .count b hb → t.env.samples ≤ s.env.samples + b
/-- REFRESH from its trigger on, stopped by a failure. -/
structure TriggerRaised (s t : State) : Prop where
  status : (∃ n, t.status = .failed (.hardwareTimeout (.pollBoundExceeded n))) ∨ (∃ n,
      t.status = .failed (.transportFailure (.linkWrite n)))
  wait : t.wait = s.wait
  cycle : t.cycle = s.cycle ∨ t.cycle = .busy
  samples : ∀ b hb, s.config.pollBound = .count b hb → t.env.samples ≤ s.env.samples + b

theorem opTrigger_ends (p s) : Ends (TriggerDone s) (TriggerRaised s) (OperationSuspended .refresh .busy s) (opTrigger p s) := by
  have lf : ∀ t, LinkFailure s t → TriggerRaised s t := fun t h => ⟨.inr h.2, h.1.wait, .inl h.1.cycle, fun b _ _ => by rw [h.1.samples]; omega⟩
  refine Ends.andThen (D := LeftIdle s) ((opSendCommand_ends _ _ s).mono (fun _ => id) lf
      (fun _ => False.elim)) fun t h => ?_
  refine Ends.andThen (D := LeftIdle s) ((opSendCommand_ends _ _ t).mono (fun u => LeftIdle.ofSame h.same)
      (fun u hu => lf u (LinkFailure.ofSame h.same hu)) (fun _ => False.elim)) fun u hu => ?_
  refine Ends.andThen (D := WaitDone (u.setCycle .busy)) ((opWaitIdle_ends .refresh (u.setCycle .busy)).mono
      (fun _ => id) ?_ ?_) ?_
  · intro v hv; exact ⟨.inl hv.status, hv.wait.trans hu.same.wait, .inr hv.cycle, fun b hb hp => by rw [← hu.same.samples]; exact hv.samples b hb (hu.same.config ▸ hp)⟩
  · intro v hv; exact ⟨hv.dc.trans hu.dc, hv.cs.trans hu.cs, hv.status.trans hu.ok, hv.wait, hv.cycle, hu.same.config ▸ hv.inf⟩
  · intro v hv; exact ⟨hv.dc.trans hu.dc, hv.cs.trans hu.cs, rfl, hv.wait.trans hu.same.wait, hv.cycle, fun b hb hp => by rw [← hu.same.samples]; exact hv.samples b hb (hu.same.config ▸ hp)⟩

/-- REFRESH stopped by a failure. -/
structure RefreshRaised (s t : State) : Prop where
  status : (∃ n, t.status = .failed (.hardwareTimeout (.pollBoundExceeded n))) ∨ (∃ n,
      t.status = .failed (.transportFailure (.linkWrite n))) ∨ t.status = .failed (.hardwareTimeout .triggerWhileBusy)
  wait : t.wait = s.wait
  cycle : t.cycle = s.cycle ∨ t.cycle = .busy ∨ t.cycle = .idle
  samples : ∀ b hb, s.config.pollBound = .count b hb → t.env.samples ≤ s.env.samples + b + 1
/-- REFRESH to its end. -/
structure RefreshDone (s t : State) : Prop where
  dc : t.dc = .command
  cs : t.cs = .released
  ok : t.status = .ok
  wait : t.wait = s.wait
  cycle : t.cycle = .idle
  samples : ∀ b hb, s.config.pollBound = .count b hb → t.env.samples ≤ s.env.samples + b + 1

theorem opRefresh_ends (p s) : Ends (RefreshDone s) (RefreshRaised s) (OperationSuspended .refresh .busy s) (opRefresh p s) := by
  unfold opRefresh
  simp only
  split
  · exact ⟨.inr (.inr rfl), rfl, .inl rfl, fun b _ _ => by simp [Environment.sampled]⟩
  · refine (opTrigger_ends p _).mono ?_ ?_ ?_
    · exact fun t h => ⟨h.dc, h.cs, h.ok, h.wait, h.cycle, fun b hb hp => by have := h.samples b hb hp; simp [Environment.sampled, State.setCycle] at this; omega⟩
    · refine fun t h => ⟨h.status.imp id .inl, h.wait, ?_, fun b hb hp => by have := h.samples b hb hp; simp [Environment.sampled, State.setCycle] at this; omega⟩
      rcases h.cycle with hc | hc
      · rw [hc]; simp only [State.setCycle, State.sampleBusy_cycle, Cycle.afterIdleSample_eq]; split <;> simp
      · exact .inr (.inl hc)
    · exact fun t h => ⟨h.dc, h.cs, h.ok, h.wait, h.cycle, h.inf⟩

/-- What `exec` did, if it answered a next state: a bus request that failed at the DEAD check or performed its steps, or a
pixel buffer request. -/
theorem exec_cases {i : Instr} {s t : State} (h : exec i s = .next t) : s.ready = true ∧
    ((∃ m op, busSteps s i = some (m, op) ∧
        ((s.dead = true ∧ t = { s with status := .failed (.transportFailure .dead) }) ∨
          (s.dead = false ∧ s.allows m ∧ t = (op s).final))) ∨
    (∃ v, i = .pbClear v ∧ t = ({ s with buf := Memory.fill s.config.bufLen v s.buf } : State).setOk) ∨
    (∃ x y b, i = .pbSet x y b ∧ opPbSet x y b s = .next t) ∨ (∃ x y, i = .pbGet x y ∧ opPbGet x y s = .next t)) := by
  cases hb : busSteps s i with
  | some p =>
    obtain ⟨m, op⟩ := p
    rw [exec_bus hb] at h
    obtain ⟨hr, h⟩ := busRequest_next h
    exact ⟨hr, .inl ⟨m, op, rfl, h⟩⟩
  | none =>
    cases i <;> simp [busSteps] at hb <;> obtain ⟨hr, h⟩ := bufferRequest_next (show bufferRequest _ _ = _ from h) <;> refine ⟨hr, .inr ?_⟩
    · simp [opPbClear] at h; exact .inl ⟨_, rfl, h.symm⟩
    · exact .inr (.inl ⟨_, _, _, rfl, h⟩)
    · exact .inr (.inr ⟨_, _, rfl, h⟩)

theorem command_ends (i : Instr) (s : State) (plane payload c) (hi : i = Instr.ofCommand plane payload c) :
   Ends (fun t => t.wait = s.wait ∧ t.status = .ok ∧ (∀ b hb, s.config.pollBound = .count b hb →
       t.env.samples ≤ s.env.samples + mostSamples b i) ∧
       (t.cycle = s.cycle) ∧ t.dc = .command ∧ t.cs = .released) (fun t => t.wait = s.wait ∧ (∀ b hb,
           s.config.pollBound = .count b hb → t.env.samples ≤ s.env.samples + mostSamples b i) ∧
       (t.cycle = s.cycle) ∧ (∃ n, t.status = .failed (.transportFailure (.linkWrite n)) ∧ ∃ plane payload c,
           i = Instr.ofCommand plane payload c)) (fun _ => False) (opCommand plane c payload s) :=
  (opCommand_ends plane c payload s).mono 
       (fun t h => ⟨h.same.wait, h.ok, fun _ _ _ => by rw [h.same.samples]; exact Nat.le_add_right _ _, h.same.cycle, h.dc, h.cs⟩)
       (fun t h => ⟨h.1.wait, fun _ _ _ => by rw [h.1.samples]; exact Nat.le_add_right _ _, h.1.cycle, h.2.imp fun n hn => ⟨hn, _, _, _, hi⟩⟩) (fun _ => id)

/-- How the steps of every bus instruction end: STATUS, CYCLE, samples and lines. -/
theorem busSteps_ends {i : Instr} {s : State} {m op} (h : busSteps s i = some (m, op)) :
  Ends (fun t => t.wait = s.wait ∧ t.status = .ok ∧ (∀ b hb, s.config.pollBound = .count b hb →
      t.env.samples ≤ s.env.samples + mostSamples b i) ∧
       (t.cycle = s.cycle ∨ (∃ p, i = .writePlane p ∧ s.cycle = .idle ∧ t.cycle = .planeLoaded) ∨ ((∃ p,
           i = .refresh p) ∧ t.cycle = .idle) ∨ (i = .waitIdle ∧ s.cycle = .busy ∧ t.cycle = .idle) ∨ (i = .init ∧
           t.cycle = .idle) ∨ (i = .pulseReset ∧ t.cycle = .idle)) ∧
       (((∃ op data, i = .sendCommand op data) ∨ (∃ data, i = .sendData data) ∨ i = .init ∨ (∃ p, i = .writePlane p) ∨
      (∃ p, i = .refresh p) ∨ ∃ plane payload c, i = Instr.ofCommand plane payload c) → t.dc = .command ∧
          t.cs = .released))
     (fun t => t.wait = s.wait ∧ (∀ b hb, s.config.pollBound = .count b hb → t.env.samples ≤ s.env.samples + mostSamples b i) ∧
       (t.cycle = s.cycle ∨ ((∃ p, i = .refresh p) ∧ (t.cycle = .idle ∨ t.cycle = .busy)) ∨ (i = .init ∧
           t.cycle = .idle)) ∧
       ((∃ n, t.status = .failed (.hardwareTimeout (.pollBoundExceeded n)) ∧ (i = .waitIdle ∨ i = .init ∨ ∃ p,
           i = .refresh p)) ∨ (t.status = .failed (.hardwareTimeout .triggerWhileBusy) ∧ ∃ p, i = .refresh p) ∨
        (∃ n, t.status = .failed (.transportFailure (.linkWrite n)) ∧ ((∃ d, i = .write d) ∨ (∃ op d,
            i = .sendCommand op d) ∨ (∃ d, i = .sendData d) ∨ i = .init ∨
        (∃ p, i = .writePlane p) ∨ (∃ p, i = .refresh p) ∨ ∃ plane payload c, i = Instr.ofCommand plane payload c))))
     (fun t => (∃ k, t.wait = some k) ∧ s.config.pollBound = .inf ∧ (t.cycle = s.cycle ∨ ((∃ p, i = .refresh p) ∧
         t.cycle = .busy)) ∧
        (i = .waitIdle ∨ (t.dc = .command ∧ t.cs = .released))) (op s) := by
  have sm : ∀ (n : Nat), n = s.env.samples → ∀ b hb, s.config.pollBound = .count b hb → n ≤ s.env.samples + mostSamples b i :=
      fun n h _ _ _ => h ▸ Nat.le_add_right _ _
  cases i <;> simp only [busSteps, Option.some.injEq, Prod.mk.injEq, reduceCtorEq] at h <;> obtain ⟨rfl, rfl⟩ := h
  case setCommandMode => exact ⟨rfl, rfl, sm _ rfl, .inl rfl, by simp; intro a b c; cases c <;> simp [Instr.ofCommand]⟩
  case setDataMode => exact ⟨rfl, rfl, sm _ rfl, .inl rfl, by simp; intro a b c; cases c <;> simp [Instr.ofCommand]⟩
  case assertSelect => exact ⟨rfl, rfl, sm _ rfl, .inl rfl, by simp; intro a b c; cases c <;> simp [Instr.ofCommand]⟩
  case releaseSelect => exact ⟨rfl, rfl, sm _ rfl, .inl rfl, by simp; intro a b c; cases c <;> simp [Instr.ofCommand]⟩
  case write data =>
    refine (opWrite_ends data s).mono ?_ ?_ (fun _ => False.elim)
    · exact fun t h => ⟨h.1.wait, h.2, sm _ h.1.samples, .inl h.1.cycle, by simp; intro a b c; cases c <;> simp [Instr.ofCommand]⟩
    · exact fun t h => ⟨h.1.wait, sm _ h.1.samples, .inl h.1.cycle, .inr (.inr (h.2.imp fun n hn => ⟨hn, .inl ⟨_,
          rfl⟩⟩))⟩
  case pulseReset => exact ⟨rfl, rfl, sm _ rfl, by simp [State.setOk, State.setCycle], by simp; intro a b c; cases c <;> simp [Instr.ofCommand]⟩
  case readBusy => exact ⟨rfl, rfl, fun _ _ _ => Nat.le_refl _, .inl rfl, by simp; intro a b c; cases c <;> simp [Instr.ofCommand]⟩
  case sendCommand o d =>
    refine (opSendCommand_ends o d s).mono ?_ ?_ (fun _ => False.elim)
    · exact fun t h => ⟨h.same.wait, h.ok, sm _ h.same.samples, .inl h.same.cycle, fun _ => ⟨h.dc, h.cs⟩⟩
    · exact fun t h => ⟨h.1.wait, sm _ h.1.samples, .inl h.1.cycle, .inr (.inr (h.2.imp fun n hn => ⟨hn,
          .inr (.inl ⟨_, _, rfl⟩)⟩))⟩
  case sendData d =>
    refine (opSendData_ends d s).mono ?_ ?_ (fun _ => False.elim)
    · exact fun t h => ⟨h.same.wait, h.ok, sm _ h.same.samples, .inl h.same.cycle, fun _ => ⟨h.dc, h.cs⟩⟩
    · exact fun t h => ⟨h.1.wait, sm _ h.1.samples, .inl h.1.cycle, .inr (.inr (h.2.imp fun n hn => ⟨hn,
          .inr (.inr (.inl ⟨_, rfl⟩))⟩))⟩
  case waitIdle =>
    refine (opWaitIdle_ends .waitIdle s).mono ?_ ?_ ?_
    · refine fun t h => ⟨h.wait, h.ok, h.samples, ?_, by simp; intro a b c; cases c <;> simp [Instr.ofCommand]⟩
      rw [h.cycle]; cases s.cycle <;> simp [Cycle.afterIdleSample]
    · exact fun t h => ⟨h.wait, h.samples, .inl h.cycle, .inl (h.status.imp fun n hn => ⟨hn, .inl rfl⟩)⟩
    · exact fun t h => ⟨⟨_, h.wait⟩, h.inf, .inl h.cycle, .inl rfl⟩
  case init =>
    refine (opInit_ends s).mono ?_ ?_ ?_
    · exact fun t h => ⟨h.wait, h.ok, h.samples, by simp [h.cycle], fun _ => ⟨h.dc, h.cs⟩⟩
    · refine fun t h => ⟨h.wait, h.samples, by have := h.cycle; tauto, ?_⟩
      rcases h.status with ⟨n, h⟩ | ⟨n, h⟩
      · exact .inl ⟨n, h, by simp⟩
      · exact .inr (.inr ⟨n, h, by simp⟩)
    · exact fun t h => ⟨⟨_, h.wait⟩, h.inf, .inl h.cycle, .inr ⟨h.dc, h.cs⟩⟩
  case writePlane p =>
    have : Ends (fun t => (LeftIdle s { t with cycle := s.cycle }) ∧
        t.cycle = s.cycle.afterPlaneWrite) (LinkFailure s) (fun _ => False) (opWritePlane p s) :=
      (opSendPlane_ends _ s).andThen fun t h => ⟨⟨⟨rfl, h.same.2, h.same.3, h.same.4⟩, h.dc, h.cs, rfl⟩, by show _ = _; rw [← h.same.cycle]; rfl⟩
    refine this.mono ?_ ?_ (fun _ => False.elim)
    · refine fun t h => ⟨h.1.same.wait, h.1.ok, sm _ h.1.same.samples, ?_, fun _ => ⟨h.1.dc, h.1.cs⟩⟩
      rw [h.2]; cases s.cycle <;> simp [Cycle.afterPlaneWrite]
    · exact fun t h => ⟨h.1.wait, sm _ h.1.samples, .inl h.1.cycle, .inr (.inr (h.2.imp fun n hn => ⟨hn, by simp⟩))⟩
  case refresh p =>
    refine (opRefresh_ends p s).mono ?_ ?_ ?_
    · exact fun t h => ⟨h.wait, h.ok, h.samples, by simp [h.cycle], fun _ => ⟨h.dc, h.cs⟩⟩
    · refine fun t h => ⟨h.wait, h.samples, by have := h.cycle; simp; tauto, ?_⟩
      rcases h.status with ⟨n, h⟩ | ⟨n, h⟩ | h
      · exact .inl ⟨n, h, by simp⟩
      · exact .inr (.inr ⟨n, h, by simp⟩)
      · exact .inr (.inl ⟨h, by simp⟩)
    · exact fun t h => ⟨⟨_, h.wait⟩, h.inf, by simp [h.cycle], .inr ⟨h.dc, h.cs⟩⟩
  all_goals
    refine (command_ends _ s _ _ _ ?_).mono (fun t h => ⟨h.1, h.2.1, h.2.2.1, .inl h.2.2.2.1,
        fun _ => h.2.2.2.2⟩) (fun t h => ⟨h.1, h.2.1, .inl h.2.2.1, .inr (.inr (h.2.2.2.imp fun n hn => ⟨hn.1,
        .inr (.inr (.inr (.inr (.inr (.inr hn.2)))))⟩))⟩) (fun _ => False.elim)
    rfl

theorem Ends.final {D R W : State → Prop} {fl : Flow} (h : Ends D R W fl) : D fl.final ∨ R fl.final ∨ W fl.final := by
  cases fl with
  | done s => exact .inl h
  | raised s => exact .inr (.inl h)
  | waiting s => exact .inr (.inr h)

theorem opPbSet_keeps {x y b} {s t : State} (h : opPbSet x y b s = .next t) : t.cycle = s.cycle ∧ t.wait = s.wait ∧
    t.env = s.env ∧ t.dead = s.dead ∧ t.ready = s.ready ∧ t.trace = s.trace ∧ t.lines = s.lines ∧
    t.config = s.config ∧ t.host = s.host ∧ (t.status = .ok ∨ t.status = .failed (.outOfBounds x y)) := by
  rcases opPbSet_next h with ⟨_, rfl⟩ | ⟨p, _, _, rfl⟩ <;> exact ⟨rfl, rfl, rfl, rfl, rfl, rfl, rfl, rfl, rfl, by simp [State.setOk]⟩

theorem opPbGet_keeps {x y} {s t : State} (h : opPbGet x y s = .next t) : t.cycle = s.cycle ∧ t.wait = s.wait ∧
    t.env = s.env ∧ t.dead = s.dead ∧ t.ready = s.ready ∧ t.trace = s.trace ∧ t.lines = s.lines ∧
    t.config = s.config ∧ t.host = s.host ∧ (t.status = .ok ∨ t.status = .failed (.outOfBounds x y)) := by
  rcases opPbGet_next h with ⟨_, rfl⟩ | ⟨p, _, _, rfl⟩ <;> exact ⟨rfl, rfl, rfl, rfl, rfl, rfl, rfl, rfl, rfl, by simp [State.setOk]⟩

end Sys2Proof.Machine
end

