-- ==== Sys2Proof/Laws/Invariant.lean ====
section
/-! SUPPORT. What the invariant rests on: what every instruction, a resumed wait and construction keep, and when a wait can
be left suspended. -/

namespace Sys2Proof.Machine

/-- Construction accepts only a legal geometry, and takes the options as given. -/
theorem checkConstruction_ok {c : Construction} {p : Parameters} (h : checkConstruction c = .ok p) :
    LegalGeometry p ∧ p.toOptions = c.toOptions ∧ c.width = some p.width ∧ c.height = some p.height := by
  unfold checkConstruction at h
  split at h
  · rename_i hw hh
    split at h
    · simp at h
    split at h
    · simp at h
    · simp at h; subst h
      exact ⟨⟨by simp; omega, by simp; omega, by simp; omega, rfl, rfl⟩, rfl, hw, hh⟩
  · simp at h

theorem unlessDead_alive {s : State} (h : s.dead = false) (op) : s.unlessDead op = op s :=
    by simp [State.unlessDead, h]

/-- Construction after its checks: the Reset pulse or none, then INIT (70_reset_and_hazards.md R231). -/
theorem opConstruct_eq (p : Parameters) (s : State) (h : s.dead = false) :
    opConstruct p s = (opInit { s with
      config := p, buf := [], ready := true, rst := (if p.constructPulsesReset then true else s.rst),
      cycle := (if p.constructPulsesReset then .idle else s.cycle),
      status := (if p.constructPulsesReset then .ok else s.status),
      trace := s.trace ++ if p.constructPulsesReset then [.rst false, .rst true] else [] }).andThen
        fun s => .done s.setOk := by
  unfold opConstruct
  cases hp : p.constructPulsesReset with
  | true =>
    simp only [if_true]
    rw [unlessDead_alive (by simpa using h)]
    simp only [opPulseReset, Flow.done_andThen]
    rw [unlessDead_alive (by simpa using h)]
    simp [State.install, State.setOk, State.setCycle, State.assignRst, State.emit]
  | false =>
    simp only [Bool.false_eq_true, if_false, Flow.done_andThen]
    rw [unlessDead_alive (by simpa using h)]
    simp [State.install]

/-- INIT leaves STATUS at OK where it is done. -/
theorem opInit_andThen_setOk (s : State) : ((opInit s).andThen fun s => .done s.setOk) = opInit s := by
  have h := opInit_ends s
  cases hf : opInit s with
  | done t =>
    rw [hf] at h
    rw [Flow.done_andThen, State.setOk, ← h.ok]
  | raised t => rfl
  | waiting t => rfl

/-- What construction does after writing the configuration and creating BUF. -/
theorem opConstruct_does {P : Lines → List Event → Prop} (hP : Stretch P) (h : ∀ l m, P l [.dc m]) (h' : ∀ l v,
    P l [.cs v])
    (hl : ∀ l b, l.cs = Select.asserted → P l [.tx b]) (hq : ∀ l v, P l [.busyq v]) (hrr : ∀ l v,
        P l [.rst v]) (p : Parameters) (s : State) :
    Does P (s.install p) (opConstruct p s).final := by
  have ud : ∀ (op : State → Flow) (t : State), Does P t (op t).final → Does P t (t.unlessDead op).final := by
    intro op t ht
    unfold State.unlessDead
    split
    · exact Does.of_keeps hP (keeps_deadFailure t (by assumption))
    · exact ht
  unfold opConstruct
  refine Does.andThen hP ?_ fun t _ => ?_
  · split
    · refine ud _ _ ⟨_, opPulseReset_keeps _, ?_⟩
      exact hP.append _ [_] [_] (hrr _ _) (hrr _ _)
    · exact Does.refl hP _
  · refine Does.andThen hP (ud _ _ (opInit_does hP h h' hl hq t)) fun u _ => Does.of_keeps hP (keeps_setOk u)

/-- What every instruction keeps: READY, the configuration, the host, DEAD once set; it appends to the trace, nothing while
DEAD, and only PULSE_RESET assigns Reset. -/
theorem exec_keeps {i : Instr} {s t : State} (h : exec i s = .next t) :
   t.ready = s.ready ∧ t.config = s.config ∧ t.host = s.host ∧ t.stopAtFailure = s.stopAtFailure ∧ (s.dead = true →
       t.dead = true) ∧
   (∃ es, t.trace = s.trace ++ es ∧ t.lines = s.lines.afterAll es ∧ (s.dead = true → es = []) ∧ (i ≠ .pulseReset →
       (∀ e ∈ es, e.isReset = false))) ∧
   (∀ c, t.status = .failed (.transportFailure c) → s.status = .failed (.transportFailure c) ∨ t.dead = true) := by
  obtain ⟨hr, ⟨m, op, hb, ⟨hd, rfl⟩ | ⟨hd, _, rfl⟩⟩ | ⟨v, rfl, rfl⟩ | ⟨x, y, b, rfl, hq⟩ | ⟨x, y, rfl, hq⟩⟩ :=
      exec_cases h
  · exact ⟨rfl, rfl, rfl, rfl, id, ⟨[], by simp, rfl, fun _ => rfl, by simp⟩, fun _ _ => .inr hd⟩
  · by_cases hp : i = .pulseReset
    · subst hp; simp only [busSteps, Option.some.injEq, Prod.mk.injEq] at hb; obtain ⟨rfl, rfl⟩ := hb
      have k := opPulseReset_keeps s
      exact ⟨k.ready, k.config, k.host, k.stopAtFailure, k.dead, ⟨_, k.trace, k.lines, by simp [hd], by simp⟩,
          k.failure⟩
    · obtain ⟨es, k, ho⟩ := busSteps_does stretch_noReset (fun _ _ => by simp [NoReset, Event.isReset])
          (fun _ _ => by simp [NoReset, Event.isReset]) (fun _ _ _ => by simp [NoReset, Event.isReset])
          (fun _ _ => by simp [NoReset, Event.isReset]) hb (fun _ _ _ => by simp [NoReset, Event.isReset]) hp
      exact ⟨k.ready, k.config, k.host, k.stopAtFailure, k.dead, ⟨_, k.trace, k.lines, by simp [hd], fun _ => ho⟩,
          k.failure⟩
  · exact ⟨rfl, rfl, rfl, rfl, id, ⟨[], by simp [State.setOk], rfl, fun _ => rfl, by simp⟩, by simp⟩
  · rcases opPbSet_next hq with ⟨_, rfl⟩ | ⟨p, _, _, rfl⟩ <;> exact ⟨rfl, rfl, rfl, rfl, id, ⟨[], by simp [State.setOk], rfl, fun _ => rfl, by simp⟩, by simp [State.setOk]⟩
  · rcases opPbGet_next hq with ⟨_, rfl⟩ | ⟨p, _, _, rfl⟩ <;> exact ⟨rfl, rfl, rfl, rfl, id, ⟨[], by simp [State.setOk], rfl, fun _ => rfl, by simp⟩, by simp [State.setOk]⟩

/-- DEAD is moved only by a flow that raises (10_state.md R28). -/
def KeepsDead (s : State) : Flow → Prop := Ends (fun t => t.dead = s.dead) (fun _ => True) (fun t => t.dead = s.dead)

theorem KeepsDead.andThen {s fl} {f : State → Flow} (h : KeepsDead s fl) (k : ∀ t,
    KeepsDead t (f t)) : KeepsDead s (fl.andThen f) := by
  cases fl with
  | done t => exact (k t).mono (fun _ h' => h'.trans h) (fun _ _ => trivial) (fun _ h' => h'.trans h)
  | raised t => trivial
  | waiting t => exact h

theorem transmitFrom_keepsDead (d : List Byte) : ∀ i s, KeepsDead s (transmitFrom i d s) := by
  induction d with
  | nil => intro i s; rfl
  | cons b r ih =>
    intro i s; rw [transmitFrom]
    refine KeepsDead.andThen ?_ fun t => ih _ t
    rcases s.transmit_cases i b with ⟨_, h⟩ | ⟨_, h⟩ <;> rw [h]
    · rfl
    · trivial

theorem opWrite_keepsDead (d s) : KeepsDead s (opWrite d s) := (transmitFrom_keepsDead d 0 s).andThen fun _ => rfl

theorem opWindow_keepsDead (m d s) : KeepsDead s (opWindow m d s) :=
    KeepsDead.andThen (opWrite_keepsDead d ((s.assignDc m).assignCs .asserted)) fun _ => rfl

theorem opSendData_keepsDead (d s) : KeepsDead s (opSendData d s) := (opWindow_keepsDead _ d s).andThen fun _ => rfl

theorem opSendCommand_keepsDead (o d s) : KeepsDead s (opSendCommand o d s) :=
    (opWindow_keepsDead _ _ s).andThen fun t => by
  refine KeepsDead.andThen ?_ fun _ => rfl
  split
  · rfl
  · exact opSendData_keepsDead _ _

theorem sendScript_keepsDead (ws : List (Command × List Byte)) : ∀ s, KeepsDead s (sendScript ws s) := by
  induction ws with
  | nil => intro s; rfl
  | cons w r ih => intro s; exact (opSendCommand_keepsDead _ _ s).andThen ih

theorem opPoll_keepsDead (k s) : KeepsDead s (opPoll k s) := by
  have : ∀ n s, KeepsDead s (pollLoop n s) := by
    intro n
    induction n with
    | zero => intro s; rw [pollLoop]; split <;> trivial
    | succ n ih =>
      intro s; rw [pollLoop]; split
      · trivial
      · simp only; split
        · exact ih _
        · rfl
  have := this (pollBudget s.config) s
  unfold opPoll
  cases h : pollLoop (pollBudget s.config) s with
  | waiting t => rw [h] at this; exact this
  | done t => rw [h] at this; exact this
  | raised t => trivial

theorem opWaitIdle_keepsDead (k s) : KeepsDead s (opWaitIdle k s) := opPoll_keepsDead k (s.setPolls 0)

theorem initAfterWait_keepsDead (s) : KeepsDead s (initAfterWait s) := KeepsDead.andThen (s :=
    s) (sendScript_keepsDead _ (s.setCycle .idle)) fun _ => rfl

theorem opInit_keepsDead (s) : KeepsDead s (opInit s) :=
    (opSendCommand_keepsDead _ _ s).andThen fun t => (opWaitIdle_keepsDead _ t).andThen initAfterWait_keepsDead

theorem opTrigger_keepsDead (p s) : KeepsDead s (opTrigger p s) := by
  unfold opTrigger
  refine (opSendCommand_keepsDead _ _ s).andThen fun t => (opSendCommand_keepsDead _ _ t).andThen fun u => ?_
  exact KeepsDead.andThen (s := u) (f :=
      fun s => .done s.setOk) (opWaitIdle_keepsDead .refresh (u.setCycle .busy)) fun _ => rfl

theorem opRefresh_keepsDead (p s) : KeepsDead s (opRefresh p s) := by
  unfold opRefresh; simp only; split
  · trivial
  · exact opTrigger_keepsDead p (s.sampleBusy.setCycle s.sampleBusy.cycle.afterIdleSample)

theorem opResume_keepsDead (k s) : KeepsDead s (opResume k s) := by
  refine KeepsDead.andThen (s := s) (opPoll_keepsDead k { s with wait := none }) fun t => ?_
  cases k
  · rfl
  · exact initAfterWait_keepsDead t
  · rfl

/-- An instruction left suspended has not moved DEAD. -/
theorem busSteps_suspended_dead {i : Instr} {s : State} {m op} (h : busSteps s i = some (m,
    op)) (hn : (op s).final.wait ≠ none) (hw : s.wait = none) : (op s).final.dead = s.dead := by
  have hp := busSteps_ends h
  have lv : i = .waitIdle ∨ i = .init ∨ (∃ p, i = .refresh p) → KeepsDead s (op s) := by
    rintro (rfl | rfl | ⟨p, rfl⟩) <;> simp only [busSteps, Option.some.injEq, Prod.mk.injEq] at h <;> obtain ⟨rfl, rfl⟩ := h
    · exact opWaitIdle_keepsDead _ s
    · exact opInit_keepsDead s
    · exact opRefresh_keepsDead p s
  by_cases hi : i = .waitIdle ∨ i = .init ∨ (∃ p, i = .refresh p)
  · have := lv hi
    cases hf : op s with
    | done t => rw [hf] at this; exact this
    | waiting t => rw [hf] at this; exact this
    | raised t =>
      rw [hf] at hp hn; exact absurd (hp.1.trans hw) hn
  · exfalso
    -- other instructions never wait
    cases hf : op s with
    | done t => rw [hf] at hp hn; exact absurd (hp.1.trans hw) hn
    | raised t => rw [hf] at hp hn; exact absurd (hp.1.trans hw) hn
    | waiting t =>
      have nw : Ends (fun _ => True) (fun _ => True) (fun _ => False) (op s) := by
        have e : ∀ {D R : State → Prop} {fl}, Ends D R (fun _ => False) fl → Ends (fun _ => True)
            (fun _ => True) (fun _ => False) fl := fun h => h.mono (fun _ _ => trivial) (fun _ _ => trivial)
            (fun _ => id)
        cases i <;> simp only [busSteps, Option.some.injEq, Prod.mk.injEq, reduceCtorEq] at h <;> obtain ⟨rfl, rfl⟩ := h
        case write d => exact e (opWrite_ends d s)
        case sendCommand o d => exact e (opSendCommand_ends o d s)
        case sendData d => exact e (opSendData_ends d s)
        case waitIdle => simp at hi
        case init => simp at hi
        case refresh => simp at hi
        case writePlane p => exact e ((opSendPlane_ends (planeCommand p) s).andThen (D' :=
              fun _ => True) fun t _ => trivial)
        case setCommandMode => trivial
        case setDataMode => trivial
        case assertSelect => trivial
        case releaseSelect => trivial
        case pulseReset => trivial
        case readBusy => trivial
        all_goals exact e (opCommand_ends _ _ _ s)
      rw [hf] at nw; exact nw

/-- Only an unbounded wait of a live block is left suspended. -/
theorem exec_suspended {i : Instr} {s t : State} (h : exec i s = .next t) (hw : s.wait = none) (hn : t.wait ≠ none) : s.ready = true ∧ s.config.pollBound = .inf ∧ t.dead = false := by
  obtain ⟨hr, ⟨m, op, hb, ⟨hd, rfl⟩ | ⟨hd, _, rfl⟩⟩ | ⟨v, rfl, rfl⟩ | ⟨x, y, b, rfl, hq⟩ | ⟨x, y, rfl, hq⟩⟩ :=
      exec_cases h
  · exact absurd hw hn
  · refine ⟨hr, ?_, (busSteps_suspended_dead hb hn hw).trans hd⟩
    have hp := busSteps_ends hb
    cases hf : op s with
    | done t => rw [hf] at hp hn; exact absurd (hp.1.trans hw) hn
    | raised t => rw [hf] at hp hn; exact absurd (hp.1.trans hw) hn
    | waiting t => rw [hf] at hp; exact hp.2.1
  · exact absurd hw hn
  · exact absurd ((opPbSet_keeps hq).2.1.trans hw) hn
  · exact absurd ((opPbGet_keeps hq).2.1.trans hw) hn

/-- Going on with a wait that stays suspended does not move DEAD. -/
theorem opResume_suspended_dead (k : Resume) (s : State) (hb : s.config.pollBound = .inf) : 
   ((opResume k s).final.wait ≠ none → (opResume k s).final.dead = s.dead) := by
  intro hn
  have lv := opResume_keepsDead k s
  have hp : Ends (fun t => t.wait = none) (fun t => t.wait = none) (fun _ => True) (opResume k s) := by
    refine Ends.andThen (D := fun t => t.wait = none) ?_ ?_
    · exact (opPoll_ends_as k { s with wait := none } (fun b h e => by simp [hb] at e)).mono (fun t h => h.wait)
          (fun t h => h.wait) (fun _ _ => trivial)
    · intro t ht
      cases k with
      | waitIdle => exact ht
      | refresh => exact ht
      | init =>
        have : ∀ (ws : List (Command × List Byte)) s, Ends (fun t => t.wait = s.wait) (fun t => t.wait = s.wait)
            (fun _ => True) (sendScript ws s) := by
          intro ws
          induction ws with
          | nil => intro s; rfl
          | cons w r ih =>
            intro s
            refine Ends.andThen (D := LeftIdle s) ((opSendCommand_ends _ _ s).mono (fun _ => id)
                (fun t h => h.1.wait) (fun _ => False.elim)) fun t h => ?_
            exact (ih t).mono (fun _ h' => h'.trans h.same.wait) (fun _ h' => h'.trans h.same.wait) (fun _ => id)
        exact Ends.andThen (D := fun u => u.wait = none) ((this initScript (t.setCycle .idle)).mono
            (fun _ h' => h'.trans ht) (fun _ h' => h'.trans ht) (fun _ => id)) fun u hu => hu
  cases hf : opResume k s with
  | done t => rw [hf] at hp hn; exact absurd hp hn
  | raised t => rw [hf] at hp hn; exact absurd hp hn
  | waiting t => rw [hf] at lv; exact lv

theorem afterAll_noReset (es : List Event) : ∀ (l : Lines), (∀ e ∈ es, e.isReset = false) →
    (l.afterAll es).rst = l.rst := by
    induction es with
    | nil => intro l _; rfl
    | cons e r ih =>
      intro l h
      have := ih (l.after e) (fun x hx => h x (by simp [hx]))
      rw [show l.afterAll (e :: r) = (l.after e).afterAll r from rfl, this]
      have := h e (by simp)
      cases e <;> simp_all [Lines.after, Event.isReset]

end Sys2Proof.Machine
end

