-- ==== Sys2Proof/Laws/PerInstr.lean ====
section
/-! SUPPORT. Statements made of each instruction in turn. -/

namespace Sys2Proof.Laws

/-- 30_encoding.md R81: bit 7 is 1 in every selector and 0 in every command byte, so the two spaces cannot be mistaken for
one another. -/
def ByteSpace.Statement (i : Instr) : Prop :=
  match encode i with
  | .req sel _ => selOne sel = true
  | .cmd byte _ _ => selOne byte = false

theorem ByteSpace.setCommandMode : ByteSpace.Statement .setCommandMode :=
  (rfl : selOne _ = _)

theorem ByteSpace.setDataMode : ByteSpace.Statement .setDataMode :=
  (rfl : selOne _ = _)

theorem ByteSpace.assertSelect : ByteSpace.Statement .assertSelect :=
  (rfl : selOne _ = _)

theorem ByteSpace.releaseSelect : ByteSpace.Statement .releaseSelect :=
  (rfl : selOne _ = _)

theorem ByteSpace.write (a : List Byte) : ByteSpace.Statement (.write a) :=
  (rfl : selOne _ = _)

theorem ByteSpace.pulseReset : ByteSpace.Statement .pulseReset :=
  (rfl : selOne _ = _)

theorem ByteSpace.readBusy : ByteSpace.Statement .readBusy :=
  (rfl : selOne _ = _)

theorem ByteSpace.sendCommand (opcode : Byte) (data : List Byte) : ByteSpace.Statement (.sendCommand opcode data) :=
  (rfl : selOne _ = _)

theorem ByteSpace.sendData (a : List Byte) : ByteSpace.Statement (.sendData a) :=
  (rfl : selOne _ = _)

theorem ByteSpace.waitIdle : ByteSpace.Statement .waitIdle :=
  (rfl : selOne _ = _)

theorem ByteSpace.init : ByteSpace.Statement .init :=
  (rfl : selOne _ = _)

theorem ByteSpace.writePlane (a : Plane) : ByteSpace.Statement (.writePlane a) :=
  (rfl : selOne _ = _)

theorem ByteSpace.refresh (a : Plane) : ByteSpace.Statement (.refresh a) :=
  (rfl : selOne _ = _)

theorem ByteSpace.pbClear (a : Byte) : ByteSpace.Statement (.pbClear a) :=
  (rfl : selOne _ = _)

theorem ByteSpace.pbSet (x y : Int) (bit : Bit) : ByteSpace.Statement (.pbSet x y bit) :=
  (rfl : selOne _ = _)

theorem ByteSpace.pbGet (x y : Int) : ByteSpace.Statement (.pbGet x y) :=
  (rfl : selOne _ = _)

theorem ByteSpace.softReset (payload : Payload) : ByteSpace.Statement (.softReset payload) :=
  (rfl : selOne _ = _)

theorem ByteSpace.driverCtrl (payload : Payload) : ByteSpace.Statement (.driverCtrl payload) :=
  (rfl : selOne _ = _)

theorem ByteSpace.dataEntryMode (payload : Payload) : ByteSpace.Statement (.dataEntryMode payload) :=
  (rfl : selOne _ = _)

theorem ByteSpace.setDummyPeriod (payload : Payload) : ByteSpace.Statement (.setDummyPeriod payload) :=
  (rfl : selOne _ = _)

theorem ByteSpace.setGateWidth (payload : Payload) : ByteSpace.Statement (.setGateWidth payload) :=
  (rfl : selOne _ = _)

theorem ByteSpace.setWaveCtrl (payload : Payload) : ByteSpace.Statement (.setWaveCtrl payload) :=
  (rfl : selOne _ = _)

theorem ByteSpace.ramXAddress (payload : Payload) : ByteSpace.Statement (.ramXAddress payload) :=
  (rfl : selOne _ = _)

theorem ByteSpace.ramYAddress (payload : Payload) : ByteSpace.Statement (.ramYAddress payload) :=
  (rfl : selOne _ = _)

theorem ByteSpace.setRamCounterX (payload : Payload) : ByteSpace.Statement (.setRamCounterX payload) :=
  (rfl : selOne _ = _)

theorem ByteSpace.setRamCounterY (payload : Payload) : ByteSpace.Statement (.setRamCounterY payload) :=
  (rfl : selOne _ = _)

theorem ByteSpace.setAnalogueCtrl (payload : Payload) : ByteSpace.Statement (.setAnalogueCtrl payload) :=
  (rfl : selOne _ = _)

theorem ByteSpace.setDigitalCtrl (payload : Payload) : ByteSpace.Statement (.setDigitalCtrl payload) :=
  (rfl : selOne _ = _)

theorem ByteSpace.writeRamBw (payload : Payload) : ByteSpace.Statement (.writeRamBw payload) :=
  (rfl : selOne _ = _)

theorem ByteSpace.writeRamRed (payload : Payload) : ByteSpace.Statement (.writeRamRed payload) :=
  (rfl : selOne _ = _)

theorem ByteSpace.dispUpdate1 (payload : Payload) : ByteSpace.Statement (.dispUpdate1 payload) :=
  (rfl : selOne _ = _)

theorem ByteSpace.dispUpdate2 (plane : Plane) (payload : Payload) : ByteSpace.Statement (.dispUpdate2 plane payload) :=
  (rfl : selOne _ = _)

theorem ByteSpace.masterActivation (payload : Payload) : ByteSpace.Statement (.masterActivation payload) :=
  (rfl : selOne _ = _)

end Sys2Proof.Laws
end

