-- ==== Sys2Proof/Laws/Pixel.lean ====
section
/-! SUPPORT. The pixel operations inside the geometry (45_pixel_buffer.md R190 to R193). -/

namespace Sys2Proof.Machine

/-- The place of a pixel inside the geometry (45_pixel_buffer.md R193). -/
theorem pixelPlace_inside (c : Parameters) (x y : Int) (hx : 0 ≤ x) (hx' : x < c.width) (hy : 0 ≤ y) (hy' : y < c.height) :
    pixelPlace c x y = some ⟨(y.toNat / 8) * c.width + x.toNat, y.toNat % 8⟩ := by
  unfold pixelPlace; rw [if_neg (by omega)]

theorem pixelIndex_cast (c : Parameters) (x y : Int) (hx : 0 ≤ x) (hy : 0 ≤ y) :
    (((y.toNat / 8) * c.width + x.toNat : Nat) : Int) = y / 8 * c.width + x := by
  push_cast; rw [Int.toNat_of_nonneg hx, Int.toNat_of_nonneg hy]

theorem exec_pbSet (x y b s) (h : s.ready = true) : exec (.pbSet x y b) s = opPbSet x y b s := by
  show bufferRequest _ _ = _; simp [bufferRequest, h]

theorem exec_pbGet (x y s) (h : s.ready = true) : exec (.pbGet x y) s = opPbGet x y s := by
  show bufferRequest _ _ = _; simp [bufferRequest, h]

/-- PB_GET inside the geometry (R192). -/
theorem pbGet_inside (s : State) (x y : Int) (h : s.ready = true) (hg : LegalGeometry s.config) (hx : 0 ≤ x) (hx' : x < s.config.width) (hy : 0 ≤ y) (hy' : y < s.config.height) :
    exec (.pbGet x y) s = .next { s with
      result := (Memory.read s.buf ((y.toNat / 8) * s.config.width + x.toNat)).getLsbD (y.toNat % 8), status :=
          .ok } := by
  rw [exec_pbGet _ _ _ h, opPbGet]
  have hp := pixelPlace_inside s.config x y hx hx' hy hy'
  have := (pixelPlace_some hg hp).1
  rw [hp]; simp only
  rw [bufRead_mapped this]; rfl

/-- PB_SET inside the geometry (R191). -/
theorem pbSet_inside (s : State) (x y : Int) (b) (h : s.ready = true) (hg : LegalGeometry s.config) (hx : 0 ≤ x) (hx' : x < s.config.width) (hy : 0 ≤ y) (hy' : y < s.config.height) :
    exec (.pbSet x y b) s = .next { s with
      buf := Memory.write ((y.toNat / 8) * s.config.width + x.toNat) (withPixel (Memory.read s.buf ((y.toNat / 8) * s.config.width + x.toNat)) (y.toNat % 8) b) s.buf, status := .ok } := by
  rw [exec_pbSet _ _ _ _ h, opPbSet]
  have hp := pixelPlace_inside s.config x y hx hx' hy hy'
  have := (pixelPlace_some hg hp).1
  rw [hp]; simp only
  rw [bufRead_mapped this]; rfl

/-- Writing one bit of a byte (R191). -/
theorem withPixel_getLsbD (old : Byte) (j : Nat) (b : Bit) (k : Nat) (hk : k < 8) (hj : j < 8) :
    (withPixel old j b).getLsbD k = if k = j then b else old.getLsbD k := by
  have aux : ∀ (j k : Fin 8) (b : Bool), ((~~~((1 : Byte) <<< j.val)).getLsbD k.val = decide (k ≠ j)) ∧
      ((Bit.toByte b <<< j.val).getLsbD k.val = (decide (k = j) && b)) := by decide
  obtain ⟨h1, h2⟩ := aux ⟨j, hj⟩ ⟨k, hk⟩ b
  simp only at h1 h2
  unfold withPixel
  rw [BitVec.getLsbD_or, BitVec.getLsbD_and, h1, h2]
  by_cases hkj : k = j <;> simp [hkj, Fin.ext_iff]

theorem pixelIndex_toNat (c : Parameters) (x y : Int) (hx : 0 ≤ x) (hy : 0 ≤ y) : (y / 8 * c.width + x).toNat = (y.toNat / 8) * c.width + x.toNat := by
  rw [← pixelIndex_cast c x y hx hy]; exact Int.toNat_natCast _

theorem pixelBit_toNat (y : Int) (hy : 0 ≤ y) : (y % 8).toNat = y.toNat % 8 := by omega

end Sys2Proof.Machine
end

