-- ==== Sys2Proof/Laws/Step.lean ====
section
/-! SUPPORT. The cases of `step`, and what the host's reaction changes. -/

namespace Sys2Proof.Machine

/-- With a wait suspended the step goes on with it, unless power is cut. -/
theorem step_waiting {s : State} {k : Resume} (h : s.wait = some k) (hp : ∀ rest, s.host ≠ .powerOn :: rest) :
    step s = .next (hostReacts (opResume k s).final) := by
  unfold step
  split
  · rename_i hh
    exact absurd hh (hp _)
  · rename_i hw _
    rw [h] at hw
    cases hw
    rfl
  all_goals simp_all

/-- With nothing issued nothing happens. -/
theorem step_none {s : State} (h : s.wait = none) (hh : s.host = []) : step s = .next s := by
  simp only [step, h, hh]

theorem step_powerOn {s : State} {rest : List HostInput} (hh : s.host = .powerOn :: rest) :
    step s = .next (powerOn (s.withHost rest)) := by
  simp only [step, hh]

theorem step_construct {s : State} {c : Construction} {rest : List HostInput} (h : s.wait = none)
    (hh : s.host = .construct c :: rest) : step s = afterOperation (construct c (s.withHost rest)) := by
  simp only [step, h, hh]

theorem step_issue {s : State} {code : Code} {rest : List HostInput} {i : Instr} (h : s.wait = none)
    (hh : s.host = .issue code :: rest) (hd : decode code = .instr i) :
    step s = afterOperation (exec i (s.withHost rest)) := by
  simp only [step, h, hh, hd]

theorem step_rejected {s : State} {code : Code} {rest : List HostInput} {e : DecodeError} (h : s.wait = none)
    (hh : s.host = .issue code :: rest) (hd : decode code = .rejected e) : step s = .refused (refusalOf e) := by
  simp only [step, h, hh, hd]

/-- A step that answers a next state did one of five things. -/
theorem step_cases {s t : State} (h : step s = .next t) :
    (∃ k, s.wait = some k ∧ t = hostReacts (opResume k s).final) ∨
    (s.wait = none ∧ s.host = [] ∧ t = s) ∨
    (∃ rest, s.host = .powerOn :: rest ∧ t = powerOn (s.withHost rest)) ∨
    (s.wait = none ∧ ∃ c rest u, s.host = .construct c :: rest ∧ construct c (s.withHost rest) = .next u ∧
      t = hostReacts u) ∨
    (s.wait = none ∧ ∃ code rest i u, s.host = .issue code :: rest ∧ decode code = .instr i ∧
      exec i (s.withHost rest) = .next u ∧ t = hostReacts u) := by
  have after : ∀ r : Result, afterOperation r = .next t → ∃ u, r = .next u ∧ t = hostReacts u := by
    intro r hr
    cases r with
    | next u => exact ⟨u, rfl, by simpa [afterOperation, eq_comm] using hr⟩
    | fault f => simp [afterOperation] at hr
    | refused r => simp [afterOperation] at hr
  by_cases hp : ∃ rest, s.host = .powerOn :: rest
  · obtain ⟨rest, hh⟩ := hp
    rw [step_powerOn hh] at h
    exact .inr (.inr (.inl ⟨rest, hh, by simpa [eq_comm] using h⟩))
  cases hw : s.wait with
  | some k =>
    rw [step_waiting hw fun rest hh => hp ⟨rest, hh⟩] at h
    exact .inl ⟨k, rfl, by simpa [eq_comm] using h⟩
  | none =>
    right
    cases hh : s.host with
    | nil =>
      rw [step_none hw hh] at h
      exact .inl ⟨rfl, rfl, by simpa [eq_comm] using h⟩
    | cons a rest =>
      right
      cases a with
      | powerOn => exact absurd ⟨rest, hh⟩ hp
      | construct c =>
        rw [step_construct hw hh] at h
        obtain ⟨u, hu, ht⟩ := after _ h
        exact .inr (.inl ⟨rfl, c, rest, u, rfl, hu, ht⟩)
      | issue code =>
        cases hd : decode code with
        | rejected e =>
          rw [step_rejected hw hh hd] at h
          simp at h
        | instr i =>
          rw [step_issue hw hh hd] at h
          obtain ⟨u, hu, ht⟩ := after _ h
          exact .inr (.inr ⟨rfl, code, rest, i, u, rfl, hd, hu, ht⟩)

/-- The host's reaction changes at most what it has left to issue. -/
theorem hostReacts_eq (s : State) : hostReacts s = s ∨ hostReacts s = s.withHost [] := by
  unfold hostReacts
  split
  · exact .inr rfl
  · exact .inl rfl

/-- After an operation that succeeded, or with a wait suspended, the host goes on. -/
theorem hostReacts_ok {s : State} (h : s.status = .ok) : hostReacts s = s := by
  unfold hostReacts
  split
  · rename_i hs
    rw [h] at hs
    cases hs
  · rfl

theorem hostReacts_waiting {s : State} {k : Resume} (h : s.wait = some k) : hostReacts s = s := by
  unfold hostReacts
  split
  · rename_i hs _
    rw [h] at hs
    cases hs
  · rfl

end Sys2Proof.Machine
end

