-- ==== Sys2Proof/Tests/Slice0.lean ====
section
/-! SUPPORT. Tests: decoding of words written out from 30_encoding.md, one step against the vectors of 95_test_vectors.md
(V…, P…), and for each obligation with hypotheses a state that meets them. -/

namespace Sys2Proof.Tests

open Sys2Proof Sys2Proof.Machine

/-! ## Small states -/

/-- A panel of a width and a height with POLL_BOUND = 5, as in 95_test_vectors.md. -/
def panel (width height : Nat) : Parameters :=
  { Parameters.smallest with
    width := width, height := height, pages := height / 8, bufLen := height / 8 * width
    pollBound := .count 5 (by decide) }

/-- A constructed block at rest, with scripted answers of Busy and of the link. -/
def rest (c : Parameters) (busy : List Bit := []) (link : List Bool := []) : State :=
  { State.reset with ready := true, config := c, env := { State.reset.env with busyIn := busy, linkIn := link } }

/-- A link that accepts 20 bytes. -/
def accepts : List Bool := List.replicate 20 true

/-- The 2 by 16 panel of V36, with BUF = [1, 2, 3, 4]. -/
def loaded (chunk : Bound := .inf) (link : List Bool := accepts) : State :=
  { rest { panel 2 16 with chunk := chunk } [] link with buf := [(0, 1), (1, 2), (2, 3), (3, 4)] }

/-- The 2 by 16 panel that refuses misuse. -/
def guarded : State := { rest { panel 2 16 with refuseMisuse := true } [] accepts with cycle := .busy }

/-- A block with no poll bound whose wait is suspended for an operation. -/
def suspended (k : Resume) (busy : List Bit) : State :=
  { rest { panel 2 16 with pollBound := .inf } busy accepts with wait := some k }

/-- Whether an outcome is a next state of which something holds. -/
def nextIs (r : Result) (p : State → Bool) : Bool :=
  match r with
  | .next s => p s
  | .fault _ => false
  | .refused _ => false

/-- Whether an instruction, from a state, appends some events and leaves a state of which something holds. -/
def appends (i : Instr) (s : State) (es : List Event) (p : State → Bool := fun t => decide (t.status = .ok)) : Bool :=
  nextIs (exec i s) fun t => decide (t.trace = s.trace ++ es) && p t

/-- The events of a frame without data, as V10 writes them. -/
def bare (op : Byte) : List Event := [.dc .command, .cs .asserted, .tx op, .cs .released]

/-! ## Well-formedness, encodings (R81 to R92, V70 to V78) -/

theorem test_wellFormed_refuses_unlisted_opcode : (Instr.sendCommand 0x10 []).wellFormed = false := by decide

theorem test_wellFormed_accepts_listed_opcode : (Instr.sendCommand 0x24 [1]).wellFormed = true := by decide

/-- R86, group 0. -/
theorem test_decode_transport :
    decodeTableWord 8 0b10000001 = some (.setCommandMode) ∧
    decodeTableWord 8 0b10000010 = some (.setDataMode) ∧
    decodeTableWord 8 0b10000011 = some (.assertSelect) ∧
    decodeTableWord 8 0b10000100 = some (.releaseSelect) ∧
    decodeTableWord 8 0b10000101 = some (.write []) ∧
    decodeTableWord 8 0b10000110 = some (.pulseReset) ∧
    decodeTableWord 8 0b10000111 = some (.readBusy) := by decide

/-- R86, groups 1, 2, 3. -/
theorem test_decode_framer_synchroniser_sequencer :
    decodeTableWord 8 0b10010000 = some (.sendCommand 0 []) ∧
    decodeTableWord 8 0b10010001 = some (.sendData []) ∧
    decodeTableWord 8 0b10100000 = some (.waitIdle) ∧
    decodeTableWord 8 0b10110000 = some (.init) ∧
    decodeTableWord 8 0b10110001 = some (.writePlane .bw) ∧
    decodeTableWord 8 0b10110010 = some (.refresh .bw) := by decide

/-- R86, group 4. -/
theorem test_decode_pixel_buffer :
    decodeTableWord 8 0b11000000 = some (.pbClear 0) ∧
    decodeTableWord 8 0b11000001 = some (.pbSet 0 0 false) ∧
    decodeTableWord 8 0b11000010 = some (.pbGet 0 0) := by decide

/-- R85, in row order. -/
theorem test_decode_commands :
    decodeTableWord 8 0b00010010 = some (.softReset .documented) ∧
    decodeTableWord 8 0b00000001 = some (.driverCtrl .documented) ∧
    decodeTableWord 8 0b00010001 = some (.dataEntryMode .documented) ∧
    decodeTableWord 8 0b00111010 = some (.setDummyPeriod .documented) ∧
    decodeTableWord 8 0b00111011 = some (.setGateWidth .documented) ∧
    decodeTableWord 8 0b00111100 = some (.setWaveCtrl .documented) ∧
    decodeTableWord 8 0b01000100 = some (.ramXAddress .documented) ∧
    decodeTableWord 8 0b01000101 = some (.ramYAddress .documented) ∧
    decodeTableWord 8 0b01001110 = some (.setRamCounterX .documented) ∧
    decodeTableWord 8 0b01001111 = some (.setRamCounterY .documented) ∧
    decodeTableWord 8 0b01110100 = some (.setAnalogueCtrl .documented) ∧
    decodeTableWord 8 0b01111110 = some (.setDigitalCtrl .documented) ∧
    decodeTableWord 8 0b00100100 = some (.writeRamBw .documented) ∧
    decodeTableWord 8 0b00100110 = some (.writeRamRed .documented) ∧
    decodeTableWord 8 0b00100001 = some (.dispUpdate1 .documented) ∧
    decodeTableWord 8 0b00100010 = some (.dispUpdate2 .bw .documented) ∧
    decodeTableWord 8 0b00100000 = some (.masterActivation .documented) := by decide

/-- V70, V71: the operands come from their ports (R82). -/
theorem test_decode_ports :
    decode (.req 0x90 { opcode := 0x74, data := [0x54] }) = .instr (.sendCommand 0x74 [0x54]) ∧
    decode (.req 0xB2 { plane := .red }) = .instr (.refresh .red) ∧
    decode (.req 0xC1 { x := 5, y := 10, bit := true }) = .instr (.pbSet 5 10 true) := by decide

/-- V72, V73, V74, V78. -/
theorem test_decode_rejects :
    decode (.req 0x24 {}) = .rejected (.reservedSelector 0x24) ∧
    decode (.req 0x88 {}) = .rejected (.reservedSelector 0x88) ∧
    decode (.req 0xD0 {}) = .rejected (.reservedSelector 0xD0) ∧
    decode (.cmd 0x10 .documented .bw) = .rejected (.unlistedCommand 0x10) := by decide

/-- V75, V76, V77: on the wire only the mode line tells a command from a payload byte (R83). -/
theorem test_readWire :
    readWire .command 0x24 = .command .writeRamBw ∧ readWire .command 0x3B = .command .setGateWidth ∧
    readWire .data 0x3B = .payload 0x3B := by decide

/-- The selector column of program P5 and the encodings of program P3. -/
theorem test_encode :
    [Instr.setCommandMode, .assertSelect, .write [0x74], .releaseSelect, .setDataMode].map (fun i => (encode i).byte) =
      [0x81, 0x83, 0x85, 0x84, 0x82] ∧
    encode (.pbSet 1 3 false) = .req 0xC1 { x := 1, y := 3, bit := false } ∧
    encode (.writePlane .red) = .req 0xB1 { plane := .red } := by decide

/-- R92's textual form. -/
theorem test_text :
    (Instr.sendCommand 0x74 [0x54]).text = "SEND_COMMAND 0x74, [0x54]" ∧ Instr.waitIdle.text = "WAIT_IDLE" := by
  decide

/-- Each of the 33 table words, placed with `withFetchWord` on the machine after reset, is performed by the next step. -/
theorem test_fetch_all :
    ([0x81, 0x82, 0x83, 0x84, 0x85, 0x86, 0x87, 0x90, 0x91, 0xA0, 0xB0, 0xB1, 0xB2, 0xC0, 0xC1, 0xC2] ++
      [0x12, 0x01, 0x11, 0x3A, 0x3B, 0x3C, 0x44, 0x45, 0x4E, 0x4F, 0x74, 0x7E, 0x24, 0x26, 0x21, 0x22, 0x20]).all
      (fun w => nextIs (step (State.reset.withFetchWord 8 w)) fun _ => true) = true := by decide

theorem test_fetch_first_events :
    nextIs (step (State.reset.withFetchWord 8 0x81)) (fun t => decide (t.trace = [.dc .command])) = true ∧
    nextIs (step (State.reset.withFetchWord 8 0x86)) (fun t => decide (t.trace = [.rst false, .rst true])) = true := by
  decide

/-! ## Transport (V1 to V9d) -/

theorem test_V1 : appends .setCommandMode { rest (panel 2 16) with dc := .data } [.dc .command]
    (fun t => decide (t.dc = .command ∧ t.status = .ok)) = true := by decide

theorem test_V2 : appends .setCommandMode (rest (panel 2 16)) [.dc .command] (fun t => decide (t.dc = .command)) = true := by
  decide

theorem test_V3 : appends .setDataMode (rest (panel 2 16)) [.dc .data] (fun t => decide (t.dc = .data)) = true := by decide

theorem test_V4 : appends .assertSelect (rest (panel 2 16)) [.cs .asserted]
    (fun t => decide (t.cs = .asserted ∧ csLevel t.config t.cs = false)) = true := by decide

theorem test_V5 : appends .releaseSelect { rest (panel 2 16) with cs := .asserted } [.cs .released]
    (fun t => decide (t.cs = .released ∧ csLevel t.config t.cs = true)) = true := by decide

theorem test_V6 : appends (.write [0x12]) { rest (panel 2 16) [] [true] with cs := .asserted } [.tx 0x12]
    (fun t => decide (t.cs = .asserted ∧ t.status = .ok)) = true := by decide

theorem test_V8 : appends (.write [0xAA, 0xBB, 0xCC]) { rest (panel 2 16) [] [true, false] with cs := .asserted } [.tx 0xAA]
    (fun t => decide (t.dead = true ∧ t.cs = .asserted ∧ t.status = .failed (.transportFailure (.linkWrite 1)))) = true := by
  decide

theorem test_V9a : appends .pulseReset { rest (panel 2 16) with cycle := .busy } [.rst false, .rst true]
    (fun t => decide (t.rst = true ∧ t.cycle = .idle ∧ t.dc = .command ∧ t.cs = .released)) = true := by decide

theorem test_V9b : appends .readBusy { rest (panel 2 16) [true] with cycle := .busy } [.busyq true]
    (fun t => decide (t.result = true ∧ t.cycle = .busy ∧ t.polls = 0)) = true := by decide

theorem test_V9c : appends .assertSelect { rest (panel 2 16) with dead := true } []
    (fun t => decide (t.cs = .released ∧ t.status = .failed (.transportFailure .dead))) = true := by decide

theorem test_V9d_refused : exec (.write [0x12]) { guarded with cycle := .idle } = .refused .selectReleased := rfl

/-! ## Framer (V11 to V18) -/

theorem test_V11 : appends (.sendCommand 0x74 [0x54]) (rest (panel 2 16) [] accepts)
    [.dc .command, .cs .asserted, .tx 0x74, .cs .released, .dc .data, .cs .asserted, .tx 0x54, .cs .released,
     .dc .command] (fun t => decide (t.atRest)) = true := by decide

theorem test_V18 : appends (.sendCommand 0x24 [0x01, 0x02, 0x03]) (rest (panel 2 16) [] [true, true, false])
    [.dc .command, .cs .asserted, .tx 0x24, .cs .released, .dc .data, .cs .asserted, .tx 0x01]
    (fun t => decide (t.dc = .data ∧ t.cs = .asserted ∧ t.dead = true ∧
      t.status = .failed (.transportFailure (.linkWrite 1)))) = true := by decide

theorem test_V15 : appends (.sendData [0x01, 0x00]) (rest (panel 2 16) [] accepts)
    [.dc .data, .cs .asserted, .tx 0x01, .tx 0x00, .cs .released, .dc .command] (fun t => decide t.atRest) = true := by
  decide

theorem test_V16 : appends (.sendData []) (rest (panel 2 16)) [.dc .data, .cs .asserted, .cs .released, .dc .command]
    (fun t => decide t.atRest) = true := by decide

/-- The wire view of V11, and the bit-level view of `TX 74` and `TX 24` (20_memory.md R53). -/
theorem test_wire :
    wireView Lines.powerOn (bare 0x74 ++ [.dc .data, .cs .asserted, .tx 0x54, .cs .released, .dc .command]) =
      [.cs .asserted, .tx 0x74, .cs .released, .dc .data, .cs .asserted, .tx 0x54, .cs .released, .dc .command] ∧
    serialBits 0x74 = [false, true, true, true, false, true, false, false] ∧
    serialBits 0x24 = [false, false, true, false, false, true, false, false] := by decide

/-! ## Synchroniser (V22 to V26) -/

theorem test_V22 : appends .waitIdle (rest (panel 2 16) [true, true, true, true, false])
    [.busyq true, .busyq true, .busyq true, .busyq true, .busyq false]
    (fun t => decide (t.status = .ok ∧ t.polls = 5)) = true := by decide

theorem test_V23 : appends .waitIdle (rest (panel 2 16) [true, true, true, true, true, false])
    [.busyq true, .busyq true, .busyq true, .busyq true, .busyq true]
    (fun t => decide (t.status = .failed (.hardwareTimeout (.pollBoundExceeded 5)) ∧ t.polls = 5 ∧
      t.env.busyIn = [false])) = true := by decide

/-! ## Sequencer (V30 to V39c, P2) -/

/-- P2: what INIT appends after its first step. -/
def scriptEvents : List Event :=
  bare 0x74 ++ [.dc .data, .cs .asserted, .tx 0x54, .cs .released, .dc .command] ++
  bare 0x7E ++ [.dc .data, .cs .asserted, .tx 0x3B, .cs .released, .dc .command] ++
  bare 0x01 ++ bare 0x3A ++ bare 0x3B ++ bare 0x3C ++ bare 0x44 ++ bare 0x45 ++ bare 0x4E ++ bare 0x4F

theorem test_P2_init : appends .init (rest (panel 128 296) [true, false] accepts)
    (bare 0x12 ++ [.busyq true, .busyq false] ++ scriptEvents)
    (fun t => decide (t.status = .ok ∧ t.polls = 2 ∧ t.cycle = .idle ∧ t.trace.length = 56)) = true := by decide

theorem test_V39c : appends .init { rest (panel 2 16) [true, true, true, true, true] accepts with cycle := .planeLoaded }
    (bare 0x12 ++ [.busyq true, .busyq true, .busyq true, .busyq true, .busyq true])
    (fun t => decide (t.status = .failed (.hardwareTimeout (.pollBoundExceeded 5)) ∧ t.cycle = .planeLoaded)) = true := by
  decide

theorem test_V36 : appends (.writePlane .bw) (loaded)
    (bare 0x24 ++ [.dc .data, .cs .asserted, .tx 1, .tx 2, .tx 3, .tx 4, .cs .released, .dc .command])
    (fun t => decide (t.status = .ok ∧ t.cycle = .planeLoaded)) = true := by decide

theorem test_V37 : appends (.writePlane .red) (loaded (.count 3 (by decide)))
    (bare 0x26 ++ [.dc .data, .cs .asserted, .tx 1, .tx 2, .tx 3, .cs .released, .dc .command] ++
      [.dc .data, .cs .asserted, .tx 4, .cs .released, .dc .command]) = true := by decide

theorem test_V30 : appends (.refresh .bw) { rest (panel 2 16) [false, true, true, false] accepts with cycle := .planeLoaded }
    ([.busyq false] ++ bare 0x22 ++ bare 0x20 ++ [.busyq true, .busyq true, .busyq false])
    (fun t => decide (t.status = .ok ∧ t.cycle = .idle ∧ t.polls = 3)) = true := by decide

theorem test_V32 : appends (.refresh .bw) { rest (panel 2 16) [true] with cycle := .busy } [.busyq true]
    (fun t => decide (t.status = .failed (.hardwareTimeout .triggerWhileBusy) ∧ t.cycle = .busy ∧ t.polls = 0)) = true := by
  decide

/-! ## Pixel buffer (V50 to V65) -/

theorem test_V55_clear : nextIs (exec (.pbClear 0xFF) (loaded))
    (fun t => decide (t.bufBytes = [0xFF, 0xFF, 0xFF, 0xFF] ∧ t.trace = [])) = true := by decide

/-- P3 step 4: clearing to 0x00 leaves nothing listed. -/
theorem test_clear_zero : nextIs (exec (.pbClear 0) (loaded)) (fun t => decide (t.buf = [])) = true := by decide

theorem test_V52 : nextIs (exec (.pbSet 127 295 true) (rest (panel 128 296)))
    (fun t => decide (t.buf = [(4735, 0x80)] ∧ t.status = .ok)) = true := by decide

theorem test_V59 : nextIs (exec (.pbSet 128 0 true) (rest (panel 128 296)))
    (fun t => decide (t.buf = [] ∧ t.status = .failed (.outOfBounds 128 0))) = true := by decide

theorem test_V55_get : nextIs (exec (.pbGet 3 4) { rest (panel 128 296) with buf := [(3, 0xF7)] })
    (fun t => decide (t.result = true ∧ t.status = .ok)) = true := by decide

theorem test_V64 : nextIs (exec (.pbGet (-1) (-1)) (rest (panel 128 296)))
    (fun t => decide (t.status = .failed (.outOfBounds (-1) (-1)))) = true := by decide

/-! ## The command rows (R85, R140 to R157) -/

theorem test_softReset : appends (.softReset .documented) (rest (panel 2 16) [] accepts) (bare 0x12) = true := by decide

theorem test_driverCtrl : appends (.driverCtrl .documented) (rest (panel 2 16) [] accepts) (bare 0x01) = true := by decide

theorem test_dataEntryMode : appends (.dataEntryMode .documented) (rest (panel 2 16) [] accepts) (bare 0x11) = true := by decide

theorem test_setDummyPeriod : appends (.setDummyPeriod .documented) (rest (panel 2 16) [] accepts) (bare 0x3A) = true := by decide

theorem test_setGateWidth : appends (.setGateWidth .documented) (rest (panel 2 16) [] accepts) (bare 0x3B) = true := by decide

theorem test_setWaveCtrl : appends (.setWaveCtrl .documented) (rest (panel 2 16) [] accepts) (bare 0x3C) = true := by decide

theorem test_ramXAddress : appends (.ramXAddress .documented) (rest (panel 2 16) [] accepts) (bare 0x44) = true := by decide

theorem test_ramYAddress : appends (.ramYAddress .documented) (rest (panel 2 16) [] accepts) (bare 0x45) = true := by decide

theorem test_setRamCounterX : appends (.setRamCounterX .documented) (rest (panel 2 16) [] accepts) (bare 0x4E) = true := by decide

theorem test_setRamCounterY : appends (.setRamCounterY .documented) (rest (panel 2 16) [] accepts) (bare 0x4F) = true := by decide

theorem test_dispUpdate1 : appends (.dispUpdate1 .documented) (rest (panel 2 16) [] accepts) (bare 0x21) = true := by decide

theorem test_masterActivation : appends (.masterActivation .documented) (rest (panel 2 16) [] accepts) (bare 0x20) = true := by decide

theorem test_setAnalogueCtrl : appends (.setAnalogueCtrl .documented) (rest (panel 2 16) [] accepts)
    (bare 0x74 ++ [.dc .data, .cs .asserted, .tx 0x54, .cs .released, .dc .command]) = true := by decide

theorem test_setDigitalCtrl : appends (.setDigitalCtrl .documented) (rest (panel 2 16) [] accepts)
    (bare 0x7E ++ [.dc .data, .cs .asserted, .tx 0x3B, .cs .released, .dc .command]) = true := by decide

/-- R152, R157: the whole of BUF; CYCLE does not move. -/
theorem test_writeRamBw : appends (.writeRamBw .documented) (loaded)
    (bare 0x24 ++ [.dc .data, .cs .asserted, .tx 1, .tx 2, .tx 3, .tx 4, .cs .released, .dc .command])
    (fun t => decide (t.cycle = .idle ∧ t.status = .ok)) = true := by decide

theorem test_writeRamRed : appends (.writeRamRed (.given [7])) (loaded)
    (bare 0x26 ++ [.dc .data, .cs .asserted, .tx 7, .cs .released, .dc .command]) = true := by decide

theorem test_dispUpdate2 : appends (.dispUpdate2 .red .documented)
    (rest { panel 2 16 with triggerRed := [0xF7] } [] accepts)
    (bare 0x22 ++ [.dc .data, .cs .asserted, .tx 0xF7, .cs .released, .dc .command]) = true := by decide

/-! ## Construction (V40 to V46) -/

/-- What the host supplies for a panel. -/
def supply (width height : Nat) : Construction where
  pollBound := .count 5 (by decide)
  tResetLow := 1
  tResetSettle := 1
  tPoll := 1
  link := some 0
  pinDc := some 0
  pinCs := some 1
  pinRst := some 2
  pinBusy := some 3
  width := some width
  height := some height

/-- The power-on state with scripted answers. -/
def powered (busy : List Bit) (link : List Bool) : State :=
  { State.reset with env := { State.reset.env with busyIn := busy, linkIn := link } }

/-- V40 and P2: 58 events, PAGES 37, BUFLEN 4736. -/
theorem test_V40 : nextIs (construct (supply 128 296) (powered [true, false] accepts))
    (fun t => decide (t.config.pages = 37 ∧ t.config.bufLen = 4736 ∧ t.buf = [] ∧ t.ready = true ∧ t.status = .ok ∧
      t.polls = 2 ∧
      t.trace = [.rst false, .rst true] ++ bare 0x12 ++ [.busyq true, .busyq false] ++ scriptEvents)) = true := by
  decide

theorem test_V41_V44_V46 :
    checkConstruction (supply 128 250) = .error .heightNotMultipleOf8 ∧
    checkConstruction (supply 8 0) = .error .zeroDimension ∧
    checkConstruction (supply 0 250) = .error .zeroDimension ∧
    checkConstruction { supply 128 296 with pinBusy := none } = .error .missingParameter := by
  refine ⟨?_, ?_, ?_, ?_⟩ <;> rfl

/-! ## Witnesses: for each obligation with hypotheses, states that meet them -/

theorem panel_legal : LegalGeometry (panel 2 16) := ⟨by decide, by decide, by decide, by decide, by decide⟩

theorem panel_legal_large : LegalGeometry (panel 128 296) := ⟨by decide, by decide, by decide, by decide, by decide⟩

/-- The loaded panel meets the invariant. -/
theorem loaded_inv (c : List HostInput) : ({ loaded with host := c } : State).Inv where
  canonical := rfl
  mapped := rfl
  geometry _ := panel_legal
  noBuffer h := by cases h
  resetHigh := rfl
  recorded := rfl
  deadReady h := by cases h
  failureDead _ h := by cases h
  suspended h := absurd rfl h

/-- A suspended wait meets the invariant. -/
theorem suspended_inv (k : Resume) : (suspended k [true]).Inv where
  canonical := rfl
  mapped := rfl
  geometry _ := ⟨by show 0 < 2; decide, by show 0 < 16; decide, by show 16 % 8 = 0; decide, rfl, rfl⟩
  noBuffer h := by cases h
  resetHigh := rfl
  recorded := rfl
  deadReady h := by cases h
  failureDead _ h := by cases h
  suspended _ := ⟨rfl, rfl, rfl⟩

theorem guarded_inv : guarded.Inv where
  canonical := rfl
  mapped := rfl
  geometry _ := ⟨by show 0 < 2; decide, by show 0 < 16; decide, by show 16 % 8 = 0; decide, rfl, rfl⟩
  noBuffer h := by cases h
  resetHigh := rfl
  recorded := rfl
  deadReady h := by cases h
  failureDead _ h := by cases h
  suspended h := absurd rfl h

/-- Between operations, and with a wait suspended. -/
theorem witness_PowerOnGivesResetValues :
    ({ loaded with host := [.powerOn] } : State).host = .powerOn :: [] ∧
    (let s : State := { suspended .waitIdle [true] with host := [.powerOn] }
     s.host = .powerOn :: [] ∧ s.wait = some .waitIdle) := by decide

theorem witness_StepKeepsInvariant :
    (∃ t, ({ loaded with host := [.issue (.req 0xC0 { value := 0xFF })] } : State).Inv ∧
      step { loaded with host := [.issue (.req 0xC0 { value := 0xFF })] } = .next t ∧ t.buf ≠ loaded.buf) ∧
    ∃ t, (suspended .refresh [true]).Inv ∧ step (suspended .refresh [true]) = .next t ∧ t.polls = 1 :=
  ⟨⟨_, loaded_inv _, rfl, by decide⟩, ⟨_, suspended_inv _, rfl, by decide⟩⟩

theorem witness_GuardedBlockSendsOnlySelected :
    ∃ s t : State, s.Inv ∧ s.Guarded ∧ sentSelected Lines.powerOn s.trace = true ∧ step s = .next t ∧
      t.trace = [.rst false, .rst true] :=
  ⟨{ guarded with host := [.issue (.req 0x86 {}), .construct { supply 2 16 with refuseMisuse := true }] }, _,
    ⟨guarded_inv.1, guarded_inv.2, guarded_inv.3, guarded_inv.4, guarded_inv.5, guarded_inv.6, guarded_inv.7,
      guarded_inv.8, guarded_inv.9⟩,
    ⟨fun _ => rfl, fun c hc => by simp at hc; subst hc; rfl⟩, rfl, rfl, by decide⟩

theorem witness_ReservedSelectorsAreRefused :
    (0xC2 : Byte) ∈ ([0x81, 0x82, 0x83, 0x84, 0x85, 0x86, 0x87, 0x90, 0x91, 0xA0, 0xB0, 0xB1, 0xB2, 0xC0, 0xC1, 0xC2] : List Byte) ∧
    (0x80 : Byte) ∉ ([0x81, 0x82, 0x83, 0x84, 0x85, 0x86, 0x87, 0x90, 0x91, 0xA0, 0xB0, 0xB1, 0xB2, 0xC0, 0xC1, 0xC2] : List Byte) ∧
    (let s : State := { loaded with host := [.issue (.req 0x80 {})] }
     s.wait = none ∧ s.host = .issue (.req 0x80 {}) :: []) := by decide

theorem witness_CommandBytesAreTheSeventeen : (0x10 : Byte) ∉ Command.all.map Command.value := by decide

/-- The three outcomes of an issued instruction. -/
theorem witness_StepPerformsIssuedInstruction :
    (let s : State := { loaded with host := [.issue (.req 0x81 {})] }
     s.wait = none ∧ decode (.req 0x81 {}) = .instr .setCommandMode ∧
      ∃ t, exec .setCommandMode (s.withHost []) = .next t) ∧
    (exec .setCommandMode State.reset = .refused .notReady) ∧
    exec (.pbGet 0 0) (rest { panel 2 16 with bufLen := 0 }) = .fault (.noSuchIndex 0) :=
  ⟨⟨rfl, by decide, _, rfl⟩, rfl, rfl⟩

/-- After a failure the host stops. -/
theorem witness_StepPerformsIssuedInstruction_failure :
    nextIs (step { loaded with host := [.issue (.req 0xC1 { x := 2 }), .issue (.req 0x81 {})] })
      (fun t => decide (t.host = [] ∧ t.status = .failed (.outOfBounds 2 0))) = true := by decide

theorem witness_StepWithoutInputChangesNothing : State.reset.wait = none ∧ State.reset.host = [] := by decide

theorem witness_PlacedWordRunsNext :
    decodeTableWord 8 0xB1 = some (.writePlane .bw) ∧ (loaded).ready = true ∧ (loaded).wait = none := by decide

theorem witness_NotReadyRefusesEveryInstruction : State.reset.ready = false := by decide

theorem witness_DeadBlocksEveryBusOperation :
    let s : State := { loaded with dead := true }
    s.ready = true ∧ s.dead = true ∧ (∀ v, Instr.waitIdle ≠ .pbClear v) ∧ (∀ x y b, Instr.waitIdle ≠ .pbSet x y b) ∧
      ∀ x y, Instr.waitIdle ≠ .pbGet x y :=
  ⟨rfl, rfl, nofun, nofun, nofun⟩

theorem witness_DeadIsStickyAndSilent :
    ∃ t, step { loaded with dead := true, host := [.issue (.req 0xA0 {})] } = .next t ∧
      t.status = .failed (.transportFailure .dead) :=
  ⟨_, rfl, by decide⟩

theorem witness_ConfiguredBlockRefusesMisuse :
    guarded.operable ∧ guarded.config.refuseMisuse = true ∧ guarded.cycle = .busy ∧ guarded.cs = .released ∧
    ({ guarded with cs := .asserted } : State).cs = .asserted ∧ opcodeListed 0x24 = true ∧ opcodeListed 0x10 = false := by
  decide

theorem witness_LineRequestsAssignTheirLatch :
    (loaded).operable ∧ Instr.releaseSelect ∈ [Instr.setCommandMode, .setDataMode, .assertSelect, .releaseSelect] ∧
    ({ loaded with dead := true } : State).dead = true := by decide

/-- With Select released and with Select asserted; no bytes and three bytes. -/
theorem witness_WriteSendsEveryByte :
    (loaded).operable ∧ (loaded).allows (writeMisuse (loaded)) ∧ (loaded).linkAccepts 0 ∧ (loaded).linkAccepts 3 ∧
    (let s : State := { guarded with cs := .asserted, cycle := .idle }
     s.operable ∧ s.allows (writeMisuse s) ∧ s.linkAccepts 3) := by decide

/-- The first and the last of three bytes. -/
theorem witness_WriteStopsAtRefusedByte :
    (let s := loaded .inf [false]; s.operable ∧ s.allows (writeMisuse s) ∧ s.linkRefusesAfter 0) ∧
    (let s := loaded .inf [true, true, false]; s.operable ∧ s.allows (writeMisuse s) ∧ 2 < 3 ∧ s.linkRefusesAfter 2) := by
  decide

theorem witness_PulseResetPulsesAndIdles : (loaded).operable ∧ ({ loaded with dead := true } : State).dead = true := by decide

theorem witness_ReadBusyReturnsTheSample : (loaded).operable ∧ ({ loaded with dead := true } : State).dead = true := by
  decide

/-- An unlisted byte without data on a block that does not refuse; a listed one with data on one that does. -/
theorem witness_SendCommandPutsOneFrame :
    ((loaded).operable ∧ (loaded).allows (commandMisuse 0x10 [] (loaded)) ∧ (loaded).linkAccepts 1) ∧
    (let s : State := { guarded with cycle := .idle }
     s.operable ∧ s.allows (commandMisuse 0x74 [0x54] s) ∧ s.linkAccepts 2) := by decide

/-- The command byte, the first and the last data byte. -/
theorem witness_SendCommandStopsAtRefusedByte :
    (let s := loaded .inf [false]; s.operable ∧ s.allows (commandMisuse 0x24 [1, 2] s) ∧ s.linkRefusesAfter 0) ∧
    (let s := loaded .inf [true, false]; 0 < 2 ∧ s.linkRefusesAfter (1 + 0)) ∧
    (let s := loaded .inf [true, true, false]; 1 < 2 ∧ s.linkRefusesAfter (1 + 1)) := by decide

theorem witness_SendDataPutsOneWindowOrStops :
    ((loaded).operable ∧ (loaded).allows (sendMisuse (loaded)) ∧ (loaded).linkAccepts 0 ∧ (loaded).linkAccepts 2) ∧
    (let s := loaded .inf [false]; 0 < 1 ∧ s.linkRefusesAfter 0) ∧
    (let s := loaded .inf [true, false]; 1 < 2 ∧ s.linkRefusesAfter 1) := by decide

/-- Without data and with data. -/
theorem witness_DataPhaseOnlyWithData :
    (loaded).operable ∧ (loaded).allows (commandMisuse 0x12 [] (loaded)) ∧ (loaded).linkAccepts (1 + 0) ∧
    (loaded).allows (commandMisuse 0x74 [0x54] (loaded)) ∧ (loaded).linkAccepts (1 + 1) := by decide

theorem witness_ReceiverReadsOneFrame :
    (loaded).operable ∧ (loaded).allows (commandMisuse 0x74 [0x54] (loaded)) ∧ (loaded).linkAccepts (1 + 1) := by decide

theorem witness_SuccessLeavesLinesIdle :
    ∃ t, exec (.sendData [1]) { loaded with dc := .data, cs := .asserted } = .next t ∧ t.status = .ok :=
  ⟨_, rfl, by decide⟩

theorem witness_CommandRowsSendGivenPayload :
    (loaded).operable ∧ (loaded).allows (sendMisuse (loaded)) ∧ (loaded).linkAccepts (1 + 0) ∧
    (loaded).linkAccepts (1 + 2) := by decide

theorem witness_CommandRowsSendDocumentedPayload :
    (loaded).operable ∧ (loaded).allows (sendMisuse (loaded)) ∧
    ∀ c ∈ Command.all, ∀ n < documentedLength (loaded) .red c, (loaded).env.linkAt n = true := by decide

/-- The command byte; the last byte of a given payload; the byte of the analogue payload; the last byte of BUF in the bulk
form, with CHUNK = INF and with CHUNK = BUFLEN; the last byte of the first window and the byte of the last window with
CHUNK one below BUFLEN. -/
theorem witness_CommandRowsStopAtRefusedByte :
    (let s := loaded .inf [false]; s.operable ∧ s.allows (sendMisuse s) ∧ s.linkRefusesAfter 0) ∧
    (let s := loaded .inf [true, true, false]; 1 < ([1, 2] : List Byte).length ∧ s.linkRefusesAfter (1 + 1)) ∧
    (let s := loaded .inf [true, false]
     0 < (documentedPayload s .bw .setAnalogueCtrl).length ∧ s.linkRefusesAfter (1 + 0) ∧
      Command.setAnalogueCtrl ∉ [Command.writeRamBw, .writeRamRed]) ∧
    (let s := loaded .inf [true, true, true, true, false]
     3 < (documentedPayload s .bw .writeRamBw).length ∧ s.linkRefusesAfter (1 + 3)) ∧
    bulkForm (loaded .inf).config ∧ bulkForm (loaded (.count 4 (by decide))).config ∧
    (let s := loaded (.count 3 (by decide)) [true, true, true, false]
     2 < (documentedPayload s .bw .writeRamRed).length ∧ s.linkRefusesAfter (1 + 2) ∧
      Command.writeRamRed ∈ [Command.writeRamBw, .writeRamRed] ∧ 3 < s.config.bufLen) ∧
    (let s := loaded (.count 3 (by decide)) [true, true, true, true, false]
     3 < (documentedPayload s .bw .writeRamBw).length ∧ s.linkRefusesAfter (1 + 3)) :=
  ⟨by decide, by decide, by decide, by decide, trivial, Nat.le_refl 4, by decide, by decide⟩

/-- No busy sample, one fewer than POLL_BOUND, exactly POLL_BOUND; with no bound, none. -/
theorem witness_WaitIdleCountsSamples :
    (let s := rest (panel 2 16) [false]; s.operable ∧ 0 < pollBudget s.config ∧ s.idleAfter 0) ∧
    (let s := rest (panel 2 16) [true, true, true, true, false]; 4 < pollBudget s.config ∧ s.idleAfter 4) ∧
    (let s := rest { panel 2 16 with pollBound := .inf } [false]; 0 < pollBudget s.config ∧ s.idleAfter 0) ∧
    (let s := rest (panel 2 16) [true, true, true, true, true]
     s.config.pollBound = .count 5 (by decide) ∧ s.busyFor 5) := by decide

/-- No power-on is pending in the states below. -/
theorem suspended_keeps_power (k : Resume) (busy : List Bit) : ∀ rest, (suspended k busy).host ≠ .powerOn :: rest :=
  nofun

/-- For WAIT_IDLE, INIT and REFRESH; then the end of the wait of WAIT_IDLE and of REFRESH. -/
theorem witness_UnboundedWaitSuspendsAndEnds :
    (let s := rest { panel 2 16 with pollBound := .inf } [true] [true]
     s.operable ∧ s.config.pollBound = .inf ∧ s.env.busyAt 0 = true ∧ s.linkAccepts 1) ∧
    (let s := rest { panel 2 16 with pollBound := .inf, triggerRed := [0xF7] } [false, true] accepts
     s.operable ∧ s.config.pollBound = .inf ∧ s.linkAccepts (2 + (triggerPayload s.config .red).length) ∧
      s.env.busyAt 0 = false ∧ s.env.busyAt 1 = true) ∧
    (let s := suspended .waitIdle [false]
     s.wait = some .waitIdle ∧ s.host = [] ∧ Resume.waitIdle ≠ .init ∧ s.config.pollBound = .inf ∧ s.env.busyAt 0 = false) ∧
    (let s := suspended .refresh [false]
     s.wait = some .refresh ∧ s.host = [] ∧ Resume.refresh ≠ .init ∧ s.env.busyAt 0 = false) := by decide

theorem witness_UnboundedWaitNeverEndsWhileBusy :
    let s := suspended .init [true, true, true]
    s.wait = some .init ∧ s.host = [] ∧ s.config.pollBound = .inf ∧ s.busyFor 3 := by decide

/-- WAIT_IDLE and INIT with all 5 samples of the bound, REFRESH with its 6, READ_BUSY with its one, WRITE with none. -/
theorem witness_BoundedOperationsEnd :
    (panel 2 16).pollBound = .count 5 (by decide) ∧ (rest (panel 2 16)).wait = none ∧
    nextIs (exec .waitIdle (rest (panel 2 16) (List.replicate 6 true))) (fun t => decide (t.env.samples = 5)) = true ∧
    nextIs (exec .init (rest (panel 2 16) (List.replicate 6 true) accepts)) (fun t => decide (t.env.samples = 5)) = true ∧
    nextIs (exec (.refresh .bw) (rest (panel 2 16) (false :: List.replicate 6 true) accepts))
      (fun t => decide (t.env.samples = 6)) = true ∧
    nextIs (exec .readBusy (rest (panel 2 16) [true])) (fun t => decide (t.env.samples = 1)) = true ∧
    nextIs (exec (.write [1]) (rest (panel 2 16) [] accepts)) (fun t => decide (t.env.samples = 0)) = true := by decide

theorem witness_InitRunsTheWholeScript :
    let s := rest (panel 2 16) [true, true, true, true, false] accepts
    s.operable ∧ s.linkAccepts 13 ∧ 4 < pollBudget s.config ∧ s.idleAfter 4 := by decide

/-- The time-out; 0x12; the first frame at its command byte and at its payload byte; the last frame; the same with the wait suspended. -/
theorem witness_InitStopsAtItsFirstFailure :
    (let s := rest (panel 2 16) [true, true, true, true, true] [true]
     s.operable ∧ s.linkAccepts 1 ∧ s.config.pollBound = .count 5 (by decide) ∧ s.busyFor 5) ∧
    (let s := rest (panel 2 16) [] [false]; s.operable ∧ s.linkRefusesAfter 0) ∧
    (initFrames = [] ++ (0x74, [0x54]) :: initFrames.drop 1 ∧ initFrames = initFrames.take 9 ++ (0x4F, []) :: []) ∧
    (let s := rest (panel 2 16) [true, true, true, true, false] [true, false]
     s.operable ∧ 4 < pollBudget s.config ∧ s.idleAfter 4 ∧ s.linkRefusesAfter (1 + frameBytes [])) ∧
    (let s := rest (panel 2 16) [false] [true, true, false]
     0 < pollBudget s.config ∧ s.idleAfter 0 ∧ 0 < ([0x54] : List Byte).length ∧
      s.linkRefusesAfter (2 + frameBytes [] + 0)) ∧
    (let s := rest (panel 2 16) [false] (List.replicate 12 true ++ [false])
     s.idleAfter 0 ∧ s.linkRefusesAfter (1 + frameBytes (initFrames.take 9))) ∧
    (let s := { suspended .init [false] with env := (rest (panel 2 16) [false] [false]).env }
     s.wait = some .init ∧ s.host = [] ∧ s.config.pollBound = .inf ∧ s.env.busyAt 0 = false ∧
      s.linkRefusesAfter (frameBytes [])) ∧
    (let s := { suspended .init [false] with env := (rest (panel 2 16) [false] [true, false]).env }
     s.env.busyAt 0 = false ∧ s.linkRefusesAfter (1 + frameBytes [] + 0)) := by decide

theorem witness_SuspendedInitGoesOn :
    let s := suspended .init [false]
    s.wait = some .init ∧ s.host = [] ∧ s.config.pollBound = .inf ∧ s.env.busyAt 0 = false ∧ s.linkAccepts 12 := by decide

theorem witness_WritePlaneLoadsTheBuffer :
    (loaded).operable ∧ (loaded).allows (sendMisuse (loaded)) ∧ (loaded).linkAccepts (1 + (loaded).config.bufLen) ∧
    (let s : State := { loaded with cycle := .busy }
     s.operable ∧ s.allows (sendMisuse s) ∧ s.linkAccepts (1 + s.config.bufLen)) := by decide

/-- CHUNK = 1, below, at and above BUFLEN = 4. -/
theorem witness_ChunkDoesNotChangeTheFrame :
    ∀ c ∈ [Bound.count 1 (by decide), .count 3 (by decide), .count 4 (by decide), .count 5 (by decide), .inf],
      let s := loaded c
      s.operable ∧ s.allows (sendMisuse s) ∧ s.linkAccepts (1 + s.config.bufLen) := by decide

/-- The command byte; the first and the last byte of BUF in the bulk form, with CHUNK = INF and with CHUNK = BUFLEN; with
CHUNK one below BUFLEN the last byte of the first window and the byte of the last window. -/
theorem witness_WritePlaneStopsAtRefusedByte :
    (let s := loaded .inf [false]; s.operable ∧ s.allows (sendMisuse s) ∧ s.linkRefusesAfter 0) ∧
    (let s := loaded .inf [true, false]; 0 < s.config.bufLen ∧ s.linkRefusesAfter (1 + 0)) ∧
    (let s := loaded (.count 4 (by decide)) [true, true, true, true, false]
     s.operable ∧ s.allows (sendMisuse s) ∧ 3 < s.config.bufLen ∧ s.linkRefusesAfter (1 + 3)) ∧
    bulkForm (loaded .inf).config ∧ bulkForm (loaded (.count 4 (by decide))).config ∧
    (let s := loaded (.count 3 (by decide)) [true, true, true, false]
     s.operable ∧ s.allows (sendMisuse s) ∧ 2 < s.config.bufLen ∧ s.linkRefusesAfter (1 + 2) ∧
      s.config.chunk = .count 3 (by decide) ∧ 3 < s.config.bufLen) ∧
    (let s := loaded (.count 3 (by decide)) [true, true, true, true, false]
     3 < s.config.bufLen ∧ s.linkRefusesAfter (1 + 3)) :=
  ⟨by decide, by decide, by decide, trivial, Nat.le_refl 4, by decide, by decide⟩

theorem witness_RefreshTriggersAndWaits :
    let s := rest (panel 2 16) [false, true, true, true, true, false] accepts
    s.operable ∧ s.env.busyAt 0 = false ∧ s.linkAccepts (2 + (triggerPayload s.config .red).length) ∧
      4 < pollBudget s.config ∧ (∀ k < 4, s.env.busyAt (1 + k) = true) ∧ s.env.busyAt (1 + 4) = false := by decide

theorem witness_RefreshRejectedWhileBusy :
    let s := rest (panel 2 16) [true]
    s.operable ∧ s.env.busyAt 0 = true := by decide

theorem witness_RefreshTimeoutLeavesBusy :
    let s := rest (panel 2 16) [false, true, true, true, true, true] accepts
    s.operable ∧ s.config.pollBound = .count 5 (by decide) ∧ s.env.busyAt 0 = false ∧
      s.linkAccepts (2 + (triggerPayload s.config .bw).length) ∧ ∀ k < 5, s.env.busyAt (1 + k) = true := by decide

/-- 0x22, the one byte of TRIGGER_PAYLOAD, 0x20. -/
theorem witness_RefreshStopsAtRefusedByte :
    (let s := rest { panel 2 16 with triggerBw := [0xF7] } [false] [false]
     s.operable ∧ s.env.busyAt 0 = false ∧ s.linkRefusesAfter 0) ∧
    (let s := rest { panel 2 16 with triggerBw := [0xF7] } [false] [true, false]
     s.env.busyAt 0 = false ∧ 0 < (triggerPayload s.config .bw).length ∧ s.linkRefusesAfter (1 + 0)) ∧
    (let s := rest { panel 2 16 with triggerBw := [0xF7] } [false] [true, true, false]
     s.env.busyAt 0 = false ∧ s.linkRefusesAfter (1 + (triggerPayload s.config .bw).length)) := by decide

/-- Each transition of CYCLE occurs. -/
theorem witness_CycleMovesByItsTable :
    nextIs (exec (.writePlane .bw) (loaded)) (fun t => decide (t.cycle ≠ (loaded).cycle)) = true ∧
    nextIs (exec (.refresh .bw) (rest (panel 2 16) [false, true, true, true, true, true] accepts))
      (fun t => decide (t.cycle = .busy)) = true ∧
    nextIs (exec (.refresh .bw) { rest (panel 2 16) [false, false] accepts with cycle := .planeLoaded })
      (fun t => decide (t.cycle = .idle)) = true ∧
    nextIs (exec .waitIdle { rest (panel 2 16) [true, false] with cycle := .busy }) (fun t => decide (t.cycle = .idle)) = true ∧
    nextIs (exec .init { rest (panel 2 16) [false] accepts with cycle := .planeLoaded })
      (fun t => decide (t.cycle = .idle)) = true ∧
    nextIs (exec .pulseReset { rest (panel 2 16) with cycle := .busy }) (fun t => decide (t.cycle = .idle)) = true := by
  decide

/-- The four edges, outside and inside. -/
theorem witness_PixelAddressIsBoundsChecked :
    (loaded).ready = true ∧ LegalGeometry (loaded).config ∧
    ((-1 : Int) < 0 ∧ ((loaded).config.width : Int) ≤ 2 ∧ ((loaded).config.height : Int) ≤ 16) ∧
    ((0 : Int) ≤ 0 ∧ (1 : Int) < (loaded).config.width ∧ (15 : Int) < (loaded).config.height) :=
  ⟨rfl, panel_legal, by decide, by decide⟩

theorem witness_ClearFillsTheBuffer :
    (loaded).ready = true ∧ LegalGeometry (loaded).config ∧ Memory.wf (loaded).buf = true :=
  ⟨rfl, panel_legal, by decide⟩

/-- The first and the last pixel. -/
theorem witness_SetWritesOnePixel :
    (loaded).ready = true ∧ LegalGeometry (loaded).config ∧ Memory.wf (loaded).buf = true ∧
    (((loaded).config.width : Int) ≤ 2 ∧ ((loaded).config.height : Int) ≤ 16) ∧
    ((0 : Int) ≤ 0 ∧ (0 : Int) < (loaded).config.width ∧ (0 : Int) < (loaded).config.height) ∧
    ((0 : Int) ≤ 1 ∧ (1 : Int) < (loaded).config.width ∧ (0 : Int) ≤ 15 ∧ (15 : Int) < (loaded).config.height) :=
  ⟨rfl, panel_legal, by decide, by decide, by decide, by decide⟩

theorem witness_GetReadsOnePixel :
    (loaded).ready = true ∧ LegalGeometry (loaded).config ∧ Memory.wf (loaded).buf = true ∧
    (((loaded).config.width : Int) ≤ 2 ∧ ((loaded).config.height : Int) ≤ 16) ∧
    (∃ t, exec (.pbClear 1) (loaded) = .next t) ∧
    ((0 : Int) ≤ 1 ∧ (1 : Int) < (loaded).config.width ∧ (0 : Int) ≤ 15 ∧ (15 : Int) < (loaded).config.height) :=
  ⟨rfl, panel_legal, by decide, by decide, ⟨_, rfl⟩, by decide⟩

theorem witness_SetLeavesOtherPixels :
    ∃ s t : State, LegalGeometry s.config ∧ Memory.wf s.buf = true ∧
      exec (.pbGet 0 0) s = .next { s with result := true, status := .ok } ∧ exec (.pbSet 0 1 true) s = .next t ∧
      ((0 : Int), (0 : Int)) ≠ (0, 1) :=
  ⟨loaded, _, panel_legal, by decide, rfl, rfl, by decide⟩

theorem witness_OnlyClearAndSetWriteBuffer :
    ∃ t, (∀ v, Instr.writePlane .bw ≠ .pbClear v) ∧ (∀ x y b, Instr.writePlane .bw ≠ .pbSet x y b) ∧
      exec (.writePlane .bw) (loaded) = .next t :=
  ⟨_, nofun, nofun, rfl⟩

/-- One construction for each of the four cases. -/
theorem witness_ConstructionChecksInOrder :
    State.reset.ready = false ∧ ({ supply 0 250 with pinBusy := none } : Construction).pinBusy = none ∧
    (supply 0 250).width = some 0 ∧ ((supply 8 250).height = some 250 ∧ 250 % 8 ≠ 0) ∧
    ((supply 1 8).height = some 8 ∧ 8 % 8 = 0) := by decide

/-- With the Reset pulse and without. -/
theorem witness_ConstructionPulsesAndInitialises :
    (∃ p, (powered [true, false] accepts).ready = false ∧ (powered [true, false] accepts).dead = false ∧
      checkConstruction (supply 1 8) = .ok p ∧ p.constructPulsesReset = true ∧
      (powered [true, false] accepts).linkAccepts 13 ∧ 1 < pollBudget p ∧ (powered [true, false] accepts).idleAfter 1) ∧
    ∃ p, checkConstruction { supply 1 8 with constructPulsesReset := false } = .ok p ∧ p.constructPulsesReset = false ∧
      1 < pollBudget p :=
  ⟨⟨_, rfl, rfl, rfl, rfl, by decide, by decide, by decide⟩, _, rfl, rfl, by decide⟩

theorem witness_ConfigurationNeverChanges :
    ∃ s t : State, s.ready = true ∧ (∀ rest, s.host ≠ .powerOn :: rest) ∧ step s = .next t ∧ t.dc = .data :=
  ⟨{ loaded with host := [.issue (.req 0x82 {})] }, _, rfl, nofun, rfl, rfl⟩

/-- One instruction for each failure. -/
theorem witness_InstructionsRaiseOnlyTheirFailures :
    nextIs (exec (.pbGet 2 0) (loaded)) (fun t => decide (t.wait = none ∧ t.status = .failed (.outOfBounds 2 0))) = true ∧
    nextIs (exec .waitIdle (rest (panel 2 16) [true, true, true, true, true]))
      (fun t => decide (t.wait = none ∧ t.status = .failed (.hardwareTimeout (.pollBoundExceeded 5)))) = true ∧
    nextIs (exec (.refresh .bw) (rest (panel 2 16) [true]))
      (fun t => decide (t.wait = none ∧ t.status = .failed (.hardwareTimeout .triggerWhileBusy))) = true ∧
    nextIs (exec (.masterActivation .documented) (loaded .inf [false]))
      (fun t => decide (t.wait = none ∧ t.status = .failed (.transportFailure (.linkWrite 0)))) = true ∧
    nextIs (exec .readBusy { loaded with dead := true })
      (fun t => decide (t.wait = none ∧ t.status = .failed (.transportFailure .dead))) = true := by decide

theorem witness_TraceOnlyGrowsAndMovesLatches : ∃ t, exec .setDataMode (loaded) = .next t ∧ t.dc ≠ (loaded).dc :=
  ⟨_, rfl, by decide⟩

theorem witness_OnlyPulseResetWritesReset :
    ∃ t, Instr.setDataMode ≠ .pulseReset ∧ exec .setDataMode (loaded) = .next t :=
  ⟨_, nofun, rfl⟩

/-- A repeated assignment and an event that is kept. -/
theorem witness_WireViewLosesNothing :
    ([.dc .command, .tx 1] : List Event) = [] ++ .dc .command :: [.tx 1] ∧
    wireView Lines.powerOn [.dc .command, .tx 1] = [] ++ .tx 1 :: [] := by decide

/-- INIT times out; 0x12 is refused; the wait is suspended. -/
theorem witness_ConstructionEndsAsItsInit :
    (∃ p, State.reset.ready = false ∧ State.reset.dead = false ∧ checkConstruction (supply 1 8) = .ok p ∧
      p.pollBound = .count 5 (by decide)) ∧
    (let s := powered [true, true, true, true, true] accepts
     s.ready = false ∧ s.dead = false ∧ s.linkAccepts 1 ∧ s.busyFor 5) ∧
    (let s := powered [] [false]; s.ready = false ∧ s.dead = false ∧ s.linkRefusesAfter 0) ∧
    ∃ p, checkConstruction { supply 1 8 with pollBound := .inf, constructPulsesReset := false } = .ok p ∧
      p.pollBound = .inf ∧ (powered [true] accepts).linkAccepts 1 ∧ (powered [true] accepts).env.busyAt 0 = true :=
  ⟨⟨_, rfl, rfl, rfl, rfl⟩, by decide, by decide, _, rfl, rfl, by decide, by decide⟩

/-- A first and a second construction. -/
theorem witness_ConstructionEndsAsItsInit_once :
    (let s : State := { State.reset with host := [.construct (supply 1 8)] }
     s.wait = none ∧ s.host = .construct (supply 1 8) :: [] ∧ s.ready = false) ∧
    (let s : State := { loaded with host := [.construct (supply 1 8)] }
     s.wait = none ∧ s.host = .construct (supply 1 8) :: [] ∧ s.ready = true) := by decide

/-- CHUNK at, above and below BUFLEN = 4, and INF; the last of two windows of 3. -/
theorem witness_ChunkWindowsPartitionTheBuffer :
    (loaded .inf).config.chunk = .inf ∧ (loaded (.count 4 (by decide))).config.bufLen ≤ 4 ∧
    3 < (loaded (.count 3 (by decide))).config.bufLen ∧ 0 < 3 ∧ 1 < (windows 3 [1, 2, 3, 4]).length ∧
    0 < ([4] : List Byte).length ∧ windows 3 [1, 2, 3, 4] = [[1, 2, 3], [4]] := by decide

end Sys2Proof.Tests
end

/-! ## The wire view (00_scope.md R8): what it keeps, and O58 -/

namespace Sys2Proof.Machine

theorem wireView_cons_of_repeats {l : Lines} {e : Event} (h : l.repeats e = true) (es : List Event) :
    wireView l (e :: es) = wireView l es := by
  rw [wireView, if_pos h]

theorem wireView_cons_of_not_repeats {l : Lines} {e : Event} (h : l.repeats e = false) (es : List Event) :
    wireView l (e :: es) = e :: wireView (l.after e) es := by
  rw [wireView, h, if_neg Bool.false_ne_true]

/-- An event in its place in the trace: the wire view leaves it out exactly when it assigns a latch the value it holds. -/
theorem wireView_append_cons (l : Lines) (pre post : List Event) (e : Event) :
    wireView l (pre ++ e :: post) = wireView l pre ++
      (if e = .dc (l.afterAll pre).dc ∨ e = .cs (l.afterAll pre).cs ∨ e = .rst (l.afterAll pre).rst then [] else [e]) ++
        wireView ((l.afterAll pre).after e) post := by
  rw [wireView_append, wireView_cons, List.append_assoc,
    if_congr ((l.afterAll pre).repeats_iff e) (Eq.refl []) (Eq.refl [e])]

theorem Lines.afterAll_wireView (l : Lines) (es : List Event) : l.afterAll (wireView l es) = l.afterAll es := by
  induction es generalizing l with
  | nil => rfl
  | cons e rest ih =>
    cases h : l.repeats e with
    | true => rw [wireView_cons_of_repeats h, ih, Lines.afterAll_cons, Lines.after_repeats h]
    | false => rw [wireView_cons_of_not_repeats h, Lines.afterAll_cons, Lines.afterAll_cons, ih]

/-- A repeated assignment sends no byte. -/
theorem sentBytes_of_repeats {l : Lines} {e : Event} (h : l.repeats e = true) : sentBytes l [e] = [] := by
  obtain rfl | rfl | rfl := (l.repeats_iff e).mp h <;> rfl

theorem sentBytes_cons (l : Lines) (e : Event) (es : List Event) :
    sentBytes l (e :: es) = sentBytes l [e] ++ sentBytes (l.after e) es :=
  sentBytes_append l [e] es

theorem sentBytes_wireView (l : Lines) (es : List Event) : sentBytes l (wireView l es) = sentBytes l es := by
  induction es generalizing l with
  | nil => rfl
  | cons e rest ih =>
    rw [sentBytes_cons l e rest]
    cases h : l.repeats e with
    | true => rw [wireView_cons_of_repeats h, ih, sentBytes_of_repeats h, Lines.after_repeats h, List.nil_append]
    | false => rw [wireView_cons_of_not_repeats h, sentBytes_cons, ih]

theorem wireView_wireView (l : Lines) (es : List Event) : wireView l (wireView l es) = wireView l es := by
  induction es generalizing l with
  | nil => rfl
  | cons e rest ih =>
    cases h : l.repeats e with
    | true => rw [wireView_cons_of_repeats h, ih]
    | false => rw [wireView_cons_of_not_repeats h, wireView_cons_of_not_repeats h, ih]

/-- Settles O58: the place of an event by `wireView_append_cons`, the rest by induction on the trace, where the latches an
event meets decide whether it stays. -/
theorem wireViewLosesNothing : Obligations.WireViewLosesNothing := by
  intro l es
  refine ⟨rfl, ?place, ?noRepeat, l.afterAll_wireView es, sentBytes_wireView l es, wireView_wireView l es⟩
  case place =>
    rintro pre post e rfl
    exact wireView_append_cons l pre post e
  case noRepeat =>
    intro pre post e h
    have kept : ¬ (l.afterAll pre).repeats e = true := by
      rw [wireView_repeats_nothing es l pre post e h]
      exact Bool.false_ne_true
    rwa [Lines.repeats_iff, not_or, not_or] at kept

end Sys2Proof.Machine

/-! ## Reset, entry checks, and what no step changes (10_state.md R23, R28 to R31, R36): O1, O2, O9, O10, O12, O13, O14,
O53 and O57 -/

namespace Sys2Proof.Machine

/-! ### The pixel buffer's requests beside the bus requests, and READY before both -/

theorem bufferRequest_notReady (op : State → Result) {s : State} (h : s.ready = false) :
    bufferRequest op s = .refused .notReady := by
  simp [bufferRequest, h]

/-- The instructions without bus steps are the pixel buffer's three. -/
theorem pixelBuffer_of_busSteps_none {s : State} {i : Instr} (h : busSteps s i = none) :
    (∃ v, i = .pbClear v) ∨ (∃ x y b, i = .pbSet x y b) ∨ ∃ x y, i = .pbGet x y := by
  cases i <;> simp [busSteps] at h ⊢

theorem exec_of_busSteps_none {s : State} {i : Instr} (h : busSteps s i = none) :
    ∃ op, exec i s = bufferRequest op s := by
  obtain ⟨v, rfl⟩ | ⟨x, y, b, rfl⟩ | ⟨x, y, rfl⟩ := pixelBuffer_of_busSteps_none h
  · exact ⟨opPbClear v, rfl⟩
  · exact ⟨opPbSet x y b, rfl⟩
  · exact ⟨opPbGet x y, rfl⟩

/-- Settles O12: bus requests and pixel buffer requests both check READY first. -/
theorem notReadyRefusesEveryInstruction : Obligations.NotReadyRefusesEveryInstruction := by
  intro i s hr
  cases hb : busSteps s i with
  | some p => rw [exec_bus hb, busRequest_notReady _ _ _ hr]
  | none =>
    obtain ⟨op, he⟩ := exec_of_busSteps_none hb
    rw [he, bufferRequest_notReady op hr]

/-- Settles O13: an instruction that is not the pixel buffer's is a bus request, which checks DEAD before its steps. -/
theorem deadBlocksEveryBusOperation : Obligations.DeadBlocksEveryBusOperation := by
  intro i s hr hd hclear hset hget
  cases hb : busSteps s i with
  | some p => rw [exec_bus hb, busRequest_dead _ _ _ hr hd]
  | none =>
    obtain ⟨v, hi⟩ | ⟨x, y, b, hi⟩ | ⟨x, y, hi⟩ := pixelBuffer_of_busSteps_none hb
    · exact absurd hi (hclear v)
    · exact absurd hi (hset x y b)
    · exact absurd hi (hget x y)

/-! ### The host's reaction -/

/-- The host drops what it has left exactly after an operation that ended in a failure, if it stops at failures
(30_encoding.md R92). -/
theorem hostReacts_eq_ite (s : State) :
    hostReacts s = if s.stopAtFailure = true ∧ s.wait = none ∧ s.status ≠ .ok then s.withHost [] else s := by
  unfold hostReacts
  split
  · next hstop hwait hstatus => simp [hstop, hwait, hstatus]
  · next hnot =>
    rw [if_neg]
    rintro ⟨hstop, hwait, hstatus⟩
    cases hs : s.status with
    | ok => exact hstatus hs
    | failed f => exact hnot f hstop hwait hs

@[simp] theorem State.withHost_ready (rest : List HostInput) (s : State) : (s.withHost rest).ready = s.ready := rfl
@[simp] theorem State.withHost_config (rest : List HostInput) (s : State) : (s.withHost rest).config = s.config := rfl
@[simp] theorem State.withHost_dead (rest : List HostInput) (s : State) : (s.withHost rest).dead = s.dead := rfl
@[simp] theorem State.withHost_trace (rest : List HostInput) (s : State) : (s.withHost rest).trace = s.trace := rfl
@[simp] theorem State.withHost_lines (rest : List HostInput) (s : State) : (s.withHost rest).lines = s.lines := rfl

@[simp] theorem hostReacts_ready (s : State) : (hostReacts s).ready = s.ready :=
  (hostReacts_eq s).elim (congrArg State.ready) (congrArg State.ready)

@[simp] theorem hostReacts_config (s : State) : (hostReacts s).config = s.config :=
  (hostReacts_eq s).elim (congrArg State.config) (congrArg State.config)

@[simp] theorem hostReacts_dead (s : State) : (hostReacts s).dead = s.dead :=
  (hostReacts_eq s).elim (congrArg State.dead) (congrArg State.dead)

@[simp] theorem hostReacts_trace (s : State) : (hostReacts s).trace = s.trace :=
  (hostReacts_eq s).elim (congrArg State.trace) (congrArg State.trace)

@[simp] theorem hostReacts_lines (s : State) : (hostReacts s).lines = s.lines :=
  (hostReacts_eq s).elim (congrArg State.lines) (congrArg State.lines)

/-- Settles O9: the step is `afterOperation` of the instruction, for each of its three outcomes. -/
theorem stepPerformsIssuedInstruction : Obligations.StepPerformsIssuedInstruction := by
  intro s code rest i hw hh hd
  rw [step_issue hw hh hd]
  refine ⟨fun t ht => ?_, fun f hf => ?_, fun r hr => ?_⟩
  · rw [ht, afterOperation, hostReacts_eq_ite]
  · rw [hf, afterOperation]
  · rw [hr, afterOperation]

/-- Settles O10, by the case of `step` without a wait and without an input. -/
theorem stepWithoutInputChangesNothing : Obligations.StepWithoutInputChangesNothing :=
  fun _ hw hh => step_none hw hh

/-! ### Power-on reset -/

/-- Settles O1: the step is `powerOn`, whatever stands suspended. No index is below BUFLEN, which is 0. -/
theorem powerOnGivesResetValues : Obligations.PowerOnGivesResetValues := by
  intro s rest hh
  have noIndex : ∀ i, (powerOn (s.withHost rest)).bufRead i = none := fun i => if_neg i.not_lt_zero
  exact ⟨powerOn (s.withHost rest), step_powerOn hh, rfl, rfl, rfl, rfl, rfl, rfl, rfl, rfl, rfl, noIndex, rfl, rfl,
    rfl⟩

theorem State.reset_inv : State.reset.Inv where
  canonical := Memory.wf_nil
  mapped := Memory.within_nil _
  geometry := by simp [State.reset]
  noBuffer _ := rfl
  resetHigh := rfl
  recorded := rfl
  deadReady := by simp [State.reset]
  failureDead := by simp [State.reset]
  suspended := by simp [State.reset]

theorem State.reset_guarded : State.reset.Guarded where
  refuses := by simp [State.reset]
  constructions := by simp [State.reset]

/-- Settles O2: the clauses of `Inv` and of `Guarded` at reset, and no byte is in the empty trace. -/
theorem resetMeetsInvariants : Obligations.ResetMeetsInvariants :=
  ⟨State.reset_inv, State.reset_guarded, rfl⟩

/-! ### A step of a constructed block -/

/-- A second construction is refused (70_reset_and_hazards.md R231). -/
theorem construct_of_ready (c : Construction) {s : State} (h : s.ready = true) :
    construct c s = .refused .alreadyConstructed := by
  simp [construct, h]

/-- While power stays on, a step of a constructed block waits, goes on with a suspended wait, or performs an instruction. -/
theorem step_cases_of_ready {s t : State} (hr : s.ready = true) (hp : ∀ rest, s.host ≠ .powerOn :: rest)
    (h : step s = .next t) :
    t = s ∨ (∃ k, s.wait = some k ∧ t = hostReacts (opResume k s).final) ∨
      ∃ i rest u, exec i (s.withHost rest) = .next u ∧ t = hostReacts u := by
  obtain ⟨k, hw, ht⟩ | ⟨_, _, ht⟩ | ⟨rest, hh, _⟩ | ⟨_, c, rest, u, _, hc, _⟩ | ⟨_, code, rest, i, u, _, _, he, ht⟩ :=
    step_cases h
  · exact .inr (.inl ⟨k, hw, ht⟩)
  · exact .inl ht
  · exact absurd hh (hp rest)
  · rw [construct_of_ready c (s := s.withHost rest) hr] at hc
    cases hc
  · exact .inr (.inr ⟨i, rest, u, he, ht⟩)

/-- What going on with a suspended wait keeps. -/
theorem opResume_keeps (k : Resume) (s : State) : ∃ es, Keeps es s (opResume k s).final := by
  obtain ⟨es, hk, -⟩ := opResume_does stretch_anything (fun _ _ => trivial) (fun _ _ => trivial) (fun _ _ _ => trivial)
    (fun _ _ => trivial) k s
  exact ⟨es, hk⟩

/-- Settles O53: neither an instruction nor a resumed wait writes the configuration or READY. -/
theorem configurationNeverChanges : Obligations.ConfigurationNeverChanges := by
  intro s t hr hp h
  obtain rfl | ⟨k, _, rfl⟩ | ⟨i, rest, u, he, rfl⟩ := step_cases_of_ready hr hp h
  · exact ⟨hr, rfl⟩
  · obtain ⟨es, hk⟩ := opResume_keeps k s
    exact ⟨by simp [hk.ready, hr], by simp [hk.config]⟩
  · obtain ⟨hready, hconfig, -⟩ := exec_keeps he
    exact ⟨by simp [hready, hr], by simp [hconfig]⟩

/-- Settles O14: of a dead block no instruction appends an event (10_state.md R28), and the latches follow the events. -/
theorem deadIsStickyAndSilent : Obligations.DeadIsStickyAndSilent := by
  intro s t hr hd hw hp h
  obtain rfl | ⟨k, hk, _⟩ | ⟨i, rest, u, he, rfl⟩ := step_cases_of_ready hr hp h
  · exact ⟨hd, hr, rfl, rfl⟩
  · rw [hw] at hk
    cases hk
  · obtain ⟨hready, -, -, -, hdead, ⟨es, htrace, hlines, hsilent, -⟩, -⟩ := exec_keeps he
    rw [hsilent hd] at htrace hlines
    exact ⟨by simp [hdead hd], by simp [hready, hr], by simp [htrace], by simp [hlines, Lines.afterAll]⟩

/-- Settles O57: without a Reset assignment among the appended events (`exec_keeps`) the latch stays (`afterAll_noReset`). -/
theorem onlyPulseResetWritesReset : Obligations.OnlyPulseResetWritesReset := by
  intro i s t hi h
  obtain ⟨-, -, -, -, -, ⟨es, htrace, hlines, -, hother⟩, -⟩ := exec_keeps h
  have noReset := hother hi
  refine ⟨?_, es, htrace, fun b hb => ?_⟩
  · calc t.rst = (s.lines.afterAll es).rst := congrArg Lines.rst hlines
      _ = s.rst := afterAll_noReset es s.lines noReset
  · exact Bool.noConfusion (noReset _ hb)

end Sys2Proof.Machine

/-! ## The invariant through a step (20_memory.md R58, R60; 00_scope.md R8): O3 and O56

Every way a step can go is a stretch of operations that `Keeps` everything the invariant speaks of but the Reset latch and
the suspended wait, possibly after the pixel buffer or the configuration has been written. -/

namespace Sys2Proof.Machine

/-! ### What the invariant does not read -/

/-- The invariant does not read the host's inputs. -/
theorem State.withHost_inv {s : State} (hs : s.Inv) (rest : List HostInput) : (s.withHost rest).Inv :=
  { hs with }

theorem hostReacts_inv {s : State} (hs : s.Inv) : (hostReacts s).Inv := by
  obtain h | h := hostReacts_eq s <;> rw [h]
  · exact hs
  · exact State.withHost_inv hs []

/-- After power-on the environment and the host are the old ones, which the invariant does not read. -/
theorem powerOn_inv (s : State) : (powerOn s).Inv :=
  { State.reset_inv with }

/-! ### Through operations that keep the buffer and the configuration -/

/-- Without a Reset assignment among the appended events the latch stays. -/
theorem Keeps.rst_eq {es : List Event} {s t : State} (hk : Keeps es s t) (hes : ∀ e ∈ es, e.isReset = false) :
    t.rst = s.rst :=
  calc t.rst = (s.lines.afterAll es).rst := congrArg Lines.rst hk.lines
    _ = s.rst := afterAll_noReset es s.lines hes

theorem noReset_singleton (l : Lines) {e : Event} (h : e.isReset = false) : NoReset l [e] := by
  rintro _ he
  rwa [List.mem_singleton.mp he]

/-- The invariant follows `Keeps`, but for the clauses on the Reset latch, on the wait and on DEAD before construction. -/
theorem State.Inv.of_keeps {es : List Event} {s t : State} (hs : s.Inv) (hk : Keeps es s t) (hrst : t.rst = true)
    (hdead : t.dead = true → s.ready = true)
    (hwait : t.wait ≠ none → s.ready = true ∧ t.dead = false ∧ s.config.pollBound = .inf) : t.Inv where
  canonical := by rw [hk.buf]; exact hs.canonical
  mapped := by rw [hk.buf, hk.config]; exact hs.mapped
  geometry := by rw [hk.ready, hk.config]; exact hs.geometry
  noBuffer := by rw [hk.ready, hk.config]; exact hs.noBuffer
  resetHigh := hrst
  recorded := by rw [hk.trace, hk.lines, Lines.afterAll_append, hs.recorded]
  deadReady := by rw [hk.ready]; exact hdead
  failureDead cause h := (hk.failure cause h).elim (fun old => hk.dead (hs.failureDead cause old)) id
  suspended := by rw [hk.ready, hk.config]; exact hwait

/-- Going on with a suspended wait: it stays suspended only while the block is live. -/
theorem opResume_inv {k : Resume} {s : State} (hs : s.Inv) (hw : s.wait = some k) : (opResume k s).final.Inv := by
  obtain ⟨hready, hlive, hinf⟩ := hs.suspended (by simp [hw])
  obtain ⟨es, hk, hes⟩ := opResume_does stretch_noReset (fun l _ => noReset_singleton l rfl)
    (fun l _ => noReset_singleton l rfl) (fun l _ _ => noReset_singleton l rfl) (fun l _ => noReset_singleton l rfl) k s
  exact hs.of_keeps hk ((hk.rst_eq hes).trans hs.resetHigh) (fun _ => hready)
    fun hn => ⟨hready, (opResume_suspended_dead k s hinf hn).trans hlive, hinf⟩

/-! ### Through an instruction -/

/-- The steps of every bus request, PULSE_RESET among them, keep what operations over the lines keep. -/
theorem busSteps_keeps {i : Instr} {s : State} {m : Option Refusal} {op : State → Flow}
    (h : busSteps s i = some (m, op)) : ∃ es, Keeps es s (op s).final := by
  by_cases hi : i = .pulseReset
  · subst hi
    cases h
    exact ⟨_, opPulseReset_keeps s⟩
  · obtain ⟨es, hk, -⟩ := busSteps_does stretch_anything (fun _ _ => trivial) (fun _ _ => trivial)
      (fun _ _ _ => trivial) (fun _ _ => trivial) h (fun _ _ _ => trivial) hi
    exact ⟨es, hk⟩

/-- An instruction first writes the pixel buffer or leaves it, canonical and mapped as it was (20_memory.md R58), and keeps
the rest. -/
theorem exec_keeps_after_buffer {i : Instr} {s t : State} (h : exec i s = .next t) (hwf : Memory.wf s.buf = true)
    (hin : Memory.within s.config.bufLen s.buf = true) :
    ∃ m es, Memory.wf m = true ∧ Memory.within s.config.bufLen m = true ∧ Keeps es { s with buf := m } t := by
  obtain ⟨-, ⟨_, op, hb, ⟨hd, rfl⟩ | ⟨-, -, rfl⟩⟩ | ⟨v, -, rfl⟩ | ⟨x, y, b, -, hset⟩ | ⟨x, y, -, hget⟩⟩ := exec_cases h
  · exact ⟨s.buf, [], hwf, hin, keeps_deadFailure s hd⟩
  · obtain ⟨es, hk⟩ := busSteps_keeps hb
    exact ⟨s.buf, es, hwf, hin, hk⟩
  · exact ⟨_, [], Memory.wf_fill _ v _ hwf, Memory.within_fill _ _ le_rfl v _ hin, keeps_setOk _⟩
  · obtain ⟨-, rfl⟩ | ⟨p, -, hp, rfl⟩ := opPbSet_next hset
    · exact ⟨s.buf, [], hwf, hin, keeps_raised _ s (by simp)⟩
    · exact ⟨_, [], Memory.wf_write _ _ _ hwf, Memory.within_write _ _ _ hp _ hin, keeps_setOk _⟩
  · obtain ⟨-, rfl⟩ | ⟨p, -, -, rfl⟩ := opPbGet_next hget
    · exact ⟨s.buf, [], hwf, hin, keeps_raised _ s (by simp)⟩
    · exact ⟨s.buf, _, hwf, hin, (keeps_setResult _ s).trans (keeps_setOk _)⟩

/-- Between instructions the controller is not held in reset: PULSE_RESET ends high (10_state.md R23, 40_transport.md
R105). -/
theorem exec_resetHigh {i : Instr} {s t : State} (h : exec i s = .next t) (hs : s.rst = true) : t.rst = true := by
  by_cases hi : i = .pulseReset
  · subst hi
    obtain ⟨-, ⟨-, rfl⟩ | ⟨-, -, rfl⟩⟩ := busRequest_next (show busRequest none opPulseReset s = .next t from h)
    · exact hs
    · rfl
  · exact (onlyPulseResetWritesReset i s t hi h).1.trans hs

theorem exec_inv {i : Instr} {s t : State} (hs : s.Inv) (hw : s.wait = none) (h : exec i s = .next t) :
    t.Inv := by
  obtain ⟨m, es, hwf, hin, hk⟩ := exec_keeps_after_buffer h hs.canonical hs.mapped
  have written : ({ s with buf := m } : State).Inv := { hs with canonical := hwf, mapped := hin }
  obtain ⟨hready, -⟩ := exec_cases h
  refine written.of_keeps hk (exec_resetHigh h hs.resetHigh) (fun _ => hready) fun hn => ?_
  obtain ⟨-, hinf, hlive⟩ := exec_suspended h hw hn
  exact ⟨hready, hlive, hinf⟩

/-! ### Through construction -/

/-- The block with a legal configuration and an empty buffer. -/
theorem State.install_inv {p : Parameters} {s : State} (hs : s.Inv) (hw : s.wait = none) (hp : LegalGeometry p) :
    (s.install p).Inv :=
  { hs with
    canonical := Memory.wf_nil
    mapped := Memory.within_nil _
    geometry := fun _ => hp
    noBuffer := by simp
    deadReady := fun _ => rfl
    suspended := fun hn => absurd hw hn }

/-- What construction did, if it answered: a failed check changes STATUS only (60_exceptions.md R201). -/
theorem construct_next {c : Construction} {s t : State} (h : construct c s = .next t) : s.ready = false ∧
    ((∃ cause, t = s.raised (.configurationError cause)) ∨
      ∃ p, checkConstruction c = .ok p ∧ t = (opConstruct p s).final) := by
  cases hr : s.ready with
  | true => simp [construct, hr] at h
  | false =>
    refine ⟨rfl, ?_⟩
    cases hc : checkConstruction c with
    | error cause => exact .inl ⟨cause, by simpa [construct, hr, hc, eq_comm] using h⟩
    | ok p => exact .inr ⟨p, rfl, by simpa [construct, hr, hc, eq_comm] using h⟩

/-- Construction of a live block is INIT on the installed block, after PULSE_RESET where it is configured
(70_reset_and_hazards.md R231). -/
theorem opConstruct_eq_opInit (p : Parameters) {s : State} (h : s.dead = false) :
    opConstruct p s =
      opInit (if p.constructPulsesReset then (opPulseReset (s.install p)).final else s.install p) := by
  rw [opConstruct_eq p s h, opInit_andThen_setOk]
  cases p.constructPulsesReset with
  | true => simp [opPulseReset, State.install, State.setOk, State.setCycle, State.assignRst, State.emit]
  | false => simp [State.install]

/-- Construction after its checks goes through the states of two instructions. -/
theorem opConstruct_inv {p : Parameters} {s : State} (hs : s.Inv) (hw : s.wait = none) (hlive : s.dead = false)
    (hp : LegalGeometry p) : (opConstruct p s).final.Inv := by
  have installed := State.install_inv hs hw hp
  have init : ∀ u : State, u.Inv → u.operable → u.wait = none → (opInit u).final.Inv :=
    fun u hu hop huw => exec_inv (i := .init) hu huw (busRequest_runs_none opInit u hop)
  rw [opConstruct_eq_opInit p hlive]
  split
  · have pulsed : (opPulseReset (s.install p)).final.Inv :=
      exec_inv (i := .pulseReset) installed hw (busRequest_runs_none opPulseReset (s.install p) ⟨rfl, hlive⟩)
    exact init _ pulsed ⟨rfl, hlive⟩ hw
  · exact init _ installed ⟨rfl, hlive⟩ hw

theorem construct_inv {c : Construction} {s t : State} (hs : s.Inv) (hw : s.wait = none)
    (h : construct c s = .next t) : t.Inv := by
  obtain ⟨hunready, ⟨cause, rfl⟩ | ⟨p, hp, rfl⟩⟩ := construct_next h
  · exact hs.of_keeps (keeps_raised _ s (by simp)) hs.resetHigh hs.deadReady hs.suspended
  · have hlive : s.dead = false := by
      by_contra hd
      simp [hs.deadReady (by simpa using hd)] at hunready
    exact opConstruct_inv hs hw hlive (checkConstruction_ok hp).1

/-! ### The obligations -/

/-- Settles O3: each of the five things a step can do keeps the invariant, and the host's reaction does not touch it. -/
theorem stepKeepsInvariant : Obligations.StepKeepsInvariant := by
  intro s t hs h
  obtain ⟨k, hw, rfl⟩ | ⟨-, -, rfl⟩ | ⟨rest, -, rfl⟩ | ⟨hw, c, rest, u, -, hc, rfl⟩ |
    ⟨hw, code, rest, i, u, -, -, he, rfl⟩ := step_cases h
  · exact hostReacts_inv (opResume_inv hs hw)
  · exact hs
  · exact powerOn_inv _
  · exact hostReacts_inv (construct_inv (State.withHost_inv hs rest) hw hc)
  · exact hostReacts_inv (exec_inv (State.withHost_inv hs rest) hw he)

/-- Settles O56: the trace and the latches among what every instruction keeps (`exec_keeps`). -/
theorem traceOnlyGrowsAndMovesLatches : Obligations.TraceOnlyGrowsAndMovesLatches := by
  intro i s t h
  obtain ⟨-, -, -, -, -, ⟨es, htrace, hlines, -⟩, -⟩ := exec_keeps h
  exact ⟨es, htrace, hlines⟩

end Sys2Proof.Machine

/-! ## The encodings (30_encoding.md sections 2 to 5; 43_commands.md R157): O5, O6, O7, O8, O11, O25 and O28 -/

namespace Sys2Proof

/-! ### Command bytes (R85) -/

theorem Command.ofByte_value (c : Command) : Command.ofByte c.value = some c := by
  cases c <;> rfl

theorem Command.ofByte_eq_none {b : Byte} (h : b ∉ Command.all.map Command.value) : Command.ofByte b = none := by
  refine List.find?_eq_none.mpr fun c hc hv => h ?_
  rw [← beq_iff_eq.mp hv]
  exact List.mem_map_of_mem hc

theorem decode_encodeCommand (c : Command) (payload : Payload) (plane : Plane) :
    decode (encodeCommand c payload plane) = .instr (Instr.ofCommand plane payload c) := by
  simp only [encodeCommand, decode, Command.ofByte_value]

/-! ### Request selectors (R81, R86, R87) -/

/-- The sixteen selectors of R86. -/
def requestSelectors : List Byte :=
  [0x81, 0x82, 0x83, 0x84, 0x85, 0x86, 0x87, 0x90, 0x91, 0xA0, 0xB0, 0xB1, 0xB2, 0xC0, 0xC1, 0xC2]

/-- Bit 7 set, the group in bits 6:4 and the index in bits 3:0 are the whole selector (R81). -/
theorem selector_selGroup_selIndex {sel : Byte} (h : selOne sel = true) :
    selector (selGroup sel) (selIndex sel) = sel := by
  revert sel
  decide

theorem selector_listed_of_decodeTransport {idx : Nat} {p : Ports} {i : Instr} (h : decodeTransport idx p = some i) :
    selector 0 idx ∈ requestSelectors := by
  match idx, h with
  | 1, _ | 2, _ | 3, _ | 4, _ | 5, _ | 6, _ | 7, _ => decide

theorem selector_listed_of_decodeFramer {idx : Nat} {p : Ports} {i : Instr} (h : decodeFramer idx p = some i) :
    selector 1 idx ∈ requestSelectors := by
  match idx, h with
  | 0, _ | 1, _ => decide

theorem selector_listed_of_decodeSynchroniser {idx : Nat} {i : Instr} (h : decodeSynchroniser idx = some i) :
    selector 2 idx ∈ requestSelectors := by
  match idx, h with
  | 0, _ => decide

theorem selector_listed_of_decodeSequencer {idx : Nat} {p : Ports} {i : Instr} (h : decodeSequencer idx p = some i) :
    selector 3 idx ∈ requestSelectors := by
  match idx, h with
  | 0, _ | 1, _ | 2, _ => decide

theorem selector_listed_of_decodePixelBuffer {idx : Nat} {p : Ports} {i : Instr}
    (h : decodePixelBuffer idx p = some i) : selector 4 idx ∈ requestSelectors := by
  match idx, h with
  | 0, _ | 1, _ | 2, _ => decide

/-- A selector that stands for a request is one of the sixteen, group by group. -/
theorem selector_listed_of_decodeReq {sel : Byte} {p : Ports} {i : Instr} (h : decodeReq sel p = some i) :
    sel ∈ requestSelectors := by
  unfold decodeReq at h
  split at h
  case isFalse => cases h
  case isTrue hone =>
    rw [← selector_selGroup_selIndex hone]
    split at h
    case h_1 hg => exact hg ▸ selector_listed_of_decodeTransport h
    case h_2 hg => exact hg ▸ selector_listed_of_decodeFramer h
    case h_3 hg => exact hg ▸ selector_listed_of_decodeSynchroniser h
    case h_4 hg => exact hg ▸ selector_listed_of_decodeSequencer h
    case h_5 hg => exact hg ▸ selector_listed_of_decodePixelBuffer h
    case h_6 => cases h

theorem decode_reserved {sel : Byte} (h : sel ∉ requestSelectors) (p : Ports) :
    decode (.req sel p) = .rejected (.reservedSelector sel) := by
  have noRequest : decodeReq sel p = none :=
    Option.eq_none_iff_forall_ne_some.mpr fun _ hi => h (selector_listed_of_decodeReq hi)
  simp only [decode, noRequest]

/-- A request with any values on its ports, also on those its instruction does not read. -/
theorem decode_listed {sel : Byte} (h : sel ∈ requestSelectors) (p : Ports) : ∃ i, decode (.req sel p) = .instr i := by
  revert sel
  simp only [requestSelectors, List.forall_mem_cons]
  exact ⟨⟨_, rfl⟩, ⟨_, rfl⟩, ⟨_, rfl⟩, ⟨_, rfl⟩, ⟨_, rfl⟩, ⟨_, rfl⟩, ⟨_, rfl⟩, ⟨_, rfl⟩, ⟨_, rfl⟩, ⟨_, rfl⟩, ⟨_, rfl⟩,
    ⟨_, rfl⟩, ⟨_, rfl⟩, ⟨_, rfl⟩, ⟨_, rfl⟩, ⟨_, rfl⟩, List.forall_mem_nil _⟩

/-- Settles O5: a request's selector and ports evaluate to it; a command row is found again by its byte. -/
theorem decodeEncodeRoundTrip : Obligations.DecodeEncodeRoundTrip := by
  intro i
  cases i
  case setCommandMode | setDataMode | assertSelect | releaseSelect | write | pulseReset | readBusy | sendCommand
    | sendData | waitIdle | init | writePlane | refresh | pbClear | pbSet | pbGet => rfl
  all_goals exact decode_encodeCommand _ _ _

/-- Settles O7: a byte is found among the commands exactly when it is one of their values, which differ (R85). -/
theorem commandBytesAreTheSeventeen : Obligations.CommandBytesAreTheSeventeen := by
  refine ⟨rfl, fun c => ?_, fun b hb => ?_, fun b => rfl⟩
  · rw [readWire, Command.ofByte_value]
  · rw [readWire, Command.ofByte_eq_none hb]

/-- Settles O8: the words of the table evaluate to their rows; the other three bytes are no selectors. -/
theorem specWordsDecode : Obligations.SpecWordsDecode := by
  have reserved {sel : Byte} (h : sel ∉ requestSelectors) := decode_reserved h {}
  exact ⟨rfl, rfl, rfl, rfl, rfl, rfl, rfl, rfl, reserved (by decide), reserved (by decide), reserved (by decide)⟩

theorem decode_tableCode {nbits w : Nat} {i : Instr} (h : decodeTableWord nbits w = some i) :
    decode (tableCode nbits w) = .instr i := by
  unfold decodeTableWord at h
  split at h
  · next hd => rw [hd, Option.some.inj h]
  · cases h

end Sys2Proof

namespace Sys2Proof.Machine

/-- Settles O6: what decodes is listed (`selector_listed_of_decodeReq`), and a step refuses what the decoder rejects. -/
theorem reservedSelectorsAreRefused : Obligations.ReservedSelectorsAreRefused := by
  intro sel ports listed
  refine ⟨fun h => decode_listed h ports, fun h => ?_⟩
  have rejected : decode (.req sel ports) = .rejected (.reservedSelector sel) := decode_reserved h ports
  exact ⟨rejected, fun s rest hw hh => step_rejected hw hh rejected⟩

/-! ### A placed word (log 2) -/

theorem State.accepting_ready (s : State) : s.accepting.ready = true := by
  unfold State.accepting
  split
  · assumption
  · rfl

theorem State.accepting_wait (s : State) : s.accepting.wait = none := rfl

theorem State.accepting_of_ready {s : State} (hr : s.ready = true) (hw : s.wait = none) : s.accepting = s := by
  rw [State.accepting, if_pos hr, ← hw]

/-- Settles O11: the placed word is the first input, and the step takes it away again. -/
theorem placedWordRunsNext : Obligations.PlacedWordRunsNext := by
  intro s nbits w i hi
  exact ⟨step_issue (s := s.withFetchWord nbits w) s.accepting_wait rfl (decode_tableCode hi), s.accepting_ready,
    State.accepting_of_ready⟩

/-! ### What a receiver reads of one frame (R83, R84) -/

theorem exec_sendCommand_accepts {op : Byte} {data : List Byte} {s : State} (h : s.operable)
    (ha : s.allows (commandMisuse op data s)) (hl : s.linkAccepts (1 + data.length)) :
    exec (.sendCommand op data) s = .next { s with
      dc := .command, cs := .released, status := .ok, trace := s.trace ++ frameTrace op data,
      env := s.env.sent (1 + data.length) } := by
  rw [exec_bus (i := .sendCommand op data) rfl, busRequest_runs _ _ _ h ha, opSendCommand_accepts op data s hl,
    Flow.final_done]

theorem receive_frame (op : Byte) (data : List Byte) :
    receive ((.command, op) :: data.map fun b => (.data, b)) =
      { leading := [], frames := [{ opcode := op, data := data }] } := by
  rw [receive, receive_data]

/-- Settles O25: the stretch is the trace of the frame, whose bytes have the modes of one frame. -/
theorem receiverReadsOneFrame : Obligations.ReceiverReadsOneFrame := by
  intro op data s h ha hl
  refine ⟨_, frameTrace op data, exec_sendCommand_accepts h ha hl, rfl, ?_⟩
  rw [sentBytes_frameTrace, receive_frame]

/-! ### The command rows with their documented payload (R85, R140 to R157) -/

/-- Without payload a frame is its command window (41_framer.md R122). -/
theorem frameTrace_nil (op : Byte) : frameTrace op [] = commandWindow op := rfl

/-- A command row is a request of its own. Only DISP_UPDATE_2 looks at the plane. -/
theorem exec_ofCommand (plane : Plane) (payload : Payload) (c : Command) (s : State) :
    exec (Instr.ofCommand plane payload c) s = busRequest (sendMisuse s) (opCommand plane c payload) s := by
  cases payload <;> cases c <;> rfl

theorem opDocumented_accepts (plane : Plane) (c : Command) (s : State)
    (h : s.linkAccepts (documentedLength s plane c)) :
    opDocumented plane c s = .done { s with
      dc := .command, cs := .released, status := .ok, trace := s.trace ++ documentedTrace s plane c,
      env := s.env.sent (documentedLength s plane c) } := by
  cases c
  case setAnalogueCtrl | setDigitalCtrl | dispUpdate2 => exact opSendCommand_accepts _ _ s h
  case writeRamBw | writeRamRed => exact opSendPlane_accepts _ s h
  all_goals exact opSendCommand_accepts _ [] s h

/-- Settles O28: a row performs `opDocumented`, which is one frame or a plane load. -/
theorem commandRowsSendDocumentedPayload : Obligations.CommandRowsSendDocumentedPayload := by
  intro c plane s h ha hl
  rw [exec_ofCommand, busRequest_runs _ _ _ h ha, opCommand, opDocumented_accepts plane c s hl, Flow.final_done]

end Sys2Proof.Machine

/-! ## The transport requests and a command row that stops (40_transport.md R100 to R109; 43_commands.md R157): O16, O17,
O18, O19, O20 and O29 -/

namespace Sys2Proof.Machine

/-! ### An instruction that passes the entry checks, and one that meets DEAD -/

theorem exec_bus_runs {i : Instr} {s : State} {m : Option Refusal} {op : State → Flow}
    (hi : busSteps s i = some (m, op)) (h : s.operable) (ha : s.allows m) : exec i s = .next (op s).final := by
  rw [exec_bus hi, busRequest_runs m op s h ha]

/-- A request without misuse whose steps come to their end. -/
theorem exec_bus_done {i : Instr} {s t : State} {op : State → Flow} (hi : busSteps s i = some (none, op))
    (h : s.operable) (ht : op s = .done t) : exec i s = .next t := by
  rw [exec_bus_runs hi h (.inr rfl), ht, Flow.final_done]

theorem exec_bus_dead {i : Instr} {s : State} {m : Option Refusal} {op : State → Flow}
    (hi : busSteps s i = some (m, op)) (hr : s.ready = true) (hd : s.dead = true) :
    exec i s = .next { s with status := .failed (.transportFailure .dead) } := by
  rw [exec_bus hi, busRequest_dead m op s hr hd]

/-! ### The transport group (40_transport.md) -/

/-- Settles O16: each request is one latch assignment, then OK. -/
theorem lineRequestsAssignTheirLatch : Obligations.LineRequestsAssignTheirLatch := by
  refine ⟨fun _ => ⟨rfl, rfl, rfl, rfl⟩, fun s h => ?_, fun s i hi hr hd => ?_⟩
  · exact ⟨exec_bus_done (i := .setCommandMode) rfl h rfl, exec_bus_done (i := .setDataMode) rfl h rfl,
      exec_bus_done (i := .assertSelect) rfl h rfl, exec_bus_done (i := .releaseSelect) rfl h rfl⟩
  · simp only [List.mem_cons, List.not_mem_nil, or_false] at hi
    obtain rfl | rfl | rfl | rfl := hi <;> exact exec_bus_dead rfl hr hd

/-- Settles O17, by `opWrite_accepts`. -/
theorem writeSendsEveryByte : Obligations.WriteSendsEveryByte := by
  intro data s h ha hl
  rw [exec_bus_runs (i := .write data) rfl h ha, opWrite_accepts data s hl, Flow.final_done]

/-- Settles O18, by `opWrite_refused`. -/
theorem writeStopsAtRefusedByte : Obligations.WriteStopsAtRefusedByte := by
  intro data n s h ha hn hl
  rw [exec_bus_runs (i := .write data) rfl h ha, opWrite_refused data n s hn hl, Flow.final_raised]

/-- PULSE_RESET appends both levels and leaves Reset high (R105). -/
theorem opPulseReset_done (s : State) :
    opPulseReset s = .done { s with
      rst := true, cycle := .idle, status := .ok, trace := s.trace ++ [.rst false, .rst true] } := by
  simp [opPulseReset, State.assignRst, State.emit, State.setCycle, State.setOk]

/-- Settles O19: the pulse by `opPulseReset_done`, and DEAD is checked before it. -/
theorem pulseResetPulsesAndIdles : Obligations.PulseResetPulsesAndIdles :=
  ⟨fun _ => rfl, fun s h => exec_bus_done rfl h (opPulseReset_done s), fun _ hr hd => exec_bus_dead rfl hr hd⟩

/-- Settles O20: the request is one Busy sample, written to RESULT. -/
theorem readBusyReturnsTheSample : Obligations.ReadBusyReturnsTheSample :=
  ⟨fun _ => rfl, fun _ h => exec_bus_done rfl h rfl, fun _ hr hd => exec_bus_dead rfl hr hd⟩

/-! ### A command row that stops at a refused byte (R109) -/

/-- The documented payload of a plane load is BUF, sent as WRITE_PLANE sends it (30_encoding.md R85). -/
theorem opDocumented_planeLoad {c : Command} (hc : c ∈ [Command.writeRamBw, .writeRamRed]) (plane : Plane) (s : State) :
    opDocumented plane c s = opSendPlane c s ∧ documentedPayload s plane c = s.bufBytes := by
  simp only [List.mem_cons, List.not_mem_nil, or_false] at hc
  obtain rfl | rfl := hc <;> exact ⟨rfl, rfl⟩

/-- Every other row is one frame with its documented payload, and so is a plane load in the bulk form (44_sequences.md
R171). -/
theorem opDocumented_oneFrame {plane : Plane} {c : Command} {s : State}
    (h : c ∉ [Command.writeRamBw, .writeRamRed] ∨ bulkForm s.config) :
    opDocumented plane c s = opSendCommand c.value (documentedPayload s plane c) s := by
  by_cases hc : c ∈ [Command.writeRamBw, .writeRamRed]
  · obtain ⟨hop, hpayload⟩ := opDocumented_planeLoad hc plane s
    rw [hop, hpayload, opSendPlane, chunkSize_bulk (h.resolve_left (not_not_intro hc))]
  · cases c
    case writeRamBw | writeRamRed => simp at hc
    all_goals rfl

/-- The command byte refused, whatever the payload and its form. -/
theorem opCommand_refused_command (plane : Plane) (c : Command) (payload : Payload) (s : State)
    (h : s.linkRefusesAfter 0) :
    opCommand plane c payload s = .raised { s with
      dc := .command, cs := .asserted, dead := true, status := .failed (.transportFailure (.linkWrite 0)),
      trace := s.trace ++ [.dc .command, .cs .asserted], env := s.env.sent 1 } := by
  cases payload with
  | given data => exact opSendCommand_refused_command _ data s h
  | documented =>
    by_cases hc : c ∈ [Command.writeRamBw, .writeRamRed]
    · exact (opDocumented_planeLoad hc plane s).1.trans (opSendPlane_refused_command c s h)
    · exact (opDocumented_oneFrame (.inl hc)).trans (opSendCommand_refused_command _ _ s h)

/-- Settles O29: a row is SEND_COMMAND of its value, or a plane load in windows, each with its law of the refused byte. -/
theorem commandRowsStopAtRefusedByte : Obligations.CommandRowsStopAtRefusedByte := by
  intro c plane s h ha
  have row (payload : Payload) :
      exec (Instr.ofCommand plane payload c) s = .next (opCommand plane c payload s).final := by
    rw [exec_ofCommand, busRequest_runs _ _ s h ha]
  have sent (n : Nat) : n + 2 = 1 + (n + 1) := by omega
  refine ⟨fun payload hl => ?command, fun data n hn hl => ?given, fun n hn hl => ⟨fun hf => ?oneFrame, ?windows⟩⟩
  case command =>
    rw [row, opCommand_refused_command plane c payload s hl, Flow.final_raised]
  case given =>
    rw [row, opCommand, opSendCommand_refused_data c.value data n s hn hl, Flow.final_raised, sent, frameStopTrace]
  case oneFrame =>
    rw [row, opCommand, opDocumented_oneFrame hf, opSendCommand_refused_data c.value _ n s hn hl, Flow.final_raised, sent,
      frameStopTrace]
  case windows =>
    intro k hk hc hchunk hlt
    obtain ⟨hop, hpayload⟩ := opDocumented_planeLoad hc plane s
    have inside : n < s.config.bufLen := by rwa [hpayload, State.bufBytes, Memory.length_bytes] at hn
    rw [row, opCommand, hop, opSendPlane_refused_chunked c k n hk s (chunkSize_count hchunk hlt) inside hl,
      Flow.final_raised, sent]

end Sys2Proof.Machine

/-! ## The framer requests (41_framer.md R120 to R124): O21, O22, O23 and O24 -/

namespace Sys2Proof.Machine

/-- Settles O21, by `exec_sendCommand_accepts`. -/
theorem sendCommandPutsOneFrame : Obligations.SendCommandPutsOneFrame :=
  fun _ _ _ => exec_sendCommand_accepts

/-- Settles O22: the command byte by `opSendCommand_refused_command`, a data byte by `opSendCommand_refused_data`. -/
theorem sendCommandStopsAtRefusedByte : Obligations.SendCommandStopsAtRefusedByte := by
  intro op data s h ha
  have runs : exec (.sendCommand op data) s = .next (opSendCommand op data s).final := exec_bus_runs rfl h ha
  refine ⟨fun hl => ?command, fun n hn hl => ?payload⟩
  case command =>
    rw [runs, opSendCommand_refused_command op data s hl, Flow.final_raised]
  case payload =>
    have sent : n + 2 = 1 + (n + 1) := by omega
    rw [runs, opSendCommand_refused_data op data n s hn hl, Flow.final_raised, sent]

/-- Settles O23: the whole window by `opSendData_accepts`, the stop by `opSendData_refused`. -/
theorem sendDataPutsOneWindowOrStops : Obligations.SendDataPutsOneWindowOrStops := by
  intro data s h ha
  have runs : exec (.sendData data) s = .next (opSendData data s).final := exec_bus_runs rfl h ha
  refine ⟨fun hl => ?accepted, fun n hn hl => ?refused⟩
  case accepted =>
    rw [runs, opSendData_accepts data s hl, Flow.final_done]
  case refused =>
    rw [runs, opSendData_refused data n s hn hl, Flow.final_raised]

/-- The command window stays in command mode; the data window begins by leaving it (R122). -/
theorem dataMode_mem_frameTrace (op : Byte) (data : List Byte) :
    Event.dc .data ∈ frameTrace op data ↔ 0 < data.length := by
  cases data with
  | nil => simp [frameTrace_nil, commandWindow]
  | cons b rest => simp [frameTrace, dataWindow]

/-- Settles O24: what SEND_COMMAND appends is the trace of the frame, with the data phase in it or not. -/
theorem dataPhaseOnlyWithData : Obligations.DataPhaseOnlyWithData := by
  refine ⟨fun _ => rfl, fun op data s h ha hl => ?_⟩
  exact ⟨_, frameTrace op data, exec_sendCommand_accepts h ha hl, rfl, rfl, dataMode_mem_frameTrace op data,
    fun hnil => hnil ▸ frameTrace_nil op⟩

end Sys2Proof.Machine

/-! ## Busy, POLL_BOUND and CYCLE (42_sync.md R130 to R133): O30, O31, O33, O41 and O44 -/

namespace Sys2Proof.Machine

/-! ### A wait within its limit, and one that reaches it (R131) -/

/-- Settles O30: the wait by `opWaitIdle_idle`, its time-out by `opWaitIdle_timeout`. -/
theorem waitIdleCountsSamples : Obligations.WaitIdleCountsSamples := by
  refine ⟨fun n s h hn hidle => ?idle, fun b hb s h hbound hbusy => ?timeout⟩
  case idle =>
    rw [exec_bus_done (i := .waitIdle) rfl h (opWaitIdle_idle .waitIdle n s hn hidle), Cycle.afterIdleSample_eq]
  case timeout =>
    rw [exec_bus_runs (i := .waitIdle) rfl h (.inr rfl), opWaitIdle_timeout .waitIdle b hb s hbound hbusy,
      Flow.final_raised]

/-! ### The pre-check of REFRESH (R133) -/

/-- A pre-check that reads 1 rejects the trigger. -/
theorem opRefresh_busy (plane : Plane) (s : State) (h : s.env.busyAt 0 = true) :
    opRefresh plane s = .raised { s with
      status := .failed (.hardwareTimeout .triggerWhileBusy), trace := s.trace ++ [.busyq true],
      env := s.env.sampled 1 } := by
  have hnow : s.busyNow = true := h
  simp [opRefresh, hnow, State.raised, State.sampleBusy, State.emit]

/-- After a pre-check that reads 0 the trigger is sent, with CYCLE left as the sample leaves it. -/
theorem opRefresh_idle (plane : Plane) (s : State) (h : s.env.busyAt 0 = false) :
    opRefresh plane s = opTrigger plane { s with
      cycle := s.cycle.afterIdleSample, trace := s.trace ++ [.busyq false], env := s.env.sampled 1 } := by
  have hnow : s.busyNow = false := h
  simp [opRefresh, hnow, State.sampleBusy, State.emit, State.setCycle]

/-- Settles O41, by `opRefresh_busy`. -/
theorem refreshRejectedWhileBusy : Obligations.RefreshRejectedWhileBusy := by
  intro plane s h hbusy
  rw [exec_bus_runs (i := .refresh plane) rfl h (.inr rfl), opRefresh_busy plane s hbusy, Flow.final_raised]

/-! ### An unbounded wait (R136, log 7) -/

/-- An unbounded wait whose first sample reads 1 is left suspended after that sample. -/
theorem opWaitIdle_suspends (k : Resume) (s : State) (hinf : s.config.pollBound = .inf)
    (hbusy : s.env.busyAt 0 = true) :
    opWaitIdle k s = .waiting { s with
      polls := 1, wait := some k, trace := s.trace ++ [.busyq true], env := s.env.sampled 1 } :=
  opPoll_suspends k (s.setPolls 0) hinf hbusy

/-- INIT is left suspended after its software reset frame (44_sequences.md R170). -/
theorem opInit_suspends (s : State) (hinf : s.config.pollBound = .inf) (hl : s.linkAccepts 1)
    (hbusy : s.env.busyAt 0 = true) :
    opInit s = .waiting { s with
      dc := .command, cs := .released, status := .ok, polls := 1, wait := some .init,
      trace := s.trace ++ (commandWindow 0x12 ++ [.busyq true]), env := (s.env.sent 1).sampled 1 } := by
  rw [opInit, opSendCommand_accepts Command.softReset.value [] s hl, Flow.done_andThen, opWaitIdle_suspends .init,
    Flow.waiting_andThen, frameTrace_nil, List.append_assoc]
  · rfl
  case hinf => exact hinf
  case hbusy => exact hbusy

/-- REFRESH is left suspended after both its frames, with CYCLE = BUSY (44_sequences.md R172). -/
theorem opRefresh_suspends (plane : Plane) (s : State) (hinf : s.config.pollBound = .inf)
    (hl : s.linkAccepts (2 + (triggerPayload s.config plane).length)) (hidle : s.env.busyAt 0 = false)
    (hbusy : s.env.busyAt 1 = true) :
    opRefresh plane s = .waiting { s with
      dc := .command, cs := .released, cycle := .busy, status := .ok, polls := 1, wait := some .refresh,
      trace := s.trace ++ (.busyq false :: triggerTrace (triggerPayload s.config plane) ++ [.busyq true]),
      env := (s.env.sent (2 + (triggerPayload s.config plane).length)).sampled 2 } := by
  rw [opRefresh_idle plane s hidle, opTrigger_accepts plane, opWaitIdle_suspends .refresh, Flow.waiting_andThen]
  · simp [Environment.sampled_sent]
  case h => exact hl
  case hinf => exact hinf
  case hbusy => simpa using hbusy

/-- After a wait that ended well WAIT_IDLE and REFRESH have nothing left to do. -/
theorem afterWait_of_ok {k : Resume} {s : State} (hk : k ≠ .init) (hs : s.status = .ok) : afterWait k s = .done s := by
  cases k with
  | waitIdle => rfl
  | init => exact absurd rfl hk
  | refresh => rw [afterWait, State.setOk, ← hs]

/-- A suspended WAIT_IDLE or REFRESH ends at a sample that reads 0. -/
theorem opResume_ends {k : Resume} {s : State} (hk : k ≠ .init) (hinf : s.config.pollBound = .inf)
    (hidle : s.env.busyAt 0 = false) :
    opResume k s = .done { s with
      wait := none, polls := s.polls + 1, cycle := s.cycle.afterIdleSample, status := .ok,
      trace := s.trace ++ [.busyq false], env := s.env.sampled 1 } := by
  rw [opResume, opPoll_ends k { s with wait := none } hinf hidle, Flow.done_andThen, afterWait_of_ok hk rfl]

/-- Settles O31: each operation with its law of the suspended wait, and the end of a wait by `opResume_ends`. -/
theorem unboundedWaitSuspendsAndEnds : Obligations.UnboundedWaitSuspendsAndEnds := by
  refine ⟨fun s h hinf hbusy => ?waitIdle, fun s h hinf hl hbusy => ?init,
    fun plane s h hinf hl hidle hbusy => ?refresh, fun k s hw hp hk hinf hidle => ?ends⟩
  case waitIdle =>
    rw [exec_bus_runs (i := .waitIdle) rfl h (.inr rfl), opWaitIdle_suspends .waitIdle s hinf hbusy,
      Flow.final_waiting]
  case init =>
    rw [exec_bus_runs (i := .init) rfl h (.inr rfl), opInit_suspends s hinf hl hbusy, Flow.final_waiting]
  case refresh =>
    rw [exec_bus_runs (i := .refresh plane) rfl h (.inr rfl), opRefresh_suspends plane s hinf hl hidle hbusy,
      Flow.final_waiting]
  case ends =>
    rw [step_waiting hw hp, opResume_ends hk hinf hidle, Flow.final_done, hostReacts_ok rfl, Cycle.afterIdleSample_eq]

/-! ### Every instruction: its samples and its move of CYCLE (R131, R132) -/

/-- An instruction that answered performed its bus steps, or (the pixel buffer's, and any that met DEAD) left CYCLE, the
suspended wait and the environment alone. -/
theorem exec_steps_or_keeps_control {i : Instr} {s t : State} (h : exec i s = .next t) :
    (∃ m op, busSteps s i = some (m, op) ∧ t = (op s).final) ∨
      (t.cycle = s.cycle ∧ t.wait = s.wait ∧ t.env = s.env) := by
  obtain ⟨-, ⟨m, op, hi, ⟨-, rfl⟩ | ⟨-, -, ht⟩⟩ | ⟨v, -, rfl⟩ | ⟨x, y, b, -, hset⟩ | ⟨x, y, -, hget⟩⟩ := exec_cases h
  · exact .inr ⟨rfl, rfl, rfl⟩
  · exact .inl ⟨m, op, hi, ht⟩
  · exact .inr ⟨rfl, rfl, rfl⟩
  · obtain ⟨hcycle, hwait, henv, -⟩ := opPbSet_keeps hset
    exact .inr ⟨hcycle, hwait, henv⟩
  · obtain ⟨hcycle, hwait, henv, -⟩ := opPbGet_keeps hget
    exact .inr ⟨hcycle, hwait, henv⟩

/-- Settles O33: of the three ways steps can end (`busSteps_ends`) only an unbounded wait is suspended, and the other two
take at most the samples of `mostSamples`. -/
theorem boundedOperationsEnd : Obligations.BoundedOperationsEnd := by
  intro i b hb s t hbound hw h
  obtain ⟨m, op, hi, rfl⟩ | ⟨-, hwait, henv⟩ := exec_steps_or_keeps_control h
  · obtain ⟨hwait, -, hsamples, -⟩ | ⟨hwait, hsamples, -⟩ | ⟨-, hinf, -⟩ := (busSteps_ends hi).final
    · exact ⟨hwait.trans hw, hsamples b hb hbound⟩
    · exact ⟨hwait.trans hw, hsamples b hb hbound⟩
    · rw [hbound] at hinf
      cases hinf
  · exact ⟨hwait.trans hw, henv ▸ Nat.le_add_right _ _⟩

/-- Settles O44: the moves of CYCLE for each way the steps of an instruction can end (`busSteps_ends`). -/
theorem cycleMovesByItsTable : Obligations.CycleMovesByItsTable := by
  intro i s t h hmoved
  obtain ⟨m, op, hi, rfl⟩ | ⟨hkept, -⟩ := exec_steps_or_keeps_control h
  · obtain ⟨-, -, -, hcycle, -⟩ | ⟨-, -, hcycle, -⟩ | ⟨-, -, hcycle, -⟩ := (busSteps_ends hi).final
    · obtain hwrite | ⟨⟨p, hp⟩, hidle⟩ | hothers := hcycle.resolve_left hmoved
      · exact .inl hwrite
      · exact .inr (.inl ⟨p, hp, .inl hidle⟩)
      · exact .inr (.inr hothers)
    · obtain ⟨⟨p, hp⟩, hleft⟩ | hinit := hcycle.resolve_left hmoved
      · exact .inr (.inl ⟨p, hp, hleft⟩)
      · exact .inr (.inr (.inr (.inl hinit)))
    · obtain ⟨⟨p, hp⟩, hbusy⟩ := hcycle.resolve_left hmoved
      exact .inr (.inl ⟨p, hp, .inr hbusy⟩)
  · exact absurd hkept hmoved

end Sys2Proof.Machine

/-! ## A command row with a given payload (43_commands.md R157): O27 -/

namespace Sys2Proof.Machine

/-- Settles O27: with a given payload a row performs SEND_COMMAND of its value, so `opSendCommand_accepts` is its effect. -/
theorem commandRowsSendGivenPayload : Obligations.CommandRowsSendGivenPayload := by
  intro c plane data s h ha hl
  rw [exec_ofCommand, busRequest_runs _ _ s h ha, opCommand, opSendCommand_accepts c.value data s hl, Flow.final_done]

end Sys2Proof.Machine

/-! ## The sequencer layer (44_sequences.md R170 to R175): O34, O35, O36, O37, O38, O39, O40, O42, O43 and O60 -/

namespace Sys2Proof.Machine

/-! ### The environment and the host after a wait -/

/-- Busy samples do not use up link answers: acceptance after a wait. -/
theorem State.linkAccepts_of_sampled {s t : State} {m n k : Nat} (ht : t.env = (s.env.sent m).sampled k)
    (h : s.linkAccepts (m + n)) : t.linkAccepts n :=
  fun i hi => by rw [ht, Environment.linkAt_sampled, Environment.linkAt_sent]; exact h _ (by omega)

/-- Refusal after a wait. -/
theorem State.linkRefusesAfter_of_sampled {s t : State} {m n k : Nat} (ht : t.env = (s.env.sent m).sampled k)
    (h : s.linkRefusesAfter (m + n)) : t.linkRefusesAfter n :=
  ⟨State.linkAccepts_of_sampled ht h.1, by rw [ht, Environment.linkAt_sampled, Environment.linkAt_sent]; exact h.2⟩

/-- After a failure the host drops what it has left, if its program says so (30_encoding.md R92). -/
theorem hostReacts_failed {s : State} {f : Failure} (hw : s.wait = none) (hs : s.status = .failed f) :
    hostReacts s = { s with host := if s.stopAtFailure then [] else s.host } := by
  rw [hostReacts_eq_ite]
  cases hstop : s.stopAtFailure with
  | true => rw [if_pos ⟨rfl, hw, by simp [hs]⟩, State.withHost, if_pos rfl, hstop]
  | false => rw [if_neg (by simp), if_neg (by simp), ← hstop]

/-! ### INIT (R170) -/

/-- INIT whose wait ends within its limit goes on after it. -/
theorem opInit_idle {n : Nat} {s : State} (hl : s.linkAccepts 1) (hn : n < pollBudget s.config)
    (hidle : s.idleAfter n) :
    opInit s = initAfterWait { s with
      dc := .command, cs := .released, polls := n + 1, cycle := s.cycle.afterIdleSample, status := .ok,
      trace := s.trace ++ (commandWindow 0x12 ++ waitTrace n), env := (s.env.sent 1).sampled (n + 1) } := by
  rw [opInit, opSendCommand_accepts Command.softReset.value [] s hl, Flow.done_andThen, opWaitIdle_idle .init n,
    Flow.done_andThen, frameTrace_nil, List.append_assoc]
  · rfl
  case hn => exact hn
  case h => exact hidle

/-- INIT whose bounded wait never reads 0 stops at it. -/
theorem opInit_timeout {b : Nat} {hb : 0 < b} {s : State} (hl : s.linkAccepts 1)
    (hbound : s.config.pollBound = .count b hb) (hbusy : s.busyFor b) :
    opInit s = .raised { s with
      dc := .command, cs := .released, polls := b, status := .failed (.hardwareTimeout (.pollBoundExceeded b)),
      trace := s.trace ++ (commandWindow 0x12 ++ List.replicate b (.busyq true)),
      env := (s.env.sent 1).sampled b } := by
  rw [opInit, opSendCommand_accepts Command.softReset.value [] s hl, Flow.done_andThen, opWaitIdle_timeout .init b hb,
    Flow.raised_andThen, frameTrace_nil, List.append_assoc]
  · rfl
  case hb => exact hbound
  case h => exact hbusy

/-- INIT whose software reset is refused stops there. -/
theorem opInit_refused {s : State} (hl : s.linkRefusesAfter 0) :
    opInit s = .raised { s with
      dc := .command, cs := .asserted, dead := true, status := .failed (.transportFailure (.linkWrite 0)),
      trace := s.trace ++ [.dc .command, .cs .asserted], env := s.env.sent 1 } := by
  rw [opInit, opSendCommand_refused_command Command.softReset.value [] s hl, Flow.raised_andThen]

/-- A suspended INIT whose sample reads 0 goes on after its wait (log 7). -/
theorem opResume_init_idle {s : State} (hinf : s.config.pollBound = .inf) (hidle : s.env.busyAt 0 = false) :
    opResume .init s = initAfterWait { s with
      wait := none, polls := s.polls + 1, cycle := s.cycle.afterIdleSample, status := .ok,
      trace := s.trace ++ [.busyq false], env := s.env.sampled 1 } := by
  rw [opResume, opPoll_ends .init { s with wait := none } hinf hidle, Flow.done_andThen, afterWait]

/-- Settles O34: the wait ends (`opInit_idle`), then steps 2 to 5 are sent (`initAfterWait_accepts`). -/
theorem initRunsTheWholeScript : Obligations.InitRunsTheWholeScript := by
  intro n s h hl hn hidle
  rw [exec_bus_runs (i := .init) rfl h (.inr rfl), opInit_idle (hl.mono (by omega)) hn hidle, initAfterWait_accepts,
    Flow.final_done]
  · simp [Environment.sampled_sent]
  case h => exact State.linkAccepts_of_sampled (s := s) rfl hl

/-- Settles O36: the resumed wait ends (`opResume_init_idle`), then steps 2 to 5 are sent. -/
theorem suspendedInitGoesOn : Obligations.SuspendedInitGoesOn := by
  intro s hw hp hinf hidle hl
  rw [step_waiting hw hp, opResume_init_idle hinf hidle, initAfterWait_accepts, Flow.final_done, hostReacts_ok rfl]
  · simp [Environment.sampled_sent]
  case h => exact hl

/-- Settles O35: the two failures of step 1 are `opInit_timeout` and `opInit_refused`; after the wait, reached in one step
or resumed, `initAfterWait` stops at the refused byte of its frame. -/
theorem initStopsAtItsFirstFailure : Obligations.InitStopsAtItsFirstFailure := by
  intro s
  have runs (h : s.operable) : exec .init s = .next (opInit s).final := exec_bus_runs rfl h (.inr rfl)
  refine ⟨fun b hb h hl hbound hbusy => ?timeout, fun h hl => ?reset, fun sent later opcode data hf =>
    ⟨fun n h hn hidle => ⟨fun hl => ?command, fun m hm hl => ?payload⟩,
      fun hw hp hinf hidle => ⟨fun hl => ?resumedCommand, fun m hm hl => ?resumedPayload⟩⟩⟩
  case timeout =>
    rw [runs h, opInit_timeout hl hbound hbusy, Flow.final_raised]
  case reset =>
    rw [runs h, opInit_refused hl, Flow.final_raised]
  case command =>
    have bytes : 1 + (frameBytes sent + 1) = frameBytes sent + 2 := by omega
    rw [runs h, opInit_idle (hl.1.mono (by omega)) hn hidle, initAfterWait_refused_command hf, Flow.final_raised]
    · simp [Environment.sampled_sent, bytes]
    case h => exact State.linkRefusesAfter_of_sampled (s := s) rfl hl
  case payload =>
    have before : 2 + frameBytes sent + m = 1 + (frameBytes sent + (1 + m)) := by omega
    have bytes : 1 + (frameBytes sent + (1 + (m + 1))) = frameBytes sent + m + 3 := by omega
    rw [before] at hl
    rw [runs h, opInit_idle (hl.1.mono (by omega)) hn hidle, initAfterWait_refused_data hf m hm, Flow.final_raised]
    · rw [Environment.sampled_sent, Environment.sent_sent, bytes]
      simp
    case h => exact State.linkRefusesAfter_of_sampled (s := s) rfl hl
  case resumedCommand =>
    rw [step_waiting hw hp, opResume_init_idle hinf hidle, initAfterWait_refused_command hf, Flow.final_raised,
      hostReacts_failed rfl rfl]
    · simp [Environment.sampled_sent]
    case h => exact hl
  case resumedPayload =>
    have before : 1 + frameBytes sent + m = frameBytes sent + (1 + m) := by omega
    have bytes : frameBytes sent + (1 + (m + 1)) = frameBytes sent + m + 2 := by omega
    rw [before] at hl
    rw [step_waiting hw hp, opResume_init_idle hinf hidle, initAfterWait_refused_data hf m hm, Flow.final_raised,
      hostReacts_failed rfl rfl]
    · rw [Environment.sampled_sent, bytes]
      simp
    case h => exact hl

/-! ### WRITE_PLANE (R171, R175) -/

/-- WRITE_PLANE with every byte accepted: the plane load, then CYCLE by its table. -/
theorem exec_writePlane_accepts {plane : Plane} {s : State} (h : s.operable) (ha : s.allows (sendMisuse s))
    (hl : s.linkAccepts (1 + s.config.bufLen)) :
    exec (.writePlane plane) s = .next { s with
      dc := .command, cs := .released, cycle := s.cycle.afterPlaneWrite, status := .ok,
      trace := s.trace ++ planeTrace s.config (planeCommand plane).value s.bufBytes,
      env := s.env.sent (1 + s.config.bufLen) } := by
  rw [exec_bus_runs (i := .writePlane plane) rfl h ha, opWritePlane, opSendPlane_accepts (planeCommand plane) s hl,
    Flow.done_andThen, Flow.final_done]
  rfl

/-- Settles O37, by `exec_writePlane_accepts`. -/
theorem writePlaneLoadsTheBuffer : Obligations.WritePlaneLoadsTheBuffer := by
  intro plane s h ha hl
  rw [exec_writePlane_accepts h ha hl, Cycle.afterPlaneWrite_eq]
  cases plane <;> rfl

/-- Settles O38: whatever CHUNK is, the bytes of a plane load and their modes are those of one frame
(`sentBytes_planeTrace`). -/
theorem chunkDoesNotChangeTheFrame : Obligations.ChunkDoesNotChangeTheFrame := by
  intro plane s h ha hl
  refine ⟨_, planeTrace s.config (planeCommand plane).value s.bufBytes, exec_writePlane_accepts h ha hl, rfl, ?bytes,
    ?frame⟩
  case bytes =>
    rw [txBytes_eq s.lines, sentBytes_planeTrace]
    simp [Function.comp_def]
  case frame =>
    rw [sentBytes_planeTrace, receive_frame]

/-- Settles O39: the plane load stops (`opSendPlane_refused_command`, `_bulk`, `_chunked`), and
with it WRITE_PLANE, before CYCLE moves (R173). -/
theorem writePlaneStopsAtRefusedByte : Obligations.WritePlaneStopsAtRefusedByte := by
  intro plane s h ha opcode
  have stops {t : State} (ht : opSendPlane (planeCommand plane) s = .raised t) :
      exec (.writePlane plane) s = .next t := by
    rw [exec_bus_runs (i := .writePlane plane) rfl h ha, opWritePlane, ht, Flow.raised_andThen, Flow.final_raised]
  have value : (planeCommand plane).value = opcode := by cases plane <;> rfl
  have sent (n : Nat) : n + 2 = 1 + (n + 1) := by omega
  refine ⟨fun hl => ?command, fun n hn hl => ⟨fun hbulk => ?bulk, fun k hk hchunk hlt => ?chunked⟩⟩
  case command =>
    exact stops (opSendPlane_refused_command _ s hl)
  case bulk =>
    rw [stops (opSendPlane_refused_bulk _ n s hbulk hn hl), value, sent]
  case chunked =>
    rw [stops (opSendPlane_refused_chunked _ k n hk s (chunkSize_count hchunk hlt) hn hl), value, sent]

/-- A window begins below the last byte: one window less does not hold them all. -/
theorem windows_start_lt {k t : Nat} {bytes : List Byte} (hk : 0 < k) (ht : t < (windows k bytes).length) :
    t * k < bytes.length := by
  have upTo : (t + 1) * k ≤ (windows k bytes).length * k := Nat.mul_le_mul_right k ht
  have below := (windows_bounds k hk bytes).2
  rw [Nat.succ_mul] at upTo
  omega

/-- Settles O60: the form by `chunkSize_bulk` and `chunkSize_count`; the windows by `windows_flatten`, `windows_bounds` and
`windows_getElem?`. -/
theorem chunkWindowsPartitionTheBuffer : Obligations.ChunkWindowsPartitionTheBuffer := by
  refine ⟨fun c => ⟨fun hinf => ?unlimited, fun k hk hchunk => ⟨fun hle => ?bulk, chunkSize_count hchunk⟩⟩,
    fun k bytes hk => ?partition⟩
  case unlimited => exact chunkSize_bulk (by simp [bulkForm, hinf])
  case bulk => exact chunkSize_bulk (by simpa [bulkForm, hchunk] using hle)
  case partition =>
    obtain ⟨enough, noneEmpty⟩ := windows_bounds k hk bytes
    refine ⟨windows_flatten k hk bytes, enough, noneEmpty, fun t ht => ⟨_, windows_getElem? k bytes t ht, ?_⟩⟩
    have starts : t * k < bytes.length := windows_start_lt hk ht
    have size : ((bytes.drop (t * k)).take k).length = min k (bytes.length - t * k) := by
      rw [List.length_take, List.length_drop]
    refine ⟨size, by omega, fun i hi => ?_⟩
    rw [List.getElem?_take_of_lt (by omega), List.getElem?_drop]

/-! ### REFRESH (R172) -/

/-- REFRESH whose pre-check reads 0, every byte accepted: what is left is its wait, with CYCLE BUSY. -/
theorem opRefresh_accepts {plane : Plane} {s : State} (hidle : s.env.busyAt 0 = false)
    (hl : s.linkAccepts (2 + (triggerPayload s.config plane).length)) :
    opRefresh plane s =
      (opWaitIdle .refresh { s with
        dc := .command, cs := .released, status := .ok, cycle := .busy,
        trace := s.trace ++ (.busyq false :: triggerTrace (triggerPayload s.config plane)),
        env := (s.env.sent (2 + (triggerPayload s.config plane).length)).sampled 1 }).andThen
          fun s => .done s.setOk := by
  rw [opRefresh_idle plane s hidle, opTrigger_accepts plane]
  · simp [Environment.sampled_sent]
  case h => exact hl

/-- Settles O40: the trigger by `opRefresh_accepts`, its wait by `opWaitIdle_idle`. -/
theorem refreshTriggersAndWaits : Obligations.RefreshTriggersAndWaits := by
  intro plane n s h hpre hl hn hbusy hidle
  rw [exec_bus_runs (i := .refresh plane) rfl h (.inr rfl), opRefresh_accepts hpre hl, opWaitIdle_idle .refresh n,
    Flow.done_andThen, Flow.final_done]
  · have samples : 1 + (n + 1) = n + 2 := by omega
    simp [State.setOk, Cycle.afterIdleSample, samples]
  case hn => exact hn
  case h => exact ⟨fun k hk => by simpa using hbusy k hk, by simpa using hidle⟩

/-- Settles O42: the trigger by `opRefresh_accepts`, its wait by `opWaitIdle_timeout`. -/
theorem refreshTimeoutLeavesBusy : Obligations.RefreshTimeoutLeavesBusy := by
  intro plane b hb s h hbound hpre hl hbusy
  rw [exec_bus_runs (i := .refresh plane) rfl h (.inr rfl), opRefresh_accepts hpre hl, opWaitIdle_timeout .refresh b hb,
    Flow.raised_andThen, Flow.final_raised]
  · simp [Nat.add_comm]
  case hb => exact hbound
  case h => exact fun k hk => by simpa using hbusy k hk

/-- The trigger stops with its first frame, whichever byte of it is refused. -/
theorem opTrigger_raised {plane : Plane} {s t : State}
    (h : opSendCommand Command.dispUpdate2.value (triggerPayload s.config plane) s = .raised t) :
    opTrigger plane s = .raised t := by
  rw [opTrigger, h, Flow.raised_andThen]

/-- The trigger stops at a refused MASTER_ACTIVATION, after the whole of its first frame. -/
theorem opTrigger_refused_activation {plane : Plane} {s : State}
    (h : s.linkRefusesAfter (1 + (triggerPayload s.config plane).length)) :
    opTrigger plane s = .raised { s with
      dc := .command, cs := .asserted, dead := true, status := .failed (.transportFailure (.linkWrite 0)),
      trace := s.trace ++ (frameTrace 0x22 (triggerPayload s.config plane) ++ [.dc .command, .cs .asserted]),
      env := s.env.sent (2 + (triggerPayload s.config plane).length) } := by
  rw [opTrigger, opSendCommand_accepts _ _ s h.1, Flow.done_andThen, opSendCommand_refused_command, Flow.raised_andThen]
  · have sent : 1 + (triggerPayload s.config plane).length + 1 = 2 + (triggerPayload s.config plane).length := by omega
    simp [sent, Command.value]
  case h => exact State.linkRefusesAfter_of_env (s := s) rfl h

/-- Settles O43: after the pre-check the trigger stops in its first frame (`opTrigger_raised`) or at the byte after it
(`opTrigger_refused_activation`). -/
theorem refreshStopsAtRefusedByte : Obligations.RefreshStopsAtRefusedByte := by
  intro plane s h hpre payload left
  have stops {t : State} (ht : opTrigger plane { s with
      cycle := left, trace := s.trace ++ [.busyq false], env := s.env.sampled 1 } = .raised t) :
      exec (.refresh plane) s = .next t := by
    rw [exec_bus_runs (i := .refresh plane) rfl h (.inr rfl), opRefresh_idle plane s hpre, Cycle.afterIdleSample_eq, ht,
      Flow.final_raised]
  refine ⟨fun hl => ?command, fun m hm hl => ?payload, fun hl => ?activation⟩
  case command =>
    rw [stops (opTrigger_raised (opSendCommand_refused_command _ _ _ hl))]
    simp [Environment.sampled_sent]
  case payload =>
    have sent : 1 + (m + 1) = m + 2 := by omega
    rw [stops (opTrigger_raised (opSendCommand_refused_data _ _ m _ hm hl)), sent]
    simp [Environment.sampled_sent, frameStopTrace, payload, Command.value]
  case activation =>
    rw [stops (opTrigger_refused_activation hl)]
    simp [Environment.sampled_sent, payload]

end Sys2Proof.Machine

/-! ## The pixel buffer (45_pixel_buffer.md R190 to R194): O45, O46, O47, O48, O49 and O50 -/

namespace Sys2Proof.Machine

/-! ### Outside the geometry (R193, R202) -/

theorem pixelPlace_outside {c : Parameters} {x y : Int}
    (hout : x < 0 ∨ (c.width : Int) ≤ x ∨ y < 0 ∨ (c.height : Int) ≤ y) : pixelPlace c x y = none :=
  if_pos hout

section
variable {s : State} {x y : Int} (hr : s.ready = true)
  (hout : x < 0 ∨ (s.config.width : Int) ≤ x ∨ y < 0 ∨ (s.config.height : Int) ≤ y)
include hr hout

theorem pbSet_outside (b : Bit) : exec (.pbSet x y b) s = .next { s with status := .failed (.outOfBounds x y) } := by
  rw [exec_pbSet _ _ _ _ hr, opPbSet, pixelPlace_outside hout]
  rfl

theorem pbGet_outside : exec (.pbGet x y) s = .next { s with status := .failed (.outOfBounds x y) } := by
  rw [exec_pbGet _ _ _ hr, opPbGet, pixelPlace_outside hout]
  rfl

end

/-- A pixel is outside the geometry by the check of R193, or inside it. -/
theorem pixel_outside_or_inside (c : Parameters) (x y : Int) :
    (x < 0 ∨ (c.width : Int) ≤ x ∨ y < 0 ∨ (c.height : Int) ≤ y) ∨
      (0 ≤ x ∧ x < c.width ∧ 0 ≤ y ∧ y < c.height) := by
  omega

/-- Settles O45: the place inside the geometry is `pixelPlace_inside`, and `pixelPlace_some` bounds it. -/
theorem pixelAddressIsBoundsChecked : Obligations.PixelAddressIsBoundsChecked := by
  intro x y s hr hg
  refine ⟨fun hout => ⟨pbSet_outside hr hout, pbGet_outside hr hout⟩, fun hx hx' hy hy' => ?_⟩
  have place := pixelPlace_inside s.config x y hx hx' hy hy'
  obtain ⟨hindex, hbit⟩ := pixelPlace_some hg place
  exact ⟨_, place, pixelIndex_cast s.config x y hx hy, by simp [hy], hindex, hbit⟩

/-! ### Inside the geometry (R192, R193) -/

section
variable {s : State} {x y : Int} (hg : LegalGeometry s.config) (hx : 0 ≤ x) (hx' : x < s.config.width) (hy : 0 ≤ y)
  (hy' : y < s.config.height)
include hg hx hx' hy hy'

theorem pixelIndex_mapped : y.toNat / 8 * s.config.width + x.toNat < s.config.bufLen :=
  (pixelPlace_some hg (pixelPlace_inside s.config x y hx hx' hy hy')).1

/-- PB_GET after an operation that left `m` in BUF and `st` in STATUS: it returns the bit that the pixel's place in `m`
holds. -/
theorem pbGet_of_buf (hr : s.ready = true) (m : List Host.Cell) (st : Status) {v : Bit}
    (hv : (Memory.read m (y.toNat / 8 * s.config.width + x.toNat)).getLsbD (y.toNat % 8) = v) :
    exec (.pbGet x y) { s with buf := m, status := st } = .next { s with buf := m, result := v, status := .ok } := by
  subst hv
  exact pbGet_inside { s with buf := m, status := st } x y hr hg hx hx' hy hy'

end

theorem pixelBit_lt (y : Int) : y.toNat % 8 < 8 := Nat.mod_lt _ (by decide)

/-! ### Bytes and bits after a write (R191) -/

theorem State.bufRead_bufWrite_of_ne {s : State} {a i : Nat} (hwf : Memory.wf s.buf = true) (h : a ≠ i) (v : Byte) :
    (s.bufWrite a v).bufRead i = s.bufRead i := by
  simp [State.bufRead, Memory.read_write s.buf a i v 0 hwf, h]

theorem State.bufRead_bufWrite_same {s : State} {a : Nat} (hwf : Memory.wf s.buf = true) (h : a < s.config.bufLen)
    (v : Byte) : (s.bufWrite a v).bufRead a = some v := by
  simp [State.bufRead, Memory.read_write s.buf a a v 0 hwf, h]

/-- Setting a bit to the value it has gives the same byte. -/
theorem withPixel_getLsbD_same (old : Byte) {k : Nat} (hk : k < 8) : withPixel old k (old.getLsbD k) = old := by
  refine BitVec.eq_of_getLsbD_eq fun j hj => ?_
  rw [withPixel_getLsbD old k _ j hj hk]
  split
  next h => rw [h]
  next => rfl

/-- One bit of one byte of the buffer is written; every other bit of every byte reads as before. -/
theorem getLsbD_read_write_withPixel {m : List Host.Cell} (hwf : Memory.wf m = true) (a a' : Nat) {k k' : Nat}
    (hk : k < 8) (hk' : k' < 8) (b : Bit) :
    (Memory.read (Memory.write a (withPixel (Memory.read m a) k b) m) a').getLsbD k' =
      if a' = a ∧ k' = k then b else (Memory.read m a').getLsbD k' := by
  rw [Memory.read_write m a a' _ 0 hwf]
  by_cases ha : a = a'
  · subst ha
    simp [withPixel_getLsbD _ k b k' hk' hk]
  · rw [if_neg ha, if_neg fun h => ha h.1.symm]

/-! ### PB_CLEAR (R190) -/

theorem pbClear_eq {s : State} (hr : s.ready = true) (value : Byte) :
    exec (.pbClear value) s = .next { s with buf := Memory.fill s.config.bufLen value s.buf, status := .ok } := by
  show bufferRequest _ _ = _
  rw [bufferRequest, if_pos hr]
  rfl

/-- The algebraic law of R192: after a PB_CLEAR every pixel reads its bit of the value. -/
theorem pbGet_after_pbClear {s t : State} {x y : Int} (hr : s.ready = true) (hg : LegalGeometry s.config)
    (hwf : Memory.wf s.buf = true) (hx : 0 ≤ x) (hx' : x < s.config.width) (hy : 0 ≤ y) (hy' : y < s.config.height)
    {value : Byte} (h : exec (.pbClear value) s = .next t) :
    exec (.pbGet x y) t = .next { t with result := value.getLsbD (y % 8).toNat } := by
  rw [pbClear_eq hr] at h
  cases h
  refine pbGet_of_buf hg hx hx' hy hy' hr _ .ok ?_
  rw [Memory.read_fill _ _ _ hwf, if_pos (pixelIndex_mapped hg hx hx' hy hy'), pixelBit_toNat y hy]

/-- Settles O46: the bytes by `Memory.read_fill`, the pixels by `pbGet_after_pbClear`. -/
theorem clearFillsTheBuffer : Obligations.ClearFillsTheBuffer := by
  refine ⟨fun _ => rfl, fun value s hr hg hwf => ⟨_, pbClear_eq hr value, rfl, fun i => ?bytes, ?pixels⟩⟩
  case bytes =>
    rw [State.bufRead, Memory.read_fill _ _ _ hwf]
    split <;> rfl
  case pixels =>
    intro x y hx hx' hy hy'
    exact pbGet_after_pbClear hr hg hwf hx hx' hy hy' (pbClear_eq hr value)

/-! ### PB_SET and PB_GET inside the geometry (R191, R192) -/

/-- Settles O47: outside by `pbSet_outside`; inside, PB_SET is one `bufWrite` of `withPixel`, whose reads are above. -/
theorem setWritesOnePixel : Obligations.SetWritesOnePixel := by
  refine ⟨fun _ => rfl, fun x y b s hr hg hwf => ⟨fun hout => pbSet_outside hr hout b, fun hx hx' hy hy' => ?_⟩⟩
  have hindex := pixelIndex_mapped hg hx hx' hy hy'
  have hbit := pixelBit_lt y
  rw [pixelIndex_toNat s.config x y hx hy, pixelBit_toNat y hy]
  refine ⟨_, pbSet_inside s x y b hr hg hx hx' hy hy', rfl, fun i hi => ?otherBytes,
    ⟨_, _, bufRead_mapped hindex, State.bufRead_bufWrite_same hwf hindex _, fun k hk => ?bits, fun hsame => ?idempotent⟩,
    ?readsBack⟩
  case otherBytes =>
    rw [← pixelIndex_cast s.config x y hx hy, Ne, Int.natCast_inj] at hi
    exact State.bufRead_bufWrite_of_ne hwf (Ne.symm hi) _
  case bits =>
    rw [withPixel_getLsbD _ _ b k hk hbit]
    exact if_congr (by omega) rfl rfl
  case idempotent =>
    rw [← hsame, withPixel_getLsbD_same _ hbit]
    exact Memory.write_read _ s.buf 0 hwf
  case readsBack =>
    refine pbGet_of_buf hg hx hx' hy hy' hr _ .ok ?_
    rw [getLsbD_read_write_withPixel hwf _ _ hbit hbit, if_pos ⟨rfl, rfl⟩]

/-- Settles O48: `pbGet_outside`, `pbGet_inside` and `pbGet_after_pbClear`. -/
theorem getReadsOnePixel : Obligations.GetReadsOnePixel := by
  refine ⟨fun _ => rfl, fun x y s hr hg => ⟨pbGet_outside hr, fun hx hx' hy hy' => ⟨?_, fun value t hwf h => ?_⟩⟩⟩
  · rw [pixelIndex_toNat s.config x y hx hy, pixelBit_toNat y hy]
    exact pbGet_inside s x y hr hg hx hx' hy hy'
  · exact pbGet_after_pbClear hr hg hwf hx hx' hy hy' h

/-! ### Two pixels (R191, R193; 95_test_vectors.md X2) -/

/-- Pixels inside the geometry with the same byte index and the same bit are the same pixel: the index splits into page and
column by division by WIDTH. -/
theorem pixel_eq_of_place_eq {c : Parameters} {x y x' y' : Int} (hx : 0 ≤ x ∧ x < c.width) (hx' : 0 ≤ x' ∧ x' < c.width)
    (hy : 0 ≤ y) (hy' : 0 ≤ y') (hindex : y.toNat / 8 * c.width + x.toNat = y'.toNat / 8 * c.width + x'.toNat)
    (hbit : y.toNat % 8 = y'.toNat % 8) : (x, y) = (x', y') := by
  have column : x.toNat = x'.toNat := by
    have := congrArg (· % c.width) hindex
    simpa only [Nat.mul_add_mod_self_right, Nat.mod_eq_of_lt (show x.toNat < c.width by omega),
      Nat.mod_eq_of_lt (show x'.toNat < c.width by omega)] using this
  have page : y.toNat / 8 = y'.toNat / 8 :=
    Nat.eq_of_mul_eq_mul_right (show 0 < c.width by omega) (by omega)
  exact Prod.ext (by omega) (by omega)

/-- Settles O49: PB_SET outside writes nothing, and inside it writes a place no other pixel has. -/
theorem setLeavesOtherPixels : Obligations.SetLeavesOtherPixels := by
  intro x y x' y' b v s t hg hwf hget hset hne
  obtain ⟨hr, -⟩ := exec_cases hget
  obtain hout' | ⟨hx', hw', hy', hh'⟩ := pixel_outside_or_inside s.config x' y'
  · rw [pbGet_outside hr hout'] at hget
    simp at hget
  have pixel : (Memory.read s.buf (y'.toNat / 8 * s.config.width + x'.toNat)).getLsbD (y'.toNat % 8) = v := by
    rw [pbGet_inside s x' y' hr hg hx' hw' hy' hh'] at hget
    simpa using hget
  obtain hout | ⟨hx, hw, hy, hh⟩ := pixel_outside_or_inside s.config x y
  · rw [pbSet_outside hr hout] at hset
    cases hset
    exact pbGet_of_buf hg hx' hw' hy' hh' hr s.buf _ pixel
  · rw [pbSet_inside s x y b hr hg hx hw hy hh] at hset
    cases hset
    refine pbGet_of_buf hg hx' hw' hy' hh' hr _ .ok ?_
    rw [getLsbD_read_write_withPixel hwf _ _ (pixelBit_lt y) (pixelBit_lt y'), if_neg, pixel]
    exact fun ⟨hindex, hbit⟩ => hne (pixel_eq_of_place_eq ⟨hx', hw'⟩ ⟨hx, hw⟩ hy' hy hindex hbit)

/-! ### Every other instruction (R194) -/

/-- Settles O50: bus steps and the DEAD check keep BUF (`busSteps_keeps`), and so does PB_GET. -/
theorem onlyClearAndSetWriteBuffer : Obligations.OnlyClearAndSetWriteBuffer := by
  intro i s t hclear hset h
  have hbuf : t.buf = s.buf := by
    obtain ⟨-, ⟨_, op, hb, ⟨-, rfl⟩ | ⟨-, -, rfl⟩⟩ | ⟨v, hi, -⟩ | ⟨x, y, b, hi, -⟩ | ⟨x, y, -, hget⟩⟩ := exec_cases h
    · rfl
    · obtain ⟨es, hk⟩ := busSteps_keeps hb
      exact hk.buf
    · exact absurd hi (hclear v)
    · exact absurd hi (hset x y b)
    · obtain ⟨-, rfl⟩ | ⟨p, -, -, rfl⟩ := opPbGet_next hget <;> rfl
  obtain ⟨-, hconfig, -⟩ := exec_keeps h
  exact ⟨hbuf, fun a => by rw [State.bufRead, State.bufRead, hbuf, hconfig]⟩

end Sys2Proof.Machine

/-! ## STATUS and construction (60_exceptions.md R200 to R206; 70_reset_and_hazards.md R231): O51, O54 and O55 -/

namespace Sys2Proof.Machine

/-! ### The codes of STATUS (R205) -/

/-- Settles O54: each line of the table is an equation of `Status.code`. -/
theorem statusCodesAreTheTable : Obligations.StatusCodesAreTheTable :=
  ⟨rfl, rfl, rfl, rfl, fun _ _ => rfl, fun _ => rfl, rfl, fun _ => rfl, rfl⟩

/-! ### The checks of construction (R201, R231) -/

/-- One of the seven required parameters is missing. -/
def MissingParameter (c : Construction) : Prop :=
  c.link = none ∨ c.pinDc = none ∨ c.pinCs = none ∨ c.pinRst = none ∨ c.pinBusy = none ∨ c.width = none ∨ c.height = none

theorem checkConstruction_missing {c : Construction} (h : MissingParameter c) :
    checkConstruction c = .error .missingParameter := by
  unfold checkConstruction
  split
  · simp [MissingParameter, *] at h
  · rfl

/-- With all seven given, the dimensions decide: a zero one first, then a height that is no multiple of 8. -/
theorem checkConstruction_present {c : Construction} (h : ¬ MissingParameter c) :
    ∃ width height p, c.width = some width ∧ c.height = some height ∧
      checkConstruction c =
        if width = 0 ∨ height = 0 then .error .zeroDimension
        else if height % 8 ≠ 0 then .error .heightNotMultipleOf8
        else .ok p := by
  unfold checkConstruction
  split
  · next hwidth hheight => exact ⟨_, _, _, hwidth, hheight, rfl⟩
  · next hsome =>
    simp only [MissingParameter, not_or, Option.ne_none_iff_exists'] at h
    obtain ⟨⟨_, hlink⟩, ⟨_, hdc⟩, ⟨_, hcs⟩, ⟨_, hrst⟩, ⟨_, hbusy⟩, ⟨_, hwidth⟩, _, hheight⟩ := h
    exact (hsome _ _ _ _ _ _ _ hlink hdc hcs hrst hbusy hwidth hheight).elim

section
variable {c : Construction} {s : State} (hr : s.ready = false)
include hr

theorem construct_of_check_error {cause : ConfigurationCause} (h : checkConstruction c = .error cause) :
    construct c s = .next { s with status := .failed (.configurationError cause) } := by
  simp [construct, hr, h, State.raised]

theorem construct_of_check_ok {p : Parameters} (h : checkConstruction c = .ok p) :
    construct c s = .next (opConstruct p s).final := by
  simp [construct, hr, h]

end

/-- After the checks nothing but the installation touches the configuration, READY and BUF, also where the block is DEAD. -/
theorem opConstruct_keeps (p : Parameters) (s : State) : ∃ es, Keeps es (s.install p) (opConstruct p s).final := by
  obtain ⟨es, hk, -⟩ := opConstruct_does stretch_anything (fun _ _ => trivial) (fun _ _ => trivial)
    (fun _ _ _ => trivial) (fun _ _ => trivial) (fun _ _ => trivial) p s
  exact ⟨es, hk⟩

/-- Settles O51: the checks by `checkConstruction_missing` and `checkConstruction_present`; after them the configuration,
READY and BUF are as `State.install` left them (`opConstruct_keeps`). -/
theorem constructionChecksInOrder : Obligations.ConstructionChecksInOrder := by
  intro c s hr
  by_cases hmissing : MissingParameter c
  · exact ⟨fun _ => construct_of_check_error hr (checkConstruction_missing hmissing), absurd hmissing, absurd hmissing,
      absurd hmissing⟩
  obtain ⟨width, height, p, hwidth, hheight, hcheck⟩ := checkConstruction_present hmissing
  have zero_iff : (c.width = some 0 ∨ c.height = some 0) ↔ (width = 0 ∨ height = 0) := by simp [hwidth, hheight]
  have ragged_iff : (∃ h, c.height = some h ∧ h % 8 ≠ 0) ↔ height % 8 ≠ 0 := by simp [hheight]
  refine ⟨fun h => absurd h hmissing, fun _ hzero => ?zero, fun _ hzero hragged => ?ragged,
    fun _ hzero hragged => ?legal⟩
  case zero =>
    exact construct_of_check_error hr (by rw [hcheck, if_pos (zero_iff.mp hzero)])
  case ragged =>
    exact construct_of_check_error hr
      (by rw [hcheck, if_neg (mt zero_iff.mpr hzero), if_pos (ragged_iff.mp hragged)])
  case legal =>
    rw [if_neg (mt zero_iff.mpr hzero), if_neg (mt ragged_iff.mpr hragged)] at hcheck
    obtain ⟨hlegal, hoptions, hw, hh⟩ := checkConstruction_ok hcheck
    obtain ⟨es, hk⟩ := opConstruct_keeps p s
    have hconfig : (opConstruct p s).final.config = p := hk.config
    have hbuf : (opConstruct p s).final.buf = [] := hk.buf
    refine ⟨_, construct_of_check_ok hr hcheck, hk.ready, ?_⟩
    rw [hconfig, hw, hh]
    exact ⟨rfl, rfl, hlegal, hoptions, fun i => by rw [State.bufRead, hconfig, hbuf, Memory.read_nil, Memory.unlisted]⟩

/-! ### The failures of each instruction (R206) -/

/-- An instruction with bus steps is none of the pixel buffer's. -/
theorem ne_pixelBuffer_of_busSteps {i : Instr} {s : State} {m : Option Refusal} {op : State → Flow}
    (h : busSteps s i = some (m, op)) :
    (∀ v, i ≠ .pbClear v) ∧ (∀ x y b, i ≠ .pbSet x y b) ∧ ∀ x y, i ≠ .pbGet x y := by
  refine ⟨?_, ?_, ?_⟩
  · rintro v rfl
    cases h
  · rintro x y b rfl
    cases h
  · rintro x y rfl
    cases h

/-- Settles O55: the DEAD check, the ways bus steps can end (`busSteps_ends`), and the pixel buffer's requests, each with
the failure it leaves in STATUS. -/
theorem instructionsRaiseOnlyTheirFailures : Obligations.InstructionsRaiseOnlyTheirFailures := by
  intro i s t f h hwait hf
  obtain ⟨-, ⟨m, op, hi, ⟨hdead, rfl⟩ | ⟨-, -, rfl⟩⟩ | ⟨v, -, rfl⟩ | ⟨x, y, b, rfl, hset⟩ | ⟨x, y, rfl, hget⟩⟩ :=
    exec_cases h
  · cases hf
    exact ⟨hdead, ne_pixelBuffer_of_busSteps hi⟩
  · obtain ⟨-, hok, -⟩ | ⟨-, -, -, hraised⟩ | ⟨⟨k, hk⟩, -⟩ := (busSteps_ends hi).final
    · cases hok.symm.trans hf
    · obtain ⟨n, hs, hrow⟩ | ⟨hs, hrow⟩ | ⟨n, hs, hrow⟩ := hraised <;> cases hs.symm.trans hf <;> exact hrow
    · cases hk.symm.trans hwait
  · cases hf
  · obtain ⟨-, rfl⟩ | ⟨p, -, -, rfl⟩ := opPbSet_next hset <;> cases hf
    exact .inl ⟨b, rfl⟩
  · obtain ⟨-, rfl⟩ | ⟨p, -, -, rfl⟩ := opPbGet_next hget <;> cases hf
    exact .inr rfl

end Sys2Proof.Machine

/-! ## Reset and hazards (70_reset_and_hazards.md R231, R237, R238, R244, R246, R247): O4, O15, O26, O32, O52 and O59 -/

namespace Sys2Proof.Machine

/-! ### The misuse a configured block refuses (R237, R238, R244; 30_encoding.md R88) -/

theorem writeMisuse_released {s : State} (h : s.cs = .released) : writeMisuse s = some .selectReleased :=
  if_pos h

theorem writeMisuse_asserted {s : State} (h : s.cs = .asserted) : writeMisuse s = sendMisuse s :=
  if_neg (by simp [h])

theorem sendMisuse_busy {s : State} (h : s.cycle = .busy) : sendMisuse s = some .refreshInFlight :=
  if_pos h

theorem commandMisuse_unlisted {op : Byte} (h : opcodeListed op = false) (data : List Byte) (s : State) :
    commandMisuse op data s = some (.unlistedOpcode op) :=
  if_neg (by simp [Instr.wellFormed, h])

theorem commandMisuse_listed {op : Byte} (h : opcodeListed op = true) (data : List Byte) (s : State) :
    commandMisuse op data s = sendMisuse s :=
  if_pos h

/-- Only with Select asserted is WRITE no misuse (R244). -/
theorem cs_asserted_of_writeMisuse {s : State} (h : writeMisuse s = none) : s.cs = .asserted := by
  cases hcs : s.cs with
  | asserted => rfl
  | released =>
    rw [writeMisuse_released hcs] at h
    cases h

theorem exec_bus_refused {i : Instr} {s : State} {m : Option Refusal} {op : State → Flow} {r : Refusal}
    (hi : busSteps s i = some (m, op)) (hm : m = some r) (h : s.operable) (hc : s.config.refuseMisuse = true) :
    exec i s = .refused r := by
  rw [exec_bus hi, hm, busRequest_refuses r op s h hc]

/-- Settles O15: each request is a bus request whose misuse is the one named. -/
theorem configuredBlockRefusesMisuse : Obligations.ConfiguredBlockRefusesMisuse := by
  intro s h hc
  refine ⟨fun data hcs => ?released, fun op data hop => ?unlisted, fun hbusy => ?busy⟩
  case released => exact exec_bus_refused (i := .write data) rfl (writeMisuse_released hcs) h hc
  case unlisted => exact exec_bus_refused (i := .sendCommand op data) rfl (commandMisuse_unlisted hop data s) h hc
  case busy =>
    have inFlight : sendMisuse s = some .refreshInFlight := sendMisuse_busy hbusy
    refine ⟨fun data hcs => ?write, fun op data hop => ?command, fun data => ?data, fun plane => ?plane,
      fun plane payload c => ?row⟩
    case write => exact exec_bus_refused (i := .write data) rfl ((writeMisuse_asserted hcs).trans inFlight) h hc
    case command =>
      exact exec_bus_refused (i := .sendCommand op data) rfl ((commandMisuse_listed hop data s).trans inFlight) h hc
    case data => exact exec_bus_refused (i := .sendData data) rfl inFlight h hc
    case plane => exact exec_bus_refused (i := .writePlane plane) rfl inFlight h hc
    case row => rw [exec_ofCommand, inFlight, busRequest_refuses _ _ s h hc]

/-! ### Bytes only with Select asserted (R244, D23) -/

theorem selected_tx (l : Lines) (b : Byte) (h : l.cs = .asserted) : Selected l [.tx b] :=
  (orderly_tx l b h).1

/-- A block that refuses misuse and has sent no byte with Select released. -/
structure State.SentGuarded (s : State) : Prop extends s.Guarded where
  selected : sentSelected Lines.powerOn s.trace = true

/-- The bytes that a stretch sends are sent with the latches the trace records so far. -/
theorem State.SentGuarded.of_does {s t : State} (hs : s.SentGuarded)
    (hrec : Lines.powerOn.afterAll s.trace = s.lines) (h : Does Selected s t) : t.SentGuarded := by
  obtain ⟨es, hk, hes⟩ := h
  exact {
    refuses := by rw [hk.ready, hk.config]; exact hs.refuses
    constructions := by rw [hk.host]; exact hs.constructions
    selected := by rw [hk.trace, sentSelected_append, hs.selected, hrec, Bool.true_and]; exact hes }

/-- A host that has less left to issue constructs no other block. -/
theorem State.SentGuarded.withHost {s : State} (hs : s.SentGuarded) {rest : List HostInput} (h : rest ⊆ s.host) :
    (s.withHost rest).SentGuarded :=
  { hs with constructions := fun c hc => hs.constructions c (h hc) }

theorem State.SentGuarded.afterInput {s : State} (hs : s.SentGuarded) {input : HostInput} {rest : List HostInput}
    (hh : s.host = input :: rest) : (s.withHost rest).SentGuarded :=
  hs.withHost (by rw [hh]; exact List.subset_cons_self input rest)

theorem hostReacts_sentGuarded {s : State} (hs : s.SentGuarded) : (hostReacts s).SentGuarded := by
  obtain h | h := hostReacts_eq s <;> rw [h]
  · exact hs
  · exact hs.withHost (List.nil_subset _)

/-- After power-on the trace is empty and no block is constructed. -/
theorem powerOn_sentGuarded {s : State} (hs : s.SentGuarded) : (powerOn s).SentGuarded where
  refuses := State.reset_guarded.refuses
  constructions := hs.constructions
  selected := rfl

/-- PULSE_RESET sends no byte, and WRITE is refused unless Select is asserted; every other operation asserts Select
itself. The pixel buffer's requests write BUF and append nothing. -/
theorem exec_does_selected {i : Instr} {s t : State} (hs : s.Guarded) (h : exec i s = .next t) :
    ∃ m, Does Selected { s with buf := m } t := by
  obtain ⟨hready, ⟨m, op, hb, ⟨hd, rfl⟩ | ⟨-, ha, rfl⟩⟩ | ⟨v, -, rfl⟩ | ⟨x, y, b, -, hset⟩ | ⟨x, y, -, hget⟩⟩ :=
    exec_cases h
  · exact ⟨s.buf, .of_keeps stretch_selected (keeps_deadFailure s hd)⟩
  · refine ⟨s.buf, ?_⟩
    by_cases hi : i = .pulseReset
    · subst hi
      cases hb
      exact ⟨_, opPulseReset_keeps s, rfl⟩
    · refine busSteps_does stretch_selected (fun _ _ => rfl) (fun _ _ => rfl) selected_tx (fun _ _ => rfl) hb ?_ hi
      rintro data rfl b
      cases hb
      have noMisuse : writeMisuse s = none := ha.resolve_left (by simp [hs.refuses hready])
      exact selected_tx s.lines b (cs_asserted_of_writeMisuse noMisuse)
  · exact ⟨_, .of_keeps stretch_selected (keeps_setOk _)⟩
  · obtain ⟨-, rfl⟩ | ⟨p, -, -, rfl⟩ := opPbSet_next hset
    · exact ⟨s.buf, .of_keeps stretch_selected (keeps_raised _ s (by simp))⟩
    · exact ⟨_, .of_keeps stretch_selected (keeps_setOk _)⟩
  · obtain ⟨-, rfl⟩ | ⟨p, -, -, rfl⟩ := opPbGet_next hget
    · exact ⟨s.buf, .of_keeps stretch_selected (keeps_raised _ s (by simp))⟩
    · exact ⟨s.buf, .of_keeps stretch_selected ((keeps_setResult _ s).trans (keeps_setOk _))⟩

theorem exec_sentGuarded {i : Instr} {s t : State} (hs : s.SentGuarded)
    (hrec : Lines.powerOn.afterAll s.trace = s.lines) (h : exec i s = .next t) : t.SentGuarded := by
  obtain ⟨m, hdoes⟩ := exec_does_selected hs.toGuarded h
  have written : ({ s with buf := m } : State).SentGuarded := { hs with }
  exact written.of_does hrec hdoes

/-- Construction takes the switch from what the host gives, and sends nothing but the frames of INIT (R231). -/
theorem construct_sentGuarded {c : Construction} {s t : State} (hs : s.SentGuarded)
    (hrec : Lines.powerOn.afterAll s.trace = s.lines) (hc : c.refuseMisuse = true) (h : construct c s = .next t) :
    t.SentGuarded := by
  obtain ⟨-, ⟨cause, rfl⟩ | ⟨p, hp, rfl⟩⟩ := construct_next h
  · exact hs.of_does hrec (.of_keeps stretch_selected (keeps_raised _ s (by simp)))
  · obtain ⟨-, hoptions, -⟩ := checkConstruction_ok hp
    have installed : (s.install p).SentGuarded :=
      { hs with refuses := fun _ => (congrArg Options.refuseMisuse hoptions).trans hc }
    exact installed.of_does hrec (opConstruct_does stretch_selected (fun _ _ => rfl) (fun _ _ => rfl) selected_tx
      (fun _ _ => rfl) (fun _ _ => rfl) p s)

/-- Going on with a suspended wait sends at most the frames of INIT. -/
theorem opResume_sentGuarded (k : Resume) {s : State} (hs : s.SentGuarded)
    (hrec : Lines.powerOn.afterAll s.trace = s.lines) : (opResume k s).final.SentGuarded :=
  hs.of_does hrec (opResume_does stretch_selected (fun _ _ => rfl) (fun _ _ => rfl) selected_tx (fun _ _ => rfl) k s)

/-- Settles O4: each of the five things a step can do keeps `SentGuarded`; the invariant says that the latches a byte
meets are those the trace records. -/
theorem guardedBlockSendsOnlySelected : Obligations.GuardedBlockSendsOnlySelected := by
  intro s t hinv hguarded hsel h
  have hs : s.SentGuarded := { hguarded with selected := hsel }
  have ht : t.SentGuarded := by
    obtain ⟨k, -, rfl⟩ | ⟨-, -, rfl⟩ | ⟨rest, hh, rfl⟩ | ⟨-, c, rest, u, hh, hc, rfl⟩ |
      ⟨-, code, rest, i, u, hh, -, he, rfl⟩ := step_cases h
    · exact hostReacts_sentGuarded (opResume_sentGuarded k hs hinv.recorded)
    · exact hs
    · exact powerOn_sentGuarded (hs.afterInput hh)
    · have refuses : c.refuseMisuse = true := hs.constructions c (by simp [hh])
      exact hostReacts_sentGuarded (construct_sentGuarded (hs.afterInput hh) hinv.recorded refuses hc)
    · exact hostReacts_sentGuarded (exec_sentGuarded (hs.afterInput hh) hinv.recorded he)
  exact ⟨ht.toGuarded, ht.selected⟩

/-! ### The lines after success (R247) -/

/-- The operations that drive DC and CS themselves: the framer's, the sequencer's and the command rows. -/
def Framed (i : Instr) : Prop :=
  (∃ op data, i = .sendCommand op data) ∨ (∃ data, i = .sendData data) ∨ i = .init ∨ (∃ p, i = .writePlane p) ∨
    (∃ p, i = .refresh p) ∨ ∃ plane payload c, i = Instr.ofCommand plane payload c

theorem Framed.exists_busSteps {i : Instr} (h : Framed i) (s : State) : ∃ m op, busSteps s i = some (m, op) := by
  obtain ⟨op, data, rfl⟩ | ⟨data, rfl⟩ | rfl | ⟨p, rfl⟩ | ⟨p, rfl⟩ | ⟨plane, payload, c, rfl⟩ := h
  · exact ⟨_, _, rfl⟩
  · exact ⟨_, _, rfl⟩
  · exact ⟨_, _, rfl⟩
  · exact ⟨_, _, rfl⟩
  · exact ⟨_, _, rfl⟩
  · obtain ⟨_, -, hrow⟩ := busSteps_ofCommand s plane payload c
    exact ⟨_, _, hrow⟩

/-- WAIT_IDLE assigns no latch, so it may be suspended with the lines in any state. -/
theorem not_framed_waitIdle : ¬ Framed .waitIdle := by
  intro h
  simp only [Framed, reduceCtorEq, exists_false, false_or] at h
  obtain ⟨_, _, c, hrow⟩ := h
  cases c <;> cases hrow

/-- Settles O26: of the ways bus steps can end (`busSteps_ends`), done and suspended leave the lines idle, and a
failure is not OK. -/
theorem successLeavesLinesIdle : Obligations.SuccessLeavesLinesIdle := by
  intro i s t (hi : Framed i) h hok
  obtain ⟨m, op, hsteps⟩ := hi.exists_busSteps s
  rw [exec_bus hsteps] at h
  obtain ⟨-, ⟨-, rfl⟩ | ⟨-, -, rfl⟩⟩ := busRequest_next h
  · cases hok
  · obtain ⟨-, -, -, -, hidle⟩ | ⟨-, -, -, hraised⟩ | ⟨-, -, -, hidle⟩ := (busSteps_ends hsteps).final
    · exact hidle hi
    · obtain ⟨n, hs, -⟩ | ⟨hs, -⟩ | ⟨n, hs, -⟩ := hraised <;> cases hok.symm.trans hs
    · refine hidle.resolve_left ?_
      rintro rfl
      exact not_framed_waitIdle hi

/-! ### A wait that never ends (R246) -/

/-- One step of an unbounded wait whose sample reads 1 is that sample (log 7). -/
theorem step_suspended_busy {k : Resume} {s : State} (hw : s.wait = some k) (hp : ∀ rest, s.host ≠ .powerOn :: rest)
    (hinf : s.config.pollBound = .inf) (hbusy : s.env.busyAt 0 = true) :
    step s = .next { s with
      polls := s.polls + 1, trace := s.trace ++ [.busyq true], env := s.env.sampled 1 } := by
  rw [step_waiting hw hp, opResume, opPoll_suspends k { s with wait := none } hinf hbusy, Flow.waiting_andThen,
    Flow.final_waiting, hostReacts_waiting rfl, ← hw]

/-- Settles O32, by induction on the number of steps, each of which is one sample (`step_suspended_busy`). -/
theorem unboundedWaitNeverEndsWhileBusy : Obligations.UnboundedWaitNeverEndsWhileBusy := by
  intro n
  induction n with
  | zero =>
    intro k s _ _ _ _
    simp [runSteps]
  | succ n ih =>
    intro k s hw hp hinf hbusy
    rw [runSteps, step_suspended_busy hw hp hinf (hbusy 0 n.succ_pos)]
    simp only
    rw [ih k]
    · simp [List.replicate_succ, Nat.add_assoc, Nat.add_comm 1 n]
    · exact hw
    · exact hp
    · exact hinf
    · exact State.busyFor_of_env (s := s) (m := 1) rfl (by rwa [Nat.add_comm])

/-! ### Construction (R231) -/

/-- The block that construction hands to its INIT: installed, and pulsed where it is configured. -/
def State.constructed (p : Parameters) (s : State) : State :=
  { s with
    config := p, buf := [], ready := true, rst := (if p.constructPulsesReset then true else s.rst),
    cycle := (if p.constructPulsesReset then .idle else s.cycle),
    status := (if p.constructPulsesReset then .ok else s.status),
    trace := s.trace ++ if p.constructPulsesReset then [.rst false, .rst true] else [] }

/-- After its checks construction ends as INIT ends. -/
theorem construct_eq_exec_init {c : Construction} {p : Parameters} {s : State} (hr : s.ready = false)
    (hlive : s.dead = false) (hp : checkConstruction c = .ok p) :
    construct c s = exec .init (s.constructed p) := by
  have operable : (s.constructed p).operable := ⟨rfl, hlive⟩
  rw [construct_of_check_ok hr hp, opConstruct_eq p s hlive, opInit_andThen_setOk,
    exec_bus_runs (i := .init) rfl operable (.inr rfl), State.constructed]

/-- Settles O52: construction is INIT on the constructed block, which runs its whole script (O34). -/
theorem constructionPulsesAndInitialises : Obligations.ConstructionPulsesAndInitialises := by
  intro c p n s hr hlive hp hl hn hidle
  rw [construct_eq_exec_init hr hlive hp, initRunsTheWholeScript n (s.constructed p) ⟨rfl, hlive⟩ hl hn hidle]
  simp [State.constructed]

/-- Construction of a block that is not constructed always answers. -/
theorem construct_answers (c : Construction) {s : State} (hr : s.ready = false) : ∃ t, construct c s = .next t := by
  cases hc : checkConstruction c with
  | error cause => exact ⟨_, construct_of_check_error hr hc⟩
  | ok p => exact ⟨_, construct_of_check_ok hr hc⟩

/-- Settles O59: construction is INIT on the constructed block (`construct_eq_exec_init`), whose ends are those of O35
and O31; a step performs it, or refuses a second one. -/
theorem constructionEndsAsItsInit : Obligations.ConstructionEndsAsItsInit := by
  refine ⟨fun c p s hr hlive hp => ?ends, fun s c rest hw hh => ⟨fun hr => ?second, fun hr => ?first⟩⟩
  case ends =>
    have hinit : construct c s = exec .init (s.constructed p) := construct_eq_exec_init hr hlive hp
    have operable : (s.constructed p).operable := ⟨rfl, hlive⟩
    obtain ⟨timeout, refused, -⟩ := initStopsAtItsFirstFailure (s.constructed p)
    obtain ⟨-, suspended, -⟩ := unboundedWaitSuspendsAndEnds
    refine ⟨hinit, ?constructed, fun b hb hbound hl hbusy => ?timeout, fun hl => ?refused,
      fun hinf hl hbusy => ?suspended⟩
    case constructed =>
      obtain ⟨es, hk⟩ := opConstruct_keeps p s
      exact ⟨_, construct_of_check_ok hr hp, hk.ready, hk.config⟩
    case timeout =>
      rw [hinit, timeout b hb operable hl hbound hbusy]
      simp [State.constructed]
    case refused =>
      rw [hinit, refused operable hl]
      simp [State.constructed]
    case suspended =>
      rw [hinit, suspended (s.constructed p) operable hinf hl hbusy]
      simp [State.constructed]
  case second =>
    refine ⟨construct_of_ready c hr, ?_⟩
    rw [step_construct hw hh, construct_of_ready c (s := s.withHost rest) hr, afterOperation]
  case first =>
    obtain ⟨t, ht⟩ := construct_answers c (s := s.withHost rest) hr
    refine ⟨t, ht, ?_⟩
    rw [step_construct hw hh, ht, afterOperation, hostReacts_eq_ite]

end Sys2Proof.Machine
